-- ==== Sys2Proof/Word.lean ====
section
/-! DEFINITION. The machine's two data widths (00_scope.md R8, R10). -/

namespace Sys2Proof

/-- An 8-bit value: A, X, Y, SP, P, IR and every bus datum. -/
abbrev Byte := BitVec 8

/-- A 16-bit value: PC and every bus address. -/
abbrev Word := BitVec 16

end Sys2Proof
end

