-- ==== Sys2Proof/Config.lean ====
section
/-! DEFINITION. What an implementation fixes (00_scope.md R8) and the free values the spec leaves open (R15). A free value has no body:
nothing can evaluate it, and a statement about it holds whatever it is. -/

namespace Sys2Proof

/-- BEHAVIOUR, the CpuBehavior parameter (00_scope.md R2, 10_state.md R42). -/
inductive Behaviour where
  | nmos6502
  | nmosWithRorBug
  | nmosWithIndirectJmpBug
  | nmosWithoutIndirectJmpBug
  | cmos6502
  | cmos65816
deriving DecidableEq, Repr

/-- ACIA_LAYOUT (00_scope.md R8, 60_exceptions.md R530). -/
inductive AciaLayout where
  | a6551
  | a6850
deriving DecidableEq, Repr

/-- UNDEF_LEN (00_scope.md R8, 30_encoding.md R144): the opcodes undefined under every behaviour whose length is 2, and those whose length
is 3; the others have length 1. Every function from the 46 opcodes to 1, 2, 3 is one of these. Log 4. -/
structure UndefLens where
  two : List Byte
  three : List Byte
deriving DecidableEq, Repr

/-- A drawn byte (00_scope.md R15), the `n`-th draw of the run. Log 5. -/
opaque Config.drawByte : Nat → Byte

/-- A drawn 16-bit value (`instAddr` at reset, 10_state.md R30). Log 5. -/
opaque Config.drawWord : Nat → Word

/-- A drawn boolean (Z and N at reset, 10_state.md R30). Log 5. -/
opaque Config.drawBit : Nat → Bool

/-- Drawn FIFO contents: what an ACIA buffer holds after a fault (60_exceptions.md R501, 93 U7). Log 10. -/
opaque Config.drawFifo : Nat → List Byte

/-- Drawn memory contents: what memory holds after a fault (60_exceptions.md R501, 93 U7). Log 10. -/
opaque Config.drawMemory : Nat → List (Nat × Byte)

/-- How many further status computations find the receive side of the ACIA at a base address not ready, counted from a given one
(60_exceptions.md R547). A sequence of finite gaps is a weakly fair readiness, and every weakly fair readiness is one. Log 6. -/
opaque Config.rxGap : (base poll : Nat) → Nat

/-- The same for the transmit side (60_exceptions.md R547). Log 6. -/
opaque Config.txGap : (base poll : Nat) → Nat

/-- ROR_BUG_FN: from the operand and C, N, Z to the result and the new C, N, Z (00_scope.md R8, 42_shift_rmw_bit.md R304, D13). Log 7. -/
opaque Config.rorBugFn : Byte → Bool → Bool → Bool → Byte × Bool × Bool × Bool

end Sys2Proof
end

