-- ==== Sys2Proof/Syntax.lean ====
section
/-! DEFINITION. The instructions (30_encoding.md R143, opcode_table.json). A constructor of `Instr` is a mnemonic of the table; its argument
is the addressing mode with the operand bytes, and the type of the argument has one constructor per mode the table gives that mnemonic, so
that a value of `Instr` up to its operand bytes is exactly one row of the table (log 14). -/

namespace Sys2Proof

/-- The memory operand forms, of which 30_encoding.md R127 to R137 give the effective address. -/
inductive MemOperand where
  | zpg (b1 : Byte)
  | zpx (b1 : Byte)
  | zpy (b1 : Byte)
  | abs (w : Word)
  | abx (w : Word)
  | aby (w : Word)
  | zpi (b1 : Byte)
  | xin (b1 : Byte)
  | iny (b1 : Byte)
deriving DecidableEq, Repr

/-- What `load(mode)` takes: an immediate byte or a memory operand (30_encoding.md R126, R141). -/
inductive Source where
  | imm (b1 : Byte)
  | mem (m : MemOperand)
deriving DecidableEq, Repr

/-- What a read-modify-write works on: the accumulator or a memory operand (30_encoding.md R124, 42_shift_rmw_bit.md R300). -/
inductive Target where
  | acc
  | mem (m : MemOperand)
deriving DecidableEq, Repr

/-- The modes of LDA, ADC, SBC, AND, ORA, EOR and CMP (R200, R250, R253, R255 to R257, R259); ZPI is CMOS only. -/
inductive AluMode where
  | imm (b1 : Byte)
  | zpg (b1 : Byte)
  | zpx (b1 : Byte)
  | abs (w : Word)
  | abx (w : Word)
  | aby (w : Word)
  | xin (b1 : Byte)
  | iny (b1 : Byte)
  | zpi (b1 : Byte)
deriving DecidableEq, Repr

/-- The modes of STA (R203); ZPI is CMOS only. -/
inductive StaMode where
  | zpg (b1 : Byte)
  | zpx (b1 : Byte)
  | abs (w : Word)
  | abx (w : Word)
  | aby (w : Word)
  | xin (b1 : Byte)
  | iny (b1 : Byte)
  | zpi (b1 : Byte)
deriving DecidableEq, Repr

/-- The modes of LDX (R201). -/
inductive LdxMode where
  | imm (b1 : Byte)
  | zpg (b1 : Byte)
  | zpy (b1 : Byte)
  | abs (w : Word)
  | aby (w : Word)
deriving DecidableEq, Repr

/-- The modes of LDY (R202). -/
inductive LdyMode where
  | imm (b1 : Byte)
  | zpg (b1 : Byte)
  | zpx (b1 : Byte)
  | abs (w : Word)
  | abx (w : Word)
deriving DecidableEq, Repr

/-- The modes of STX (R204). -/
inductive StxMode where
  | zpg (b1 : Byte)
  | zpy (b1 : Byte)
  | abs (w : Word)
deriving DecidableEq, Repr

/-- The modes of STY (R205). -/
inductive StyMode where
  | zpg (b1 : Byte)
  | zpx (b1 : Byte)
  | abs (w : Word)
deriving DecidableEq, Repr

/-- The modes of STZ (R206). -/
inductive StzMode where
  | zpg (b1 : Byte)
  | zpx (b1 : Byte)
  | abs (w : Word)
  | abx (w : Word)
deriving DecidableEq, Repr

/-- The modes of CPX and CPY (R260, R261). -/
inductive CpxMode where
  | imm (b1 : Byte)
  | zpg (b1 : Byte)
  | abs (w : Word)
deriving DecidableEq, Repr

/-- The modes of BIT (R262); IMM, ZPX and ABX are CMOS only. -/
inductive BitMode where
  | zpg (b1 : Byte)
  | abs (w : Word)
  | imm (b1 : Byte)
  | zpx (b1 : Byte)
  | abx (w : Word)
deriving DecidableEq, Repr

/-- The modes of ASL, LSR, ROL, ROR, INC and DEC (R301 to R306); ACC is CMOS only for INC and DEC. -/
inductive ShiftMode where
  | acc
  | zpg (b1 : Byte)
  | zpx (b1 : Byte)
  | abs (w : Word)
  | abx (w : Word)
deriving DecidableEq, Repr

/-- The modes of TSB and TRB (R307, R308). -/
inductive TsbMode where
  | zpg (b1 : Byte)
  | abs (w : Word)
deriving DecidableEq, Repr

/-- The modes of JMP (R362 to R364); AIX is CMOS only. -/
inductive JmpMode where
  | abs (w : Word)
  | ind (w : Word)
  | aix (w : Word)
deriving DecidableEq, Repr

/-- The instructions: one constructor per mnemonic of opcode_table.json. `off` is a signed branch offset (R138, R139), `zp` a zero-page address. -/
inductive Instr where
  | lda (m : AluMode)
  | ldx (m : LdxMode)
  | ldy (m : LdyMode)
  | sta (m : StaMode)
  | stx (m : StxMode)
  | sty (m : StyMode)
  | stz (m : StzMode)
  | tax
  | tay
  | txa
  | tya
  | tsx
  | txs
  | pha
  | php
  | pla
  | plp
  | phx
  | phy
  | plx
  | ply
  | adc (m : AluMode)
  | sbc (m : AluMode)
  | and (m : AluMode)
  | ora (m : AluMode)
  | eor (m : AluMode)
  | cmp (m : AluMode)
  | cpx (m : CpxMode)
  | cpy (m : CpxMode)
  | bit (m : BitMode)
  | inx
  | iny
  | dex
  | dey
  | asl (m : ShiftMode)
  | lsr (m : ShiftMode)
  | rol (m : ShiftMode)
  | ror (m : ShiftMode)
  | inc (m : ShiftMode)
  | dec (m : ShiftMode)
  | tsb (m : TsbMode)
  | trb (m : TsbMode)
  | rmb0 (zp : Byte)
  | rmb1 (zp : Byte)
  | rmb2 (zp : Byte)
  | rmb3 (zp : Byte)
  | rmb4 (zp : Byte)
  | rmb5 (zp : Byte)
  | rmb6 (zp : Byte)
  | rmb7 (zp : Byte)
  | smb0 (zp : Byte)
  | smb1 (zp : Byte)
  | smb2 (zp : Byte)
  | smb3 (zp : Byte)
  | smb4 (zp : Byte)
  | smb5 (zp : Byte)
  | smb6 (zp : Byte)
  | smb7 (zp : Byte)
  | bcc (off : Byte)
  | bcs (off : Byte)
  | beq (off : Byte)
  | bne (off : Byte)
  | bmi (off : Byte)
  | bpl (off : Byte)
  | bvc (off : Byte)
  | bvs (off : Byte)
  | bra (off : Byte)
  | bbr0 (zp off : Byte)
  | bbr1 (zp off : Byte)
  | bbr2 (zp off : Byte)
  | bbr3 (zp off : Byte)
  | bbr4 (zp off : Byte)
  | bbr5 (zp off : Byte)
  | bbr6 (zp off : Byte)
  | bbr7 (zp off : Byte)
  | bbs0 (zp off : Byte)
  | bbs1 (zp off : Byte)
  | bbs2 (zp off : Byte)
  | bbs3 (zp off : Byte)
  | bbs4 (zp off : Byte)
  | bbs5 (zp off : Byte)
  | bbs6 (zp off : Byte)
  | bbs7 (zp off : Byte)
  | jmp (m : JmpMode)
  | jsr (target : Word)
  | rts
  | brk
  | rti
  | clc
  | sec
  | cli
  | sei
  | cld
  | sed
  | clv
  | nop
  | undefined (op : Byte)
deriving DecidableEq, Repr

end Sys2Proof
end

