-- ==== Sys2Proof/WellFormed.lean ====
section
/-! DEFINITION. Which terms of `Instr` are instructions. The mode types let only the table's rows through; the one check left is that the
undefined instruction carries an opcode the table leaves undefined. -/

namespace Sys2Proof

/-- The 46 opcodes undefined under every behaviour (30_encoding.md R142). -/
def undefinedOpcodes : List Byte :=
  [0x02, 0x03, 0x0B, 0x13, 0x1B, 0x22, 0x23, 0x2B, 0x33, 0x3B, 0x42, 0x43, 0x44, 0x4B, 0x53, 0x54, 0x5B, 0x5C, 0x62,
   0x63, 0x6B, 0x73, 0x7B, 0x82, 0x83, 0x8B, 0x93, 0x9B, 0xA3, 0xAB, 0xB3, 0xBB, 0xC2, 0xC3, 0xCB, 0xD3, 0xD4, 0xDB,
   0xDC, 0xE2, 0xE3, 0xEB, 0xF3, 0xF4, 0xFB, 0xFC]

/-- A well-formed instruction. -/
def Instr.wf : Instr → Bool
  | .undefined op => undefinedOpcodes.contains op
  | _ => true

end Sys2Proof
end

