-- ==== Sys2Proof/Decode.lean ====
section
/-! DEFINITION. The opcode map (30_encoding.md R143), instruction lengths (R121, R144), legality (R142), the decoder of a byte stream and
the encoder. Decoding does not look at BEHAVIOUR: a row that is undefined under NMOS decodes to its CMOS instruction, and the meaning of
that instruction is then the undefined instruction (R142, 44_flags_misc.md R408). -/

namespace Sys2Proof

/-- `address(lo, hi) = (hi << 8) | lo` (20_memory.md R72). -/
def joinBytes (lo hi : Byte) : Word := hi ++ lo

/-- The low byte of a 16-bit value. -/
def lowByte (w : Word) : Byte := w.setWidth 8

/-- The high byte of a 16-bit value. -/
def highByte (w : Word) : Byte := w.extractLsb' 8 8

/-! ### The opcode map -/

/-- A cell of the map: the instruction its operand bytes `b1`, `b2` make. -/
abbrev OpCell := Byte → Byte → Instr

/-- A cell with no operand byte (format F1). -/
def cell1 (i : Instr) : OpCell := fun _ _ => i

/-- A cell with one operand byte (format F2). -/
def cell2 (f : Byte → Instr) : OpCell := fun b1 _ => f b1

/-- A cell with a 16-bit operand, low byte first (format F3). -/
def cell3 (f : Word → Instr) : OpCell := fun b1 b2 => f (joinBytes b1 b2)

/-- Row 0x of the map. -/
def opcodeRow0 : List OpCell :=
  [cell1 .brk, cell2 fun o => .ora (.xin o), cell1 (.undefined 0x02), cell1 (.undefined 0x03),
   cell2 fun o => .tsb (.zpg o), cell2 fun o => .ora (.zpg o), cell2 fun o => .asl (.zpg o), cell2 .rmb0,
   cell1 .php, cell2 fun o => .ora (.imm o), cell1 (.asl .acc), cell1 (.undefined 0x0B),
   cell3 fun o => .tsb (.abs o), cell3 fun o => .ora (.abs o), cell3 fun o => .asl (.abs o), .bbr0]

/-- Row 1x of the map. -/
def opcodeRow1 : List OpCell :=
  [cell2 .bpl, cell2 fun o => .ora (.iny o), cell2 fun o => .ora (.zpi o), cell1 (.undefined 0x13),
   cell2 fun o => .trb (.zpg o), cell2 fun o => .ora (.zpx o), cell2 fun o => .asl (.zpx o), cell2 .rmb1,
   cell1 .clc, cell3 fun o => .ora (.aby o), cell1 (.inc .acc), cell1 (.undefined 0x1B),
   cell3 fun o => .trb (.abs o), cell3 fun o => .ora (.abx o), cell3 fun o => .asl (.abx o), .bbr1]

/-- Row 2x of the map. -/
def opcodeRow2 : List OpCell :=
  [cell3 .jsr, cell2 fun o => .and (.xin o), cell1 (.undefined 0x22), cell1 (.undefined 0x23),
   cell2 fun o => .bit (.zpg o), cell2 fun o => .and (.zpg o), cell2 fun o => .rol (.zpg o), cell2 .rmb2,
   cell1 .plp, cell2 fun o => .and (.imm o), cell1 (.rol .acc), cell1 (.undefined 0x2B),
   cell3 fun o => .bit (.abs o), cell3 fun o => .and (.abs o), cell3 fun o => .rol (.abs o), .bbr2]

/-- Row 3x of the map. -/
def opcodeRow3 : List OpCell :=
  [cell2 .bmi, cell2 fun o => .and (.iny o), cell2 fun o => .and (.zpi o), cell1 (.undefined 0x33),
   cell2 fun o => .bit (.zpx o), cell2 fun o => .and (.zpx o), cell2 fun o => .rol (.zpx o), cell2 .rmb3,
   cell1 .sec, cell3 fun o => .and (.aby o), cell1 (.dec .acc), cell1 (.undefined 0x3B),
   cell3 fun o => .bit (.abx o), cell3 fun o => .and (.abx o), cell3 fun o => .rol (.abx o), .bbr3]

/-- Row 4x of the map. -/
def opcodeRow4 : List OpCell :=
  [cell1 .rti, cell2 fun o => .eor (.xin o), cell1 (.undefined 0x42), cell1 (.undefined 0x43),
   cell1 (.undefined 0x44), cell2 fun o => .eor (.zpg o), cell2 fun o => .lsr (.zpg o), cell2 .rmb4,
   cell1 .pha, cell2 fun o => .eor (.imm o), cell1 (.lsr .acc), cell1 (.undefined 0x4B),
   cell3 fun o => .jmp (.abs o), cell3 fun o => .eor (.abs o), cell3 fun o => .lsr (.abs o), .bbr4]

/-- Row 5x of the map. -/
def opcodeRow5 : List OpCell :=
  [cell2 .bvc, cell2 fun o => .eor (.iny o), cell2 fun o => .eor (.zpi o), cell1 (.undefined 0x53),
   cell1 (.undefined 0x54), cell2 fun o => .eor (.zpx o), cell2 fun o => .lsr (.zpx o), cell2 .rmb5,
   cell1 .cli, cell3 fun o => .eor (.aby o), cell1 .phy, cell1 (.undefined 0x5B), cell1 (.undefined 0x5C),
   cell3 fun o => .eor (.abx o), cell3 fun o => .lsr (.abx o), .bbr5]

/-- Row 6x of the map. -/
def opcodeRow6 : List OpCell :=
  [cell1 .rts, cell2 fun o => .adc (.xin o), cell1 (.undefined 0x62), cell1 (.undefined 0x63),
   cell2 fun o => .stz (.zpg o), cell2 fun o => .adc (.zpg o), cell2 fun o => .ror (.zpg o), cell2 .rmb6,
   cell1 .pla, cell2 fun o => .adc (.imm o), cell1 (.ror .acc), cell1 (.undefined 0x6B),
   cell3 fun o => .jmp (.ind o), cell3 fun o => .adc (.abs o), cell3 fun o => .ror (.abs o), .bbr6]

/-- Row 7x of the map. -/
def opcodeRow7 : List OpCell :=
  [cell2 .bvs, cell2 fun o => .adc (.iny o), cell2 fun o => .adc (.zpi o), cell1 (.undefined 0x73),
   cell2 fun o => .stz (.zpx o), cell2 fun o => .adc (.zpx o), cell2 fun o => .ror (.zpx o), cell2 .rmb7,
   cell1 .sei, cell3 fun o => .adc (.aby o), cell1 .ply, cell1 (.undefined 0x7B),
   cell3 fun o => .jmp (.aix o), cell3 fun o => .adc (.abx o), cell3 fun o => .ror (.abx o), .bbr7]

/-- Row 8x of the map. -/
def opcodeRow8 : List OpCell :=
  [cell2 .bra, cell2 fun o => .sta (.xin o), cell1 (.undefined 0x82), cell1 (.undefined 0x83),
   cell2 fun o => .sty (.zpg o), cell2 fun o => .sta (.zpg o), cell2 fun o => .stx (.zpg o), cell2 .smb0,
   cell1 .dey, cell2 fun o => .bit (.imm o), cell1 .txa, cell1 (.undefined 0x8B),
   cell3 fun o => .sty (.abs o), cell3 fun o => .sta (.abs o), cell3 fun o => .stx (.abs o), .bbs0]

/-- Row 9x of the map. -/
def opcodeRow9 : List OpCell :=
  [cell2 .bcc, cell2 fun o => .sta (.iny o), cell2 fun o => .sta (.zpi o), cell1 (.undefined 0x93),
   cell2 fun o => .sty (.zpx o), cell2 fun o => .sta (.zpx o), cell2 fun o => .stx (.zpy o), cell2 .smb1,
   cell1 .tya, cell3 fun o => .sta (.aby o), cell1 .txs, cell1 (.undefined 0x9B),
   cell3 fun o => .stz (.abs o), cell3 fun o => .sta (.abx o), cell3 fun o => .stz (.abx o), .bbs1]

/-- Row Ax of the map. -/
def opcodeRowA : List OpCell :=
  [cell2 fun o => .ldy (.imm o), cell2 fun o => .lda (.xin o), cell2 fun o => .ldx (.imm o),
   cell1 (.undefined 0xA3), cell2 fun o => .ldy (.zpg o), cell2 fun o => .lda (.zpg o),
   cell2 fun o => .ldx (.zpg o), cell2 .smb2, cell1 .tay, cell2 fun o => .lda (.imm o), cell1 .tax,
   cell1 (.undefined 0xAB), cell3 fun o => .ldy (.abs o), cell3 fun o => .lda (.abs o),
   cell3 fun o => .ldx (.abs o), .bbs2]

/-- Row Bx of the map. -/
def opcodeRowB : List OpCell :=
  [cell2 .bcs, cell2 fun o => .lda (.iny o), cell2 fun o => .lda (.zpi o), cell1 (.undefined 0xB3),
   cell2 fun o => .ldy (.zpx o), cell2 fun o => .lda (.zpx o), cell2 fun o => .ldx (.zpy o), cell2 .smb3,
   cell1 .clv, cell3 fun o => .lda (.aby o), cell1 .tsx, cell1 (.undefined 0xBB),
   cell3 fun o => .ldy (.abx o), cell3 fun o => .lda (.abx o), cell3 fun o => .ldx (.aby o), .bbs3]

/-- Row Cx of the map. -/
def opcodeRowC : List OpCell :=
  [cell2 fun o => .cpy (.imm o), cell2 fun o => .cmp (.xin o), cell1 (.undefined 0xC2),
   cell1 (.undefined 0xC3), cell2 fun o => .cpy (.zpg o), cell2 fun o => .cmp (.zpg o),
   cell2 fun o => .dec (.zpg o), cell2 .smb4, cell1 .iny, cell2 fun o => .cmp (.imm o), cell1 .dex,
   cell1 (.undefined 0xCB), cell3 fun o => .cpy (.abs o), cell3 fun o => .cmp (.abs o),
   cell3 fun o => .dec (.abs o), .bbs4]

/-- Row Dx of the map. -/
def opcodeRowD : List OpCell :=
  [cell2 .bne, cell2 fun o => .cmp (.iny o), cell2 fun o => .cmp (.zpi o), cell1 (.undefined 0xD3),
   cell1 (.undefined 0xD4), cell2 fun o => .cmp (.zpx o), cell2 fun o => .dec (.zpx o), cell2 .smb5,
   cell1 .cld, cell3 fun o => .cmp (.aby o), cell1 .phx, cell1 (.undefined 0xDB), cell1 (.undefined 0xDC),
   cell3 fun o => .cmp (.abx o), cell3 fun o => .dec (.abx o), .bbs5]

/-- Row Ex of the map. -/
def opcodeRowE : List OpCell :=
  [cell2 fun o => .cpx (.imm o), cell2 fun o => .sbc (.xin o), cell1 (.undefined 0xE2),
   cell1 (.undefined 0xE3), cell2 fun o => .cpx (.zpg o), cell2 fun o => .sbc (.zpg o),
   cell2 fun o => .inc (.zpg o), cell2 .smb6, cell1 .inx, cell2 fun o => .sbc (.imm o), cell1 .nop,
   cell1 (.undefined 0xEB), cell3 fun o => .cpx (.abs o), cell3 fun o => .sbc (.abs o),
   cell3 fun o => .inc (.abs o), .bbs6]

/-- Row Fx of the map. -/
def opcodeRowF : List OpCell :=
  [cell2 .beq, cell2 fun o => .sbc (.iny o), cell2 fun o => .sbc (.zpi o), cell1 (.undefined 0xF3),
   cell1 (.undefined 0xF4), cell2 fun o => .sbc (.zpx o), cell2 fun o => .inc (.zpx o), cell2 .smb7,
   cell1 .sed, cell3 fun o => .sbc (.aby o), cell1 .plx, cell1 (.undefined 0xFB), cell1 (.undefined 0xFC),
   cell3 fun o => .sbc (.abx o), cell3 fun o => .inc (.abx o), .bbs7]

/-- The map: the row is the high nibble of the opcode, the column the low nibble. -/
def opcodeMap : List (List OpCell) :=
  [opcodeRow0, opcodeRow1, opcodeRow2, opcodeRow3, opcodeRow4, opcodeRow5, opcodeRow6, opcodeRow7, opcodeRow8,
   opcodeRow9, opcodeRowA, opcodeRowB, opcodeRowC, opcodeRowD, opcodeRowE, opcodeRowF]

/-- The instruction of an opcode byte and its operand bytes; an operand byte past the instruction's length is not looked at. -/
def decodeOp (op b1 b2 : Byte) : Instr :=
  ((opcodeMap.getD (op.toNat / 16) []).getD (op.toNat % 16) (cell1 (.undefined op))) b1 b2

/-! ### Lengths -/

/-- An instruction's length in bytes (30_encoding.md R120). -/
inductive InstrLen where
  | one
  | two
  | three
deriving DecidableEq, Repr

def InstrLen.toNat : InstrLen → Nat
  | .one => 1
  | .two => 2
  | .three => 3

/-- UNDEF_LEN (30_encoding.md R144). -/
def UndefLens.length (l : UndefLens) (op : Byte) : InstrLen :=
  if l.three.contains op then .three else if l.two.contains op then .two else .one

/-- 30_encoding.md R121. -/
def AluMode.length : AluMode → InstrLen
  | .imm _ | .zpg _ | .zpx _ | .xin _ | .iny _ | .zpi _ => .two
  | .abs _ | .abx _ | .aby _ => .three

/-- 30_encoding.md R121. -/
def StaMode.length : StaMode → InstrLen
  | .zpg _ | .zpx _ | .xin _ | .iny _ | .zpi _ => .two
  | .abs _ | .abx _ | .aby _ => .three

/-- 30_encoding.md R121. -/
def LdxMode.length : LdxMode → InstrLen
  | .imm _ | .zpg _ | .zpy _ => .two
  | .abs _ | .aby _ => .three

/-- 30_encoding.md R121. -/
def LdyMode.length : LdyMode → InstrLen
  | .imm _ | .zpg _ | .zpx _ => .two
  | .abs _ | .abx _ => .three

/-- 30_encoding.md R121. -/
def StxMode.length : StxMode → InstrLen
  | .zpg _ | .zpy _ => .two
  | .abs _ => .three

/-- 30_encoding.md R121. -/
def StyMode.length : StyMode → InstrLen
  | .zpg _ | .zpx _ => .two
  | .abs _ => .three

/-- 30_encoding.md R121. -/
def StzMode.length : StzMode → InstrLen
  | .zpg _ | .zpx _ => .two
  | .abs _ | .abx _ => .three

/-- 30_encoding.md R121. -/
def CpxMode.length : CpxMode → InstrLen
  | .imm _ | .zpg _ => .two
  | .abs _ => .three

/-- 30_encoding.md R121. -/
def BitMode.length : BitMode → InstrLen
  | .zpg _ | .imm _ | .zpx _ => .two
  | .abs _ | .abx _ => .three

/-- 30_encoding.md R121. -/
def ShiftMode.length : ShiftMode → InstrLen
  | .acc => .one
  | .zpg _ | .zpx _ => .two
  | .abs _ | .abx _ => .three

/-- 30_encoding.md R121. -/
def TsbMode.length : TsbMode → InstrLen
  | .zpg _ => .two
  | .abs _ => .three

/-- 30_encoding.md R121. -/
def JmpMode.length : JmpMode → InstrLen
  | .abs _ | .ind _ | .aix _ => .three

/-- LEN of an instruction's row: the length of its mode (R121), UNDEF_LEN for the undefined rows (R144). -/
def Instr.length (l : UndefLens) : Instr → InstrLen
  | .lda m => m.length
  | .ldx m => m.length
  | .ldy m => m.length
  | .sta m => m.length
  | .stx m => m.length
  | .sty m => m.length
  | .stz m => m.length
  | .adc m => m.length
  | .sbc m => m.length
  | .and m => m.length
  | .ora m => m.length
  | .eor m => m.length
  | .cmp m => m.length
  | .cpx m => m.length
  | .cpy m => m.length
  | .bit m => m.length
  | .asl m => m.length
  | .lsr m => m.length
  | .rol m => m.length
  | .ror m => m.length
  | .inc m => m.length
  | .dec m => m.length
  | .tsb m => m.length
  | .trb m => m.length
  | .jmp m => m.length
  | .tax | .tay | .txa | .tya | .tsx | .txs | .pha | .php | .pla | .plp | .phx | .phy | .plx | .ply | .inx | .iny
  | .dex | .dey | .rts | .brk | .rti | .clc | .sec | .cli | .sei | .cld | .sed | .clv | .nop => .one
  | .rmb0 _ | .rmb1 _ | .rmb2 _ | .rmb3 _ | .rmb4 _ | .rmb5 _ | .rmb6 _ | .rmb7 _ | .smb0 _ | .smb1 _ | .smb2 _
  | .smb3 _ | .smb4 _ | .smb5 _ | .smb6 _ | .smb7 _ | .bcc _ | .bcs _ | .beq _ | .bne _ | .bmi _ | .bpl _ | .bvc _
  | .bvs _ | .bra _ => .two
  | .bbr0 _ _ | .bbr1 _ _ | .bbr2 _ _ | .bbr3 _ _ | .bbr4 _ _ | .bbr5 _ _ | .bbr6 _ _ | .bbr7 _ _ | .bbs0 _ _
  | .bbs1 _ _ | .bbs2 _ _ | .bbs3 _ _ | .bbs4 _ _ | .bbs5 _ _ | .bbs6 _ _ | .bbs7 _ _ => .three
  | .jsr _ => .three
  | .undefined op => l.length op

/-- LEN(op): one table for every behaviour, read from the first byte alone (30_encoding.md R144, R146). -/
def opLength (l : UndefLens) (op : Byte) : InstrLen := (decodeOp op 0 0).length l

/-! ### Legality -/

/-- The modes marked `*` in 30_encoding.md R143. -/
def AluMode.cmosOnly : AluMode → Bool
  | .zpi _ => true
  | .imm _ | .zpg _ | .zpx _ | .abs _ | .abx _ | .aby _ | .xin _ | .iny _ => false

/-- The modes marked `*` in 30_encoding.md R143. -/
def StaMode.cmosOnly : StaMode → Bool
  | .zpi _ => true
  | .zpg _ | .zpx _ | .abs _ | .abx _ | .aby _ | .xin _ | .iny _ => false

/-- The modes marked `*` in 30_encoding.md R143. -/
def BitMode.cmosOnly : BitMode → Bool
  | .imm _ | .zpx _ | .abx _ => true
  | .zpg _ | .abs _ => false

/-- The modes marked `*` in 30_encoding.md R143. -/
def JmpMode.cmosOnly : JmpMode → Bool
  | .aix _ => true
  | .abs _ | .ind _ => false

/-- INC and DEC have the accumulator mode under CMOS only (30_encoding.md R143). -/
def ShiftMode.incCmosOnly : ShiftMode → Bool
  | .acc => true
  | .zpg _ | .zpx _ | .abs _ | .abx _ => false

/-- The rows defined only under `CMOS_*` (30_encoding.md R142). -/
def Instr.cmosOnly : Instr → Bool
  | .lda m => m.cmosOnly
  | .sta m => m.cmosOnly
  | .adc m => m.cmosOnly
  | .sbc m => m.cmosOnly
  | .and m => m.cmosOnly
  | .ora m => m.cmosOnly
  | .eor m => m.cmosOnly
  | .cmp m => m.cmosOnly
  | .bit m => m.cmosOnly
  | .inc m => m.incCmosOnly
  | .dec m => m.incCmosOnly
  | .jmp m => m.cmosOnly
  | .stz _ | .phx | .phy | .plx | .ply | .tsb _ | .trb _ | .rmb0 _ | .rmb1 _ | .rmb2 _ | .rmb3 _ | .rmb4 _ | .rmb5 _
  | .rmb6 _ | .rmb7 _ | .smb0 _ | .smb1 _ | .smb2 _ | .smb3 _ | .smb4 _ | .smb5 _ | .smb6 _ | .smb7 _ | .bra _
  | .bbr0 _ _ | .bbr1 _ _ | .bbr2 _ _ | .bbr3 _ _ | .bbr4 _ _ | .bbr5 _ _ | .bbr6 _ _ | .bbr7 _ _ | .bbs0 _ _
  | .bbs1 _ _ | .bbs2 _ _ | .bbs3 _ _ | .bbs4 _ _ | .bbs5 _ _ | .bbs6 _ _ | .bbs7 _ _ => true
  | .ldx _ | .ldy _ | .stx _ | .sty _ | .tax | .tay | .txa | .tya | .tsx | .txs | .pha | .php | .pla | .plp | .cpx _
  | .cpy _ | .inx | .iny | .dex | .dey | .asl _ | .lsr _ | .rol _ | .ror _ | .bcc _ | .bcs _ | .beq _ | .bne _
  | .bmi _ | .bpl _ | .bvc _ | .bvs _ | .jsr _ | .rts | .brk | .rti | .clc | .sec | .cli | .sei | .cld | .sed | .clv
  | .nop | .undefined _ => false

/-- The CMOS behaviours (00_scope.md R2); CMOS_65816 behaves as CMOS_6502. -/
def Behaviour.isCmos : Behaviour → Bool
  | .cmos6502 | .cmos65816 => true
  | .nmos6502 | .nmosWithRorBug | .nmosWithIndirectJmpBug | .nmosWithoutIndirectJmpBug => false

/-- DEFINED for an instruction's row (30_encoding.md R142). -/
def Instr.defined (b : Behaviour) : Instr → Bool
  | .undefined _ => false
  | i => !i.cmosOnly || b.isCmos

/-! ### The decoder -/

/-- Why a byte stream holds no instruction: every first byte decodes (30_encoding.md R146), so only missing bytes are rejected. -/
inductive DecodeError where
  | missingOpcode
  | missingOperand (op : Byte)
deriving DecidableEq, Repr

/-- The first instruction of a byte stream and the bytes after it. -/
def decode (l : UndefLens) : List Byte → Except DecodeError (Instr × List Byte)
  | [] => .error .missingOpcode
  | op :: rest =>
    match opLength l op, rest with
    | .one, rest => .ok (decodeOp op 0 0, rest)
    | .two, b1 :: rest => .ok (decodeOp op b1 0, rest)
    | .three, b1 :: b2 :: rest => .ok (decodeOp op b1 b2, rest)
    | .two, [] | .three, [] | .three, [_] => .error (.missingOperand op)

/-- The three bytes at the low end of `w`, the first byte in bits 7 to 0, with the bits from `nbits` up read as 0. -/
def tableBytes (nbits w : Nat) : Byte × Byte × Byte :=
  let v := w % 2 ^ nbits
  (BitVec.ofNat 8 v, BitVec.ofNat 8 (v / 2 ^ 8), BitVec.ofNat 8 (v / 2 ^ 16))

/-- The decoder on an instruction's bits numbered as opcode_table.json numbers them. The length parameter is immaterial: an undefined row
decodes to its opcode whatever its length. -/
def decodeTableWord (nbits w : Nat) : Option Instr :=
  let (b0, b1, b2) := tableBytes nbits w
  match decode ⟨[], []⟩ [b0, b1, b2] with
  | .ok (i, _) => some i
  | .error _ => none

/-! ### The encoder -/

/-- The opcode byte of an instruction, from the Encoding line of its rule (40 to 44). -/
def Instr.opcode : Instr → Byte
  | .lda (.imm _) => 0xA9
  | .lda (.zpg _) => 0xA5
  | .lda (.zpx _) => 0xB5
  | .lda (.abs _) => 0xAD
  | .lda (.abx _) => 0xBD
  | .lda (.aby _) => 0xB9
  | .lda (.xin _) => 0xA1
  | .lda (.iny _) => 0xB1
  | .lda (.zpi _) => 0xB2
  | .ldx (.imm _) => 0xA2
  | .ldx (.zpg _) => 0xA6
  | .ldx (.zpy _) => 0xB6
  | .ldx (.abs _) => 0xAE
  | .ldx (.aby _) => 0xBE
  | .ldy (.imm _) => 0xA0
  | .ldy (.zpg _) => 0xA4
  | .ldy (.zpx _) => 0xB4
  | .ldy (.abs _) => 0xAC
  | .ldy (.abx _) => 0xBC
  | .sta (.zpg _) => 0x85
  | .sta (.zpx _) => 0x95
  | .sta (.abs _) => 0x8D
  | .sta (.abx _) => 0x9D
  | .sta (.aby _) => 0x99
  | .sta (.xin _) => 0x81
  | .sta (.iny _) => 0x91
  | .sta (.zpi _) => 0x92
  | .stx (.zpg _) => 0x86
  | .stx (.zpy _) => 0x96
  | .stx (.abs _) => 0x8E
  | .sty (.zpg _) => 0x84
  | .sty (.zpx _) => 0x94
  | .sty (.abs _) => 0x8C
  | .stz (.zpg _) => 0x64
  | .stz (.zpx _) => 0x74
  | .stz (.abs _) => 0x9C
  | .stz (.abx _) => 0x9E
  | .tax => 0xAA
  | .tay => 0xA8
  | .txa => 0x8A
  | .tya => 0x98
  | .tsx => 0xBA
  | .txs => 0x9A
  | .pha => 0x48
  | .php => 0x08
  | .pla => 0x68
  | .plp => 0x28
  | .phx => 0xDA
  | .phy => 0x5A
  | .plx => 0xFA
  | .ply => 0x7A
  | .adc (.imm _) => 0x69
  | .adc (.zpg _) => 0x65
  | .adc (.zpx _) => 0x75
  | .adc (.abs _) => 0x6D
  | .adc (.abx _) => 0x7D
  | .adc (.aby _) => 0x79
  | .adc (.xin _) => 0x61
  | .adc (.iny _) => 0x71
  | .adc (.zpi _) => 0x72
  | .sbc (.imm _) => 0xE9
  | .sbc (.zpg _) => 0xE5
  | .sbc (.zpx _) => 0xF5
  | .sbc (.abs _) => 0xED
  | .sbc (.abx _) => 0xFD
  | .sbc (.aby _) => 0xF9
  | .sbc (.xin _) => 0xE1
  | .sbc (.iny _) => 0xF1
  | .sbc (.zpi _) => 0xF2
  | .and (.imm _) => 0x29
  | .and (.zpg _) => 0x25
  | .and (.zpx _) => 0x35
  | .and (.abs _) => 0x2D
  | .and (.abx _) => 0x3D
  | .and (.aby _) => 0x39
  | .and (.xin _) => 0x21
  | .and (.iny _) => 0x31
  | .and (.zpi _) => 0x32
  | .ora (.imm _) => 0x09
  | .ora (.zpg _) => 0x05
  | .ora (.zpx _) => 0x15
  | .ora (.abs _) => 0x0D
  | .ora (.abx _) => 0x1D
  | .ora (.aby _) => 0x19
  | .ora (.xin _) => 0x01
  | .ora (.iny _) => 0x11
  | .ora (.zpi _) => 0x12
  | .eor (.imm _) => 0x49
  | .eor (.zpg _) => 0x45
  | .eor (.zpx _) => 0x55
  | .eor (.abs _) => 0x4D
  | .eor (.abx _) => 0x5D
  | .eor (.aby _) => 0x59
  | .eor (.xin _) => 0x41
  | .eor (.iny _) => 0x51
  | .eor (.zpi _) => 0x52
  | .cmp (.imm _) => 0xC9
  | .cmp (.zpg _) => 0xC5
  | .cmp (.zpx _) => 0xD5
  | .cmp (.abs _) => 0xCD
  | .cmp (.abx _) => 0xDD
  | .cmp (.aby _) => 0xD9
  | .cmp (.xin _) => 0xC1
  | .cmp (.iny _) => 0xD1
  | .cmp (.zpi _) => 0xD2
  | .cpx (.imm _) => 0xE0
  | .cpx (.zpg _) => 0xE4
  | .cpx (.abs _) => 0xEC
  | .cpy (.imm _) => 0xC0
  | .cpy (.zpg _) => 0xC4
  | .cpy (.abs _) => 0xCC
  | .bit (.zpg _) => 0x24
  | .bit (.abs _) => 0x2C
  | .bit (.imm _) => 0x89
  | .bit (.zpx _) => 0x34
  | .bit (.abx _) => 0x3C
  | .inx => 0xE8
  | .iny => 0xC8
  | .dex => 0xCA
  | .dey => 0x88
  | .asl .acc => 0x0A
  | .asl (.zpg _) => 0x06
  | .asl (.zpx _) => 0x16
  | .asl (.abs _) => 0x0E
  | .asl (.abx _) => 0x1E
  | .lsr .acc => 0x4A
  | .lsr (.zpg _) => 0x46
  | .lsr (.zpx _) => 0x56
  | .lsr (.abs _) => 0x4E
  | .lsr (.abx _) => 0x5E
  | .rol .acc => 0x2A
  | .rol (.zpg _) => 0x26
  | .rol (.zpx _) => 0x36
  | .rol (.abs _) => 0x2E
  | .rol (.abx _) => 0x3E
  | .ror .acc => 0x6A
  | .ror (.zpg _) => 0x66
  | .ror (.zpx _) => 0x76
  | .ror (.abs _) => 0x6E
  | .ror (.abx _) => 0x7E
  | .inc .acc => 0x1A
  | .inc (.zpg _) => 0xE6
  | .inc (.zpx _) => 0xF6
  | .inc (.abs _) => 0xEE
  | .inc (.abx _) => 0xFE
  | .dec .acc => 0x3A
  | .dec (.zpg _) => 0xC6
  | .dec (.zpx _) => 0xD6
  | .dec (.abs _) => 0xCE
  | .dec (.abx _) => 0xDE
  | .tsb (.zpg _) => 0x04
  | .tsb (.abs _) => 0x0C
  | .trb (.zpg _) => 0x14
  | .trb (.abs _) => 0x1C
  | .rmb0 _ => 0x07
  | .rmb1 _ => 0x17
  | .rmb2 _ => 0x27
  | .rmb3 _ => 0x37
  | .rmb4 _ => 0x47
  | .rmb5 _ => 0x57
  | .rmb6 _ => 0x67
  | .rmb7 _ => 0x77
  | .smb0 _ => 0x87
  | .smb1 _ => 0x97
  | .smb2 _ => 0xA7
  | .smb3 _ => 0xB7
  | .smb4 _ => 0xC7
  | .smb5 _ => 0xD7
  | .smb6 _ => 0xE7
  | .smb7 _ => 0xF7
  | .bcc _ => 0x90
  | .bcs _ => 0xB0
  | .beq _ => 0xF0
  | .bne _ => 0xD0
  | .bmi _ => 0x30
  | .bpl _ => 0x10
  | .bvc _ => 0x50
  | .bvs _ => 0x70
  | .bra _ => 0x80
  | .bbr0 _ _ => 0x0F
  | .bbr1 _ _ => 0x1F
  | .bbr2 _ _ => 0x2F
  | .bbr3 _ _ => 0x3F
  | .bbr4 _ _ => 0x4F
  | .bbr5 _ _ => 0x5F
  | .bbr6 _ _ => 0x6F
  | .bbr7 _ _ => 0x7F
  | .bbs0 _ _ => 0x8F
  | .bbs1 _ _ => 0x9F
  | .bbs2 _ _ => 0xAF
  | .bbs3 _ _ => 0xBF
  | .bbs4 _ _ => 0xCF
  | .bbs5 _ _ => 0xDF
  | .bbs6 _ _ => 0xEF
  | .bbs7 _ _ => 0xFF
  | .jmp (.abs _) => 0x4C
  | .jmp (.ind _) => 0x6C
  | .jmp (.aix _) => 0x7C
  | .jsr _ => 0x20
  | .rts => 0x60
  | .brk => 0x00
  | .rti => 0x40
  | .clc => 0x18
  | .sec => 0x38
  | .cli => 0x58
  | .sei => 0x78
  | .cld => 0xD8
  | .sed => 0xF8
  | .clv => 0xB8
  | .nop => 0xEA
  | .undefined op => op

/-- The operand bytes of a mode, low byte first (30_encoding.md R120). -/
def AluMode.operandBytes : AluMode → List Byte
  | .imm b1 | .zpg b1 | .zpx b1 | .xin b1 | .iny b1 | .zpi b1 => [b1]
  | .abs w | .abx w | .aby w => [lowByte w, highByte w]

/-- The operand bytes of a mode, low byte first (30_encoding.md R120). -/
def StaMode.operandBytes : StaMode → List Byte
  | .zpg b1 | .zpx b1 | .xin b1 | .iny b1 | .zpi b1 => [b1]
  | .abs w | .abx w | .aby w => [lowByte w, highByte w]

/-- The operand bytes of a mode, low byte first (30_encoding.md R120). -/
def LdxMode.operandBytes : LdxMode → List Byte
  | .imm b1 | .zpg b1 | .zpy b1 => [b1]
  | .abs w | .aby w => [lowByte w, highByte w]

/-- The operand bytes of a mode, low byte first (30_encoding.md R120). -/
def LdyMode.operandBytes : LdyMode → List Byte
  | .imm b1 | .zpg b1 | .zpx b1 => [b1]
  | .abs w | .abx w => [lowByte w, highByte w]

/-- The operand bytes of a mode, low byte first (30_encoding.md R120). -/
def StxMode.operandBytes : StxMode → List Byte
  | .zpg b1 | .zpy b1 => [b1]
  | .abs w => [lowByte w, highByte w]

/-- The operand bytes of a mode, low byte first (30_encoding.md R120). -/
def StyMode.operandBytes : StyMode → List Byte
  | .zpg b1 | .zpx b1 => [b1]
  | .abs w => [lowByte w, highByte w]

/-- The operand bytes of a mode, low byte first (30_encoding.md R120). -/
def StzMode.operandBytes : StzMode → List Byte
  | .zpg b1 | .zpx b1 => [b1]
  | .abs w | .abx w => [lowByte w, highByte w]

/-- The operand bytes of a mode, low byte first (30_encoding.md R120). -/
def CpxMode.operandBytes : CpxMode → List Byte
  | .imm b1 | .zpg b1 => [b1]
  | .abs w => [lowByte w, highByte w]

/-- The operand bytes of a mode, low byte first (30_encoding.md R120). -/
def BitMode.operandBytes : BitMode → List Byte
  | .zpg b1 | .imm b1 | .zpx b1 => [b1]
  | .abs w | .abx w => [lowByte w, highByte w]

/-- The operand bytes of a mode, low byte first (30_encoding.md R120). -/
def ShiftMode.operandBytes : ShiftMode → List Byte
  | .acc => []
  | .zpg b1 | .zpx b1 => [b1]
  | .abs w | .abx w => [lowByte w, highByte w]

/-- The operand bytes of a mode, low byte first (30_encoding.md R120). -/
def TsbMode.operandBytes : TsbMode → List Byte
  | .zpg b1 => [b1]
  | .abs w => [lowByte w, highByte w]

/-- The operand bytes of a mode, low byte first (30_encoding.md R120). -/
def JmpMode.operandBytes : JmpMode → List Byte
  | .abs w | .ind w | .aix w => [lowByte w, highByte w]

/-- The operand bytes of an instruction. Those of the undefined instruction are ignored (30_encoding.md R140); the encoder gives zeros. -/
def Instr.operandBytes (l : UndefLens) : Instr → List Byte
  | .lda m => m.operandBytes
  | .ldx m => m.operandBytes
  | .ldy m => m.operandBytes
  | .sta m => m.operandBytes
  | .stx m => m.operandBytes
  | .sty m => m.operandBytes
  | .stz m => m.operandBytes
  | .adc m => m.operandBytes
  | .sbc m => m.operandBytes
  | .and m => m.operandBytes
  | .ora m => m.operandBytes
  | .eor m => m.operandBytes
  | .cmp m => m.operandBytes
  | .cpx m => m.operandBytes
  | .cpy m => m.operandBytes
  | .bit m => m.operandBytes
  | .asl m => m.operandBytes
  | .lsr m => m.operandBytes
  | .rol m => m.operandBytes
  | .ror m => m.operandBytes
  | .inc m => m.operandBytes
  | .dec m => m.operandBytes
  | .tsb m => m.operandBytes
  | .trb m => m.operandBytes
  | .jmp m => m.operandBytes
  | .tax | .tay | .txa | .tya | .tsx | .txs | .pha | .php | .pla | .plp | .phx | .phy | .plx | .ply | .inx | .iny
  | .dex | .dey | .rts | .brk | .rti | .clc | .sec | .cli | .sei | .cld | .sed | .clv | .nop => []
  | .rmb0 b1 | .rmb1 b1 | .rmb2 b1 | .rmb3 b1 | .rmb4 b1 | .rmb5 b1 | .rmb6 b1 | .rmb7 b1 | .smb0 b1 | .smb1 b1
  | .smb2 b1 | .smb3 b1 | .smb4 b1 | .smb5 b1 | .smb6 b1 | .smb7 b1 => [b1]
  | .bcc b1 | .bcs b1 | .beq b1 | .bne b1 | .bmi b1 | .bpl b1 | .bvc b1 | .bvs b1 | .bra b1 => [b1]
  | .bbr0 b1 b2 | .bbr1 b1 b2 | .bbr2 b1 b2 | .bbr3 b1 b2 | .bbr4 b1 b2 | .bbr5 b1 b2 | .bbr6 b1 b2 | .bbr7 b1 b2
  | .bbs0 b1 b2 | .bbs1 b1 b2 | .bbs2 b1 b2 | .bbs3 b1 b2 | .bbs4 b1 b2 | .bbs5 b1 b2 | .bbs6 b1 b2 | .bbs7 b1 b2 => [b1, b2]
  | .jsr w => [lowByte w, highByte w]
  | .undefined op => List.replicate ((l.length op).toNat - 1) 0

/-- The bytes of an instruction. -/
def encode (l : UndefLens) (i : Instr) : List Byte := i.opcode :: i.operandBytes l

end Sys2Proof
end

