-- ==== Sys2Proof/Machine/State.lean ====
section
/-! DEFINITION. The machine's state: the CPU record (10_state.md R30), the bus and its devices (20_memory.md R80, 60_exceptions.md R531), the
parameters of 00_scope.md R8 as data that no step changes, and the counters the free values are applied to. -/

namespace Sys2Proof.Machine

/-- The seven status flags (10_state.md R38). -/
structure Flags where
  c : Bool
  z : Bool
  i : Bool
  d : Bool
  b : Bool
  v : Bool
  n : Bool
deriving DecidableEq, Repr

/-- The memory of all Memory devices as (bus address, byte) pairs. A device's offset `off` is the bus address `start + off` (20_memory.md
R82), and no two devices share an address (R81). -/
abbrev Memory := List Host.Cell

/-- What a memory byte that is not listed reads as: the spec's convention fill (20_memory.md R86). DESIGN CHOICE, log 9. -/
def unlistedByte : Byte := 0x00

/-- An ACIA (60_exceptions.md R531). The head of a FIFO is its oldest byte. `polls` is the model's own (log 6): how many status
computations have been made. -/
structure Acia where
  layout : AciaLayout
  rxCap : Nat
  txCap : Nat
  rx : List Byte
  tx : List Byte
  command : Byte
  control : Byte
  rxIrqEn : Bool
  txIrqEn : Bool
  overrun : Bool
  irq : Bool
  polls : Nat
deriving DecidableEq, Repr

/-- The device kinds in scope (20_memory.md R78). -/
inductive DeviceKind where
  | memory (readOnly : Bool)
  | acia (k : Acia)
deriving DecidableEq, Repr

/-- A device on the bus: its name and inclusive range (20_memory.md R76, R77). -/
structure Device where
  name : String
  start : Nat
  stop : Nat
  kind : DeviceKind
deriving DecidableEq, Repr

/-- The kinds of runtime fault (60_exceptions.md R500). -/
inductive FaultKind where
  | unmapped
  | readOnly
  | noRegister
deriving DecidableEq, Repr

/-- Whether the machine can step: not before its first reset (93 U8), and not once FAULTED (60_exceptions.md R501). -/
inductive Phase where
  | notReset
  | running
  | faulted (kind : FaultKind) (addr : Word)
deriving DecidableEq, Repr

/-- Why a step stops. -/
inductive Fault where
  /-- `FAULT(kind, addr)` (60_exceptions.md R500, R501), raised by a bus access of `read8` or `write8`. Safe: the spec ends the run there. -/
  | bus (kind : FaultKind) (addr : Word)
  /-- A step before the first `reset()` has no move (93 U8), raised by `step`. Safe. -/
  | stuckNotReset
  /-- A step of a FAULTED machine has no move (60_exceptions.md R501, 93 U7), raised by `step`. Safe. -/
  | stuckFaulted (kind : FaultKind) (addr : Word)
deriving DecidableEq, Repr

/-- Why a step has no meaning. -/
inductive Refusal where
  /-- An instruction with no meaning in the model, named by its mnemonic. Safe. Every instruction has a meaning, so nothing raises it. -/
  | notModelled (mnemonic : String)
deriving DecidableEq, Repr

structure State where
  a : Byte
  x : Byte
  y : Byte
  sp : Byte
  pc : Word
  ir : Byte
  instAddr : Word
  flags : Flags
  opTrap : Bool
  irqPending : Bool
  nmiPending : Bool
  phase : Phase
  busStart : Nat
  busEnd : Nat
  devices : List Device
  mem : Memory
  behaviour : Behaviour
  undefLens : UndefLens
  draws : Nat
deriving DecidableEq, Repr

/-- The default platform: one writable Memory device over the whole address space, the set-up of 95_test_vectors.md. DESIGN CHOICE, log 1. -/
def defaultDevices : List Device :=
  [{ name := "ram", start := 0x0000, stop := 0xFFFF, kind := .memory false }]

/-- The machine right after reset (70_reset_and_hazards.md R600) on the default platform, whose memory is all 0x00, so that the reset vector
holds 0x0000. The spec gives SP, PC, C, I, D, B, V, opTrap and the latches. It gives no value for A, X, Y, IR, instAddr, Z and N: 0 and
false are DESIGN CHOICE, log 3. The platform, BEHAVIOUR, UNDEF_LEN and `draws` are DESIGN CHOICE, logs 1, 2, 4 and 5. -/
def State.reset : State where
  a := 0x00
  x := 0x00
  y := 0x00
  sp := 0xFF
  pc := 0x0000
  ir := 0x00
  instAddr := 0x0000
  flags := { c := false, z := false, i := false, d := false, b := false, v := false, n := false }
  opTrap := false
  irqPending := false
  nmiPending := false
  phase := .running
  busStart := 0x0000
  busEnd := 0xFFFF
  devices := defaultDevices
  mem := []
  behaviour := .cmos6502
  undefLens := { two := [], three := [] }
  draws := 0

end Sys2Proof.Machine
end

