-- ==== Sys2Proof/Machine/Acia.lean ====
section
/-! DEFINITION. The ACIA (60_exceptions.md, section 4): its registers, its status byte, its reads and writes on the two paths, and what the
host does at its serial side. -/

namespace Sys2Proof.Machine

/-! ### Registers -/

/-- The registers an access can reach. On an A6850 `status` on a read and `control6850` on a write share offset 0 (R533). -/
inductive AciaReg where
  | data
  | status
  | command
  | control6551
  | control6850
deriving DecidableEq, Repr

/-- The register read at an offset; none where there is no register (R530, R532, R533). -/
def aciaReadReg : AciaLayout → Nat → Option AciaReg
  | .a6551, 0 => some .data
  | .a6551, 1 => some .status
  | .a6551, 2 => some .command
  | .a6551, 3 => some .control6551
  | .a6850, 0 => some .status
  | .a6850, 1 => some .data
  | _, _ => none

/-- The register written at an offset; none where there is no register (R530, R532, R533). -/
def aciaWriteReg : AciaLayout → Nat → Option AciaReg
  | .a6551, 0 => some .data
  | .a6551, 1 => some .status
  | .a6551, 2 => some .command
  | .a6551, 3 => some .control6551
  | .a6850, 0 => some .control6850
  | .a6850, 1 => some .data
  | _, _ => none

/-- The power-on state (R531, R545). -/
def Acia.powerOn (layout : AciaLayout) (rxCap txCap : Nat) : Acia where
  layout := layout
  rxCap := rxCap
  txCap := txCap
  rx := []
  tx := []
  command := 0x00
  control := 0x00
  rxIrqEn := false
  txIrqEn := false
  overrun := false
  irq := false
  polls := 0

/-! ### Readiness (R547) -/

/-- How many computations, counting from the `n`-th, still find the side not ready, when `gap k` is drawn at computation `k` (log 6). -/
def waitAt (gap : Nat → Nat) : Nat → Nat
  | 0 => gap 0
  | n + 1 => if waitAt gap n = 0 then gap (n + 1) else waitAt gap n - 1

/-- The readiness the `n`-th status computation draws: weakly fair by construction. -/
def readyAt (gap : Nat → Nat) (n : Nat) : Bool := waitAt gap n == 0

/-- An A6551 whose baud selector `control[3:0]` is 0 is always ready (R547). -/
def Acia.alwaysReady (k : Acia) : Bool := k.layout == .a6551 && k.control.setWidth 4 == 0

/-- `rxReady` of the next status computation of the ACIA at a base address. -/
def Acia.rxReady (base : Nat) (k : Acia) : Bool := k.alwaysReady || readyAt (Config.rxGap base) k.polls

/-- `txReady` of the next status computation of the ACIA at a base address. -/
def Acia.txReady (base : Nat) (k : Acia) : Bool := k.alwaysReady || readyAt (Config.txGap base) k.polls

/-! ### The status byte -/

/-- RDRF (R534, R535). -/
def Acia.rdrf (base : Nat) (k : Acia) : Bool := decide (0 < k.rx.length) && k.rxReady base

/-- TDRE (R534, R535). -/
def Acia.tdre (base : Nat) (k : Acia) : Bool := decide (k.tx.length < k.txCap) && k.txReady base

/-- A byte from its bits, bit 7 first. -/
def byteOfBits (b7 b6 b5 b4 b3 b2 b1 b0 : Bool) : Byte :=
  BitVec.ofBool b7 ++ BitVec.ofBool b6 ++ BitVec.ofBool b5 ++ BitVec.ofBool b4 ++ BitVec.ofBool b3 ++ BitVec.ofBool b2 ++ BitVec.ofBool b1 ++ BitVec.ofBool b0

/-- `STATUS()` (R534 on an A6551, R535 on an A6850). -/
def Acia.status (base : Nat) (k : Acia) : Byte :=
  match k.layout with
  | .a6551 => byteOfBits k.irq false false (k.tdre base) (k.rdrf base) k.overrun false false
  | .a6850 => byteOfBits k.irq false k.overrun false false false (k.tdre base) (k.rdrf base)

/-! ### Reads -/

/-- What a read answers: the byte, the ACIA after it, and the number of bytes drawn so far. -/
structure AciaRead where
  val : Byte
  acia : Acia
  draws : Nat
deriving DecidableEq, Repr

/-- A CPU-path data read (R540): it dequeues and clears `overrun`; of an empty FIFO it is a drawn byte and no change. -/
def Acia.readData (draws : Nat) (k : Acia) : AciaRead :=
  match k.rx with
  | [] => { val := Config.drawByte draws, acia := k, draws := draws + 1 }
  | v :: rx => { val := v, acia := { k with rx := rx, overrun := false }, draws := draws }

/-- A CPU-path status read (R541): the status byte, and then the interrupt flag is cleared. -/
def Acia.readStatus (base draws : Nat) (k : Acia) : AciaRead :=
  { val := k.status base, acia := { k with irq := false, polls := k.polls + 1 }, draws := draws }

/-- A CPU-path read of a register (R532, R533). -/
def Acia.cpuRead (base draws : Nat) (k : Acia) : AciaReg → AciaRead
  | .data => k.readData draws
  | .status => k.readStatus base draws
  | .command => { val := k.command, acia := k, draws := draws }
  | .control6551 | .control6850 => { val := k.control, acia := k, draws := draws }

/-- A window read of a register (R542): no side effect. Only the counters of the free values move on. -/
def Acia.windowRead (base draws : Nat) (k : Acia) : AciaReg → AciaRead
  | .data =>
    match k.rx with
    | [] => { val := Config.drawByte draws, acia := k, draws := draws + 1 }
    | v :: _ => { val := v, acia := k, draws := draws }
  | .status => { val := k.status base, acia := { k with polls := k.polls + 1 }, draws := draws }
  | .command => { val := k.command, acia := k, draws := draws }
  | .control6551 | .control6850 => { val := k.control, acia := k, draws := draws }

/-! ### Writes -/

/-- What a write or a host action at the serial side leaves: the ACIA, and whether it called `assertIrq()` (R549). -/
structure AciaEvent where
  acia : Acia
  assertIrq : Bool
deriving DecidableEq, Repr

/-- A bounded FIFO that discards its oldest byte when full (R539, R546, D29). -/
def enqueue (cap : Nat) (q : List Byte) (v : Byte) : List Byte :=
  (if q.length = cap then q.drop 1 else q) ++ [v]

/-- `raiseIfEnabled()` (R549). -/
def Acia.raiseIfEnabled (k : Acia) : AciaEvent :=
  if k.rxIrqEn && !k.rx.isEmpty || k.txIrqEn && k.tx.isEmpty then
    { acia := { k with irq := true }, assertIrq := true }
  else { acia := k, assertIrq := false }

/-- `programmedReset()` (R544): command and control keep their bytes. -/
def Acia.programmedReset (k : Acia) : Acia :=
  { k with rx := [], tx := [], overrun := false, irq := false, rxIrqEn := false, txIrqEn := false }

/-- A data write (R539). -/
def Acia.writeData (v : Byte) (k : Acia) : Acia := { k with tx := enqueue k.txCap k.tx v }

/-- An A6551 command write (R536). -/
def Acia.writeCommand (v : Byte) (k : Acia) : AciaEvent :=
  Acia.raiseIfEnabled
    { k with command := v, rxIrqEn := !v.getLsbD 1, txIrqEn := v.extractLsb' 2 2 == 0b01#2 }

/-- An A6850 control write (R538): bits 1:0 = 11 is the master reset. -/
def Acia.writeControl6850 (v : Byte) (k : Acia) : AciaEvent :=
  if v.extractLsb' 0 2 == 0b11#2 then
    { acia := Acia.programmedReset { k with control := v }, assertIrq := false }
  else
    Acia.raiseIfEnabled
      { k with control := v, rxIrqEn := v.getLsbD 7, txIrqEn := v.extractLsb' 5 2 == 0b01#2 }

/-- A write of a register (R532, R533). A write of the A6551 status register is the programmed reset (R544). -/
def Acia.write (v : Byte) (k : Acia) : AciaReg → AciaEvent
  | .data => { acia := k.writeData v, assertIrq := false }
  | .status => { acia := k.programmedReset, assertIrq := false }
  | .command => k.writeCommand v
  | .control6551 => { acia := { k with control := v }, assertIrq := false }
  | .control6850 => k.writeControl6850 v

/-! ### The serial side -/

/-- `rxWrite(b)` (R546): a byte arrives. -/
def Acia.rxWrite (v : Byte) (k : Acia) : AciaEvent :=
  { acia :=
      { k with
        rx := enqueue k.rxCap k.rx v
        overrun := k.overrun || !k.rx.isEmpty
        irq := k.irq || k.rxIrqEn }
    assertIrq := k.rxIrqEn }

/-- `txRead()` (R548): the byte taken, or none where the transmit FIFO is empty (`FifoUnderrun`, R504). -/
def Acia.txRead (k : Acia) : Option (Byte × AciaEvent) :=
  match k.tx with
  | [] => none
  | v :: tx =>
    let raise := tx.isEmpty && k.txIrqEn
    some (v, { acia := { k with tx := tx, irq := k.irq || raise }, assertIrq := raise })

end Sys2Proof.Machine
end

