-- ==== Sys2Proof/Machine/Memory.lean ====
section
/-! DEFINITION. Reading and writing one byte of memory, in the canonical form: addresses strictly rising, no entry equal to what an unlisted
address reads as (20_memory.md R86, R92; log 9). -/

namespace Sys2Proof.Machine

/-- The byte at a bus address. -/
def Memory.read : Memory → Nat → Byte
  | [], _ => unlistedByte
  | (b, v) :: m, a => if a = b then v else Memory.read m a

/-- An entry, unless it says what an unlisted address reads as anyway. -/
def Memory.consCell (a : Nat) (v : Byte) (m : Memory) : Memory :=
  if v = unlistedByte then m else (a, v) :: m

/-- `mem[a] <- v`. -/
def Memory.write : Memory → Nat → Byte → Memory
  | [], a, v => Memory.consCell a v []
  | (b, w) :: m, a, v =>
    if a < b then Memory.consCell a v ((b, w) :: m)
    else if a = b then Memory.consCell a v m
    else (b, w) :: Memory.write m a v

/-- The canonical form of memory. -/
def Memory.wf : Memory → Bool
  | [] => true
  | [(a, v)] => decide (a < 0x10000) && v != unlistedByte
  | (a, v) :: (b, w) :: m => decide (a < b) && v != unlistedByte && Memory.wf ((b, w) :: m)

end Sys2Proof.Machine
end

