-- ==== Sys2Proof/Machine/Bus.lean ====
section
/-! DEFINITION. Routing (20_memory.md, section 3): the device that owns an address, and the one read and the one write every access of the
CPU goes through. -/

namespace Sys2Proof.Machine

/-- A value an access or a computation yields, and the state after it. -/
structure Got (α : Type) where
  val : α
  st : State
deriving DecidableEq, Repr

/-- `contains(range, a)` (20_memory.md R76). -/
def Device.contains (d : Device) (a : Word) : Bool := decide (d.start ≤ a.toNat) && decide (a.toNat ≤ d.stop)

/-- The device-local offset of a bus address (20_memory.md R82). -/
def Device.offset (d : Device) (a : Word) : Nat := a.toNat - d.start

/-- The device that owns an address (20_memory.md R82); at most one does (R81). -/
def owner (ds : List Device) (a : Word) : Option Device := ds.find? (·.contains a)

/-- The devices after the ACIA that owns an address has become `k`. -/
def setAcia : List Device → Word → Acia → List Device
  | [], _, _ => []
  | d :: ds, a, k => if d.contains a then { d with kind := .acia k } :: ds else d :: setAcia ds a k

/-- The byte memory holds at an address, whatever device owns it. -/
def State.memByte (s : State) (a : Word) : Byte := s.mem.read a.toNat

/-- `read8(a)`: a CPU-path bus read (00_scope.md R12, 20_memory.md R82, R86; 60_exceptions.md R530). -/
def read8 (s : State) (a : Word) : Except Fault (Got Byte) :=
  match owner s.devices a with
  | none => .error (.bus .unmapped a)
  | some d =>
    match d.kind with
    | .memory _ => .ok { val := s.memByte a, st := s }
    | .acia k =>
      match aciaReadReg k.layout (d.offset a) with
      | none => .error (.bus .noRegister a)
      | some r =>
        let o := k.cpuRead d.start s.draws r
        .ok { val := o.val, st := { s with devices := setAcia s.devices a o.acia, draws := o.draws } }

/-- `write8(a, v)`: a bus write (00_scope.md R12, 20_memory.md R83, R86, R87; 60_exceptions.md R530, R549). -/
def write8 (s : State) (a : Word) (v : Byte) : Except Fault State :=
  match owner s.devices a with
  | none => .error (.bus .unmapped a)
  | some d =>
    match d.kind with
    | .memory true => .error (.bus .readOnly a)
    | .memory false => .ok { s with mem := s.mem.write a.toNat v }
    | .acia k =>
      match aciaWriteReg k.layout (d.offset a) with
      | none => .error (.bus .noRegister a)
      | some r =>
        let o := k.write v r
        .ok { s with devices := setAcia s.devices a o.acia, irqPending := s.irqPending || o.assertIrq }

/-- `read(addr)` of the host: a window read (20_memory.md R97, 60_exceptions.md R542). -/
def windowRead8 (s : State) (a : Word) : Except Fault (Got Byte) :=
  match owner s.devices a with
  | none => .error (.bus .unmapped a)
  | some d =>
    match d.kind with
    | .memory _ => .ok { val := s.memByte a, st := s }
    | .acia k =>
      match aciaReadReg k.layout (d.offset a) with
      | none => .error (.bus .noRegister a)
      | some r =>
        let o := k.windowRead d.start s.draws r
        .ok { val := o.val, st := { s with devices := setAcia s.devices a o.acia, draws := o.draws } }

/-- Whether a read of an address completes. -/
def State.readable (s : State) (a : Word) : Bool :=
  match owner s.devices a with
  | none => false
  | some d =>
    match d.kind with
    | .memory _ => true
    | .acia k => (aciaReadReg k.layout (d.offset a)).isSome

/-- Whether a write of an address completes. -/
def State.writable (s : State) (a : Word) : Bool :=
  match owner s.devices a with
  | none => false
  | some d =>
    match d.kind with
    | .memory readOnly => !readOnly
    | .acia k => (aciaWriteReg k.layout (d.offset a)).isSome

/-- Whether a Memory device owns an address. -/
def State.isMemory (s : State) (a : Word) : Bool :=
  match owner s.devices a with
  | some { kind := .memory _, .. } => true
  | _ => false

/-- `read16(a)` (20_memory.md R73): low byte first, the high byte's address mod 0x10000. -/
def read16 (s : State) (a : Word) : Except Fault (Got Word) := do
  let lo ← read8 s a
  let hi ← read8 lo.st (a + 1)
  return { val := joinBytes lo.val hi.val, st := hi.st }

/-- `read16zp(z)` (20_memory.md R73, D41): the high byte's address wraps in page zero. -/
def read16zp (s : State) (z : Byte) : Except Fault (Got Word) := do
  let lo ← read8 s (z.setWidth 16)
  let hi ← read8 lo.st ((z + 1).setWidth 16)
  return { val := joinBytes lo.val hi.val, st := hi.st }

end Sys2Proof.Machine
end

