-- ==== Sys2Proof/Machine/Flags.lean ====
section
/-! DEFINITION. The processor status byte and every computation that sets flags (10_state.md R39, R40, R45; 41_arithmetic_logic.md;
42_shift_rmw_bit.md). -/

namespace Sys2Proof.Machine

/-- A computed byte and the flags with it. -/
structure AluOut where
  val : Byte
  flags : Flags
deriving DecidableEq, Repr

/-! ### The status byte -/

/-- `packP()` (10_state.md R39): bit 5 is always 1. -/
def Flags.pack (f : Flags) : Byte := byteOfBits f.n f.v true f.b f.d f.i f.z f.c

/-- `unpackP(b)` (10_state.md R40): bit 5 is ignored. -/
def unpackP (p : Byte) : Flags where
  c := p.getLsbD 0
  z := p.getLsbD 1
  i := p.getLsbD 2
  d := p.getLsbD 3
  b := p.getLsbD 4
  v := p.getLsbD 6
  n := p.getLsbD 7

/-- `setNZ(v)` (10_state.md R45). -/
def Flags.setNZ (f : Flags) (v : Byte) : Flags := { f with z := v == 0, n := v.getLsbD 7 }

/-! ### Addition and subtraction -/

/-- `adcBinary(a, m)` (41_arithmetic_logic.md R251). -/
def adcBinary (f : Flags) (a m : Byte) : AluOut :=
  let sum := a.toNat + m.toNat + f.c.toNat
  let c6 := (a.toNat % 0x80 + m.toNat % 0x80 + f.c.toNat) / 0x80
  let r := BitVec.ofNat 8 sum
  { val := r, flags := Flags.setNZ { f with c := sum / 0x100 == 1, v := (sum / 0x100 ^^^ c6) == 1 } r }

/-- `adcDecimal(a, m)` (41_arithmetic_logic.md R252). -/
def adcDecimal (f : Flags) (a m : Byte) : AluOut :=
  let l0 := a.toNat % 0x10 + m.toNat % 0x10 + f.c.toNat
  let l := if l0 > 9 then l0 + 6 else l0
  let h0 := a.toNat / 0x10 + m.toNat / 0x10 + (if l > 15 then 1 else 0)
  let h := if h0 > 9 then h0 + 6 else h0
  let r := BitVec.ofNat 8 (l % 0x10 + h * 0x10)
  { val := r, flags := { f with c := decide (h > 15), z := r == 0, n := false, v := false } }

/-- `sbcDecimal(a, m)` (41_arithmetic_logic.md R254), over the integers. -/
def sbcDecimal (f : Flags) (a m : Byte) : AluOut :=
  let l0 : Int := (a.toNat % 0x10 : Nat) - (m.toNat % 0x10 : Nat) - (1 - (f.c.toNat : Int))
  let bl := decide (l0 < 0)
  let l := if bl then l0 - 6 else l0
  let h0 : Int := (a.toNat / 0x10 : Nat) - (m.toNat / 0x10 : Nat) - (if bl then 1 else 0)
  let bh := decide (h0 < 0)
  let h := if bh then h0 - 6 else h0
  let r := BitVec.ofInt 8 (l % 0x10 + h % 0x10 * 0x10)
  { val := r, flags := { f with c := !bh, z := r == 0, n := false, v := false } }

/-- ADC's computation (41_arithmetic_logic.md R250). -/
def adc (f : Flags) (a m : Byte) : AluOut := if f.d then adcDecimal f a m else adcBinary f a m

/-- SBC's computation (41_arithmetic_logic.md R253). -/
def sbc (f : Flags) (a m : Byte) : AluOut := if f.d then sbcDecimal f a m else adcBinary f a (~~~m)

/-! ### Compare and bit test -/

/-- `compare(r, m)` (41_arithmetic_logic.md R258): unsigned; N is bit 7 of the 8-bit difference. -/
def compareFlags (f : Flags) (r m : Byte) : Flags :=
  { f with c := decide (m.toNat ≤ r.toNat), z := r == m, n := (r - m).getLsbD 7 }

/-- BIT's flags (41_arithmetic_logic.md R262): N and V come from the operand except in IMM mode. -/
def bitTest (f : Flags) (immediate : Bool) (a m : Byte) : Flags :=
  let f := { f with z := (a &&& m) == 0 }
  if immediate then f else { f with n := m.getLsbD 7, v := m.getLsbD 6 }

/-! ### Shifts, increments and bit manipulation: the `f` of a read-modify-write -/

/-- 42_shift_rmw_bit.md R301. -/
def asl (f : Flags) (v : Byte) : AluOut :=
  let r := v <<< 1
  { val := r, flags := Flags.setNZ { f with c := v.getLsbD 7 } r }

/-- 42_shift_rmw_bit.md R302. -/
def lsr (f : Flags) (v : Byte) : AluOut :=
  let r := v >>> 1
  { val := r, flags := Flags.setNZ { f with c := v.getLsbD 0 } r }

/-- 42_shift_rmw_bit.md R303. -/
def rol (f : Flags) (v : Byte) : AluOut :=
  let r := v <<< 1 ||| (BitVec.ofBool f.c).setWidth 8
  { val := r, flags := Flags.setNZ { f with c := v.getLsbD 7 } r }

/-- 42_shift_rmw_bit.md R304, every behaviour but NMOS_WITH_ROR_BUG. -/
def rorCorrect (f : Flags) (v : Byte) : AluOut :=
  let r := v >>> 1 ||| (BitVec.ofBool f.c).setWidth 8 <<< 7
  { val := r, flags := Flags.setNZ { f with c := v.getLsbD 0 } r }

/-- 42_shift_rmw_bit.md R304 under NMOS_WITH_ROR_BUG: what the OPEN ROR_BUG_FN gives (log 7). -/
def rorBug (f : Flags) (v : Byte) : AluOut :=
  let (r, c, n, z) := Config.rorBugFn v f.c f.n f.z
  { val := r, flags := { f with c := c, n := n, z := z } }

/-- 42_shift_rmw_bit.md R304. -/
def ror : Behaviour → Flags → Byte → AluOut
  | .nmosWithRorBug => rorBug
  | .nmos6502 | .nmosWithIndirectJmpBug | .nmosWithoutIndirectJmpBug | .cmos6502 | .cmos65816 => rorCorrect

/-- 42_shift_rmw_bit.md R305. -/
def inc (f : Flags) (v : Byte) : AluOut := { val := v + 1, flags := f.setNZ (v + 1) }

/-- 42_shift_rmw_bit.md R306. -/
def dec (f : Flags) (v : Byte) : AluOut := { val := v - 1, flags := f.setNZ (v - 1) }

/-- 42_shift_rmw_bit.md R307: Z from the old value. -/
def tsb (a : Byte) (f : Flags) (v : Byte) : AluOut := { val := v ||| a, flags := { f with z := (a &&& v) == 0 } }

/-- 42_shift_rmw_bit.md R308: Z from the old value. -/
def trb (a : Byte) (f : Flags) (v : Byte) : AluOut := { val := v &&& ~~~a, flags := { f with z := (a &&& v) == 0 } }

/-- 42_shift_rmw_bit.md R309. -/
def rmb (n : Nat) (f : Flags) (v : Byte) : AluOut := { val := v &&& ~~~(1#8 <<< n), flags := f }

/-- 42_shift_rmw_bit.md R310. -/
def smb (n : Nat) (f : Flags) (v : Byte) : AluOut := { val := v ||| 1#8 <<< n, flags := f }

end Sys2Proof.Machine
end

