-- ==== Sys2Proof/Machine/Ops.lean ====
section
/-! DEFINITION. The named operations the meanings share: outcomes and legality, the stack, branches, taking an interrupt and returning
from one. -/

namespace Sys2Proof.Machine

/-! ### Outcomes and legality -/

/-- The outcome of a computation that a bus fault may end (60_exceptions.md R501). -/
def finish : Except Fault State → Host.Outcome State Fault Refusal
  | .ok s => .next s
  | .error f => .fault f

/-- The undefined instruction (44_flags_misc.md R408): `opTrap <- true` and nothing else. -/
def illegal (s : State) : State := { s with opTrap := true }

/-- Runs an instruction form: one that is CMOS only is the undefined instruction under NMOS (30_encoding.md R142, D18). -/
def runForm (cmosOnly : Bool) (s : State) (body : Except Fault State) : Host.Outcome State Fault Refusal :=
  if cmosOnly && !s.behaviour.isCmos then .next (illegal s) else finish body

/-! ### The stack -/

/-- `0x0100 + SP` (10_state.md R34). -/
def stackAddr (sp : Byte) : Word := joinBytes sp 0x01

/-- `push(v)` (10_state.md R46). -/
def push (s : State) (v : Byte) : Except Fault State := do
  let s ← write8 s (stackAddr s.sp) v
  return { s with sp := s.sp - 1 }

/-- `pull()` (10_state.md R47). -/
def pull (s : State) : Except Fault (Got Byte) :=
  read8 { s with sp := s.sp + 1 } (stackAddr (s.sp + 1))

/-- A 16-bit value pushed high byte first (20_memory.md R72). -/
def push16 (s : State) (w : Word) : Except Fault State := do
  let s ← push s (highByte w)
  push s (lowByte w)

/-- A 16-bit value pulled low byte first. -/
def pull16 (s : State) : Except Fault (Got Word) := do
  let lo ← pull s
  let hi ← pull lo.st
  return { val := joinBytes lo.val hi.val, st := hi.st }

/-! ### Relative targets -/

/-- `(PC + sext_16(off)) & 0xFFFF` (30_encoding.md R138, R139). -/
def relAddress (pc : Word) (off : Byte) : Word := pc + off.signExtend 16

/-- `branch(cond)` (43_control_flow.md R350). -/
def branch (s : State) (cond : Bool) (off : Byte) : State :=
  if cond then { s with pc := relAddress s.pc off } else s

/-! ### Taking an interrupt and returning from one -/

/-- What BRK, IRQ and NMI entry share (43_control_flow.md R367, 60_exceptions.md R516): B is set or cleared, the return address and then the
status byte are pushed, I is set, D is cleared under CMOS, and PC is read from the vector. -/
def enterVector (s : State) (brk : Bool) (ret vec : Word) : Except Fault State := do
  let s := { s with flags := { s.flags with b := brk } }
  let s ← push16 s ret
  let s ← push s s.flags.pack
  let s := { s with flags := { s.flags with i := true, d := s.flags.d && !s.behaviour.isCmos } }
  let target ← read16 s vec
  return { target.st with pc := target.val }

/-- The interrupts taken between instructions (60_exceptions.md R510). -/
inductive Interrupt where
  | irq
  | nmi
deriving DecidableEq, Repr

/-- The IRQ/BRK vector (60_exceptions.md R510). -/
def irqVector : Word := 0xFFFE

/-- The NMI vector (60_exceptions.md R510). -/
def nmiVector : Word := 0xFFFA

/-- The reset vector (60_exceptions.md R510). -/
def resetVector : Word := 0xFFFC

/-- `enterInterrupt(kind)` (60_exceptions.md R514 to R516): the latch is cleared and the address of the next instruction saved. -/
def enterInterrupt (s : State) : Interrupt → Except Fault State
  | .nmi => enterVector { s with nmiPending := false } false s.pc nmiVector
  | .irq => enterVector { s with irqPending := false } false s.pc irqVector

/-- RTI's return (43_control_flow.md R368): the status, then PC, with no increment. -/
def returnFromInterrupt (s : State) : Except Fault State := do
  let p ← pull s
  let ret ← pull16 { p.st with flags := unpackP p.val }
  return { ret.st with pc := ret.val }

end Sys2Proof.Machine
end

