-- ==== Sys2Proof/Machine/Operands.lean ====
section
/-! DEFINITION. The operand forms (30_encoding.md, section 3): effective addresses, loads, stores and read-modify-writes. -/

namespace Sys2Proof.Machine

/-- `EA(mode)` (30_encoding.md R127 to R132, R135 to R137). The pointer modes read their pointer through the bus. -/
def ea (s : State) : MemOperand → Except Fault (Got Word)
  | .zpg b1 => .ok { val := b1.setWidth 16, st := s }
  | .zpx b1 => .ok { val := (b1 + s.x).setWidth 16, st := s }
  | .zpy b1 => .ok { val := (b1 + s.y).setWidth 16, st := s }
  | .abs w => .ok { val := w, st := s }
  | .abx w => .ok { val := w + s.x.setWidth 16, st := s }
  | .aby w => .ok { val := w + s.y.setWidth 16, st := s }
  | .zpi b1 => read16zp s b1
  | .xin b1 => read16zp s (b1 + s.x)
  | .iny b1 => do
    let p ← read16zp s b1
    return { val := p.val + s.y.setWidth 16, st := p.st }

/-- `load(mode)` (30_encoding.md R126, R141). -/
def load (s : State) : Source → Except Fault (Got Byte)
  | .imm b1 => .ok { val := b1, st := s }
  | .mem m => do
    let e ← ea s m
    read8 e.st e.val

/-- `store(mode, v)` (30_encoding.md R141). -/
def store (s : State) (m : MemOperand) (v : Byte) : Except Fault State := do
  let e ← ea s m
  write8 e.st e.val v

/-- `rmw(mode, f)` (42_shift_rmw_bit.md R300): the address once, one read, one write. -/
def rmw (s : State) (t : Target) (f : Flags → Byte → AluOut) : Except Fault State :=
  match t with
  | .acc =>
    let o := f s.flags s.a
    .ok { s with a := o.val, flags := o.flags }
  | .mem m => do
    let e ← ea s m
    let r ← read8 e.st e.val
    let o := f r.st.flags r.val
    write8 { r.st with flags := o.flags } e.val o.val

end Sys2Proof.Machine

namespace Sys2Proof

/-! ### The modes of the mnemonics as operand forms -/

def AluMode.source : AluMode → Source
  | .imm b1 => .imm b1
  | .zpg b1 => .mem (.zpg b1)
  | .zpx b1 => .mem (.zpx b1)
  | .abs w => .mem (.abs w)
  | .abx w => .mem (.abx w)
  | .aby w => .mem (.aby w)
  | .xin b1 => .mem (.xin b1)
  | .iny b1 => .mem (.iny b1)
  | .zpi b1 => .mem (.zpi b1)

def StaMode.operand : StaMode → MemOperand
  | .zpg b1 => .zpg b1
  | .zpx b1 => .zpx b1
  | .abs w => .abs w
  | .abx w => .abx w
  | .aby w => .aby w
  | .xin b1 => .xin b1
  | .iny b1 => .iny b1
  | .zpi b1 => .zpi b1

def LdxMode.source : LdxMode → Source
  | .imm b1 => .imm b1
  | .zpg b1 => .mem (.zpg b1)
  | .zpy b1 => .mem (.zpy b1)
  | .abs w => .mem (.abs w)
  | .aby w => .mem (.aby w)

def LdyMode.source : LdyMode → Source
  | .imm b1 => .imm b1
  | .zpg b1 => .mem (.zpg b1)
  | .zpx b1 => .mem (.zpx b1)
  | .abs w => .mem (.abs w)
  | .abx w => .mem (.abx w)

def StxMode.operand : StxMode → MemOperand
  | .zpg b1 => .zpg b1
  | .zpy b1 => .zpy b1
  | .abs w => .abs w

def StyMode.operand : StyMode → MemOperand
  | .zpg b1 => .zpg b1
  | .zpx b1 => .zpx b1
  | .abs w => .abs w

def StzMode.operand : StzMode → MemOperand
  | .zpg b1 => .zpg b1
  | .zpx b1 => .zpx b1
  | .abs w => .abs w
  | .abx w => .abx w

def CpxMode.source : CpxMode → Source
  | .imm b1 => .imm b1
  | .zpg b1 => .mem (.zpg b1)
  | .abs w => .mem (.abs w)

def BitMode.source : BitMode → Source
  | .zpg b1 => .mem (.zpg b1)
  | .abs w => .mem (.abs w)
  | .imm b1 => .imm b1
  | .zpx b1 => .mem (.zpx b1)
  | .abx w => .mem (.abx w)

def ShiftMode.target : ShiftMode → Target
  | .acc => .acc
  | .zpg b1 => .mem (.zpg b1)
  | .zpx b1 => .mem (.zpx b1)
  | .abs w => .mem (.abs w)
  | .abx w => .mem (.abx w)

def TsbMode.operand : TsbMode → MemOperand
  | .zpg b1 => .zpg b1
  | .abs w => .abs w

end Sys2Proof
end

