-- ==== Sys2Proof/Machine/LoadStore.lean ====
section
/-! DEFINITION. Loads, stores, transfers and stack instructions (40_load_store_transfer.md). -/

namespace Sys2Proof.Machine

/-- What the loads and the pulls into a register share: the register takes the byte, N and Z follow it. -/
def State.loadA (s : State) (v : Byte) : State := { s with a := v, flags := s.flags.setNZ v }

/-- As `State.loadA`, for X. -/
def State.loadX (s : State) (v : Byte) : State := { s with x := v, flags := s.flags.setNZ v }

/-- As `State.loadA`, for Y. -/
def State.loadY (s : State) (v : Byte) : State := { s with y := v, flags := s.flags.setNZ v }

/-- LDA (40_load_store_transfer.md R200). -/
def execLda (m : AluMode) (s : State) : Host.Outcome State Fault Refusal :=
  runForm m.cmosOnly s do
    let v ← load s m.source
    return v.st.loadA v.val

/-- LDX (40_load_store_transfer.md R201). -/
def execLdx (m : LdxMode) (s : State) : Host.Outcome State Fault Refusal :=
  runForm false s do
    let v ← load s m.source
    return v.st.loadX v.val

/-- LDY (40_load_store_transfer.md R202). -/
def execLdy (m : LdyMode) (s : State) : Host.Outcome State Fault Refusal :=
  runForm false s do
    let v ← load s m.source
    return v.st.loadY v.val

/-- STA (40_load_store_transfer.md R203). -/
def execSta (m : StaMode) (s : State) : Host.Outcome State Fault Refusal :=
  runForm m.cmosOnly s (store s m.operand s.a)

/-- STX (40_load_store_transfer.md R204). -/
def execStx (m : StxMode) (s : State) : Host.Outcome State Fault Refusal :=
  runForm false s (store s m.operand s.x)

/-- STY (40_load_store_transfer.md R205). -/
def execSty (m : StyMode) (s : State) : Host.Outcome State Fault Refusal :=
  runForm false s (store s m.operand s.y)

/-- STZ (40_load_store_transfer.md R206). -/
def execStz (m : StzMode) (s : State) : Host.Outcome State Fault Refusal :=
  runForm true s (store s m.operand 0x00)

/-- TAX (40_load_store_transfer.md R207). -/
def execTax (s : State) : Host.Outcome State Fault Refusal :=
  runForm false s (.ok (s.loadX s.a))

/-- TAY (40_load_store_transfer.md R208). -/
def execTay (s : State) : Host.Outcome State Fault Refusal :=
  runForm false s (.ok (s.loadY s.a))

/-- TXA (40_load_store_transfer.md R209). -/
def execTxa (s : State) : Host.Outcome State Fault Refusal :=
  runForm false s (.ok (s.loadA s.x))

/-- TYA (40_load_store_transfer.md R210). -/
def execTya (s : State) : Host.Outcome State Fault Refusal :=
  runForm false s (.ok (s.loadA s.y))

/-- TSX (40_load_store_transfer.md R211). -/
def execTsx (s : State) : Host.Outcome State Fault Refusal :=
  runForm false s (.ok (s.loadX s.sp))

/-- TXS (40_load_store_transfer.md R212). -/
def execTxs (s : State) : Host.Outcome State Fault Refusal :=
  runForm false s (.ok { s with sp := s.x })

/-- PHA (40_load_store_transfer.md R213). -/
def execPha (s : State) : Host.Outcome State Fault Refusal :=
  runForm false s (push s s.a)

/-- PHP (40_load_store_transfer.md R214). Bit 4 of the pushed byte is set; the live B is unchanged. -/
def execPhp (s : State) : Host.Outcome State Fault Refusal :=
  runForm false s (push s (s.flags.pack ||| 0x10))

/-- PLA (40_load_store_transfer.md R215). -/
def execPla (s : State) : Host.Outcome State Fault Refusal :=
  runForm false s do
    let v ← pull s
    return v.st.loadA v.val

/-- PLP (40_load_store_transfer.md R216). -/
def execPlp (s : State) : Host.Outcome State Fault Refusal :=
  runForm false s do
    let v ← pull s
    return { v.st with flags := unpackP v.val }

/-- PHX (40_load_store_transfer.md R217). -/
def execPhx (s : State) : Host.Outcome State Fault Refusal :=
  runForm true s (push s s.x)

/-- PHY (40_load_store_transfer.md R218). -/
def execPhy (s : State) : Host.Outcome State Fault Refusal :=
  runForm true s (push s s.y)

/-- PLX (40_load_store_transfer.md R219). -/
def execPlx (s : State) : Host.Outcome State Fault Refusal :=
  runForm true s do
    let v ← pull s
    return v.st.loadX v.val

/-- PLY (40_load_store_transfer.md R220). -/
def execPly (s : State) : Host.Outcome State Fault Refusal :=
  runForm true s do
    let v ← pull s
    return v.st.loadY v.val

end Sys2Proof.Machine
end

