-- ==== Sys2Proof/Machine/Arithmetic.lean ====
section
/-! DEFINITION. Arithmetic, logic, compare, bit test and register increment (41_arithmetic_logic.md). -/

namespace Sys2Proof.Machine

/-- ADC (41_arithmetic_logic.md R250). -/
def execAdc (m : AluMode) (s : State) : Host.Outcome State Fault Refusal :=
  runForm m.cmosOnly s do
    let v ← load s m.source
    let o := adc v.st.flags v.st.a v.val
    return { v.st with a := o.val, flags := o.flags }

/-- SBC (41_arithmetic_logic.md R253). -/
def execSbc (m : AluMode) (s : State) : Host.Outcome State Fault Refusal :=
  runForm m.cmosOnly s do
    let v ← load s m.source
    let o := sbc v.st.flags v.st.a v.val
    return { v.st with a := o.val, flags := o.flags }

/-- AND (41_arithmetic_logic.md R255). -/
def execAnd (m : AluMode) (s : State) : Host.Outcome State Fault Refusal :=
  runForm m.cmosOnly s do
    let v ← load s m.source
    return v.st.loadA (v.st.a &&& v.val)

/-- ORA (41_arithmetic_logic.md R256). -/
def execOra (m : AluMode) (s : State) : Host.Outcome State Fault Refusal :=
  runForm m.cmosOnly s do
    let v ← load s m.source
    return v.st.loadA (v.st.a ||| v.val)

/-- EOR (41_arithmetic_logic.md R257). -/
def execEor (m : AluMode) (s : State) : Host.Outcome State Fault Refusal :=
  runForm m.cmosOnly s do
    let v ← load s m.source
    return v.st.loadA (v.st.a ^^^ v.val)

/-- CMP (41_arithmetic_logic.md R259). -/
def execCmp (m : AluMode) (s : State) : Host.Outcome State Fault Refusal :=
  runForm m.cmosOnly s do
    let v ← load s m.source
    return { v.st with flags := compareFlags v.st.flags v.st.a v.val }

/-- CPX (41_arithmetic_logic.md R260). -/
def execCpx (m : CpxMode) (s : State) : Host.Outcome State Fault Refusal :=
  runForm false s do
    let v ← load s m.source
    return { v.st with flags := compareFlags v.st.flags v.st.x v.val }

/-- CPY (41_arithmetic_logic.md R261). -/
def execCpy (m : CpxMode) (s : State) : Host.Outcome State Fault Refusal :=
  runForm false s do
    let v ← load s m.source
    return { v.st with flags := compareFlags v.st.flags v.st.y v.val }

/-- BIT's immediate form, which writes Z only (R262). -/
def bitImmediate : BitMode → Bool
  | .imm _ => true
  | .zpg _ | .abs _ | .zpx _ | .abx _ => false

/-- BIT (41_arithmetic_logic.md R262). -/
def execBit (m : BitMode) (s : State) : Host.Outcome State Fault Refusal :=
  runForm m.cmosOnly s do
    let v ← load s m.source
    return { v.st with flags := bitTest v.st.flags (bitImmediate m) v.st.a v.val }

/-- INX (41_arithmetic_logic.md R263). -/
def execInx (s : State) : Host.Outcome State Fault Refusal :=
  runForm false s (.ok (s.loadX (s.x + 1)))

/-- INY (41_arithmetic_logic.md R264). -/
def execIny (s : State) : Host.Outcome State Fault Refusal :=
  runForm false s (.ok (s.loadY (s.y + 1)))

/-- DEX (41_arithmetic_logic.md R265). -/
def execDex (s : State) : Host.Outcome State Fault Refusal :=
  runForm false s (.ok (s.loadX (s.x - 1)))

/-- DEY (41_arithmetic_logic.md R266). -/
def execDey (s : State) : Host.Outcome State Fault Refusal :=
  runForm false s (.ok (s.loadY (s.y - 1)))

end Sys2Proof.Machine
end

