-- ==== Sys2Proof/Machine/Control.lean ====
section
/-! DEFINITION. Branches, jumps, subroutines, BRK and RTI (43_control_flow.md). -/

namespace Sys2Proof.Machine

/-- BCC (43_control_flow.md R351). -/
def execBcc (off : Byte) (s : State) : Host.Outcome State Fault Refusal :=
  runForm false s (.ok (branch s (!s.flags.c) off))

/-- BCS (43_control_flow.md R352). -/
def execBcs (off : Byte) (s : State) : Host.Outcome State Fault Refusal :=
  runForm false s (.ok (branch s s.flags.c off))

/-- BEQ (43_control_flow.md R353). -/
def execBeq (off : Byte) (s : State) : Host.Outcome State Fault Refusal :=
  runForm false s (.ok (branch s s.flags.z off))

/-- BNE (43_control_flow.md R354). -/
def execBne (off : Byte) (s : State) : Host.Outcome State Fault Refusal :=
  runForm false s (.ok (branch s (!s.flags.z) off))

/-- BMI (43_control_flow.md R355). -/
def execBmi (off : Byte) (s : State) : Host.Outcome State Fault Refusal :=
  runForm false s (.ok (branch s s.flags.n off))

/-- BPL (43_control_flow.md R356). -/
def execBpl (off : Byte) (s : State) : Host.Outcome State Fault Refusal :=
  runForm false s (.ok (branch s (!s.flags.n) off))

/-- BVC (43_control_flow.md R357). -/
def execBvc (off : Byte) (s : State) : Host.Outcome State Fault Refusal :=
  runForm false s (.ok (branch s (!s.flags.v) off))

/-- BVS (43_control_flow.md R358). -/
def execBvs (off : Byte) (s : State) : Host.Outcome State Fault Refusal :=
  runForm false s (.ok (branch s s.flags.v off))

/-- BRA (43_control_flow.md R359). -/
def execBra (off : Byte) (s : State) : Host.Outcome State Fault Refusal :=
  runForm true s (.ok (branch s true off))

/-- BBRn and BBSn (43_control_flow.md R360, R361): the zero-page byte is read whether or not the branch is taken. -/
def branchOnBit (n : Nat) (value : Bool) (zp off : Byte) (s : State) : Host.Outcome State Fault Refusal :=
  runForm true s do
    let v ← read8 s (zp.setWidth 16)
    return branch v.st (v.val.getLsbD n == value) off

/-- BBR0 (43_control_flow.md R360). -/
def execBbr0 (zp off : Byte) (s : State) : Host.Outcome State Fault Refusal := branchOnBit 0 false zp off s

/-- BBR1 (43_control_flow.md R360). -/
def execBbr1 (zp off : Byte) (s : State) : Host.Outcome State Fault Refusal := branchOnBit 1 false zp off s

/-- BBR2 (43_control_flow.md R360). -/
def execBbr2 (zp off : Byte) (s : State) : Host.Outcome State Fault Refusal := branchOnBit 2 false zp off s

/-- BBR3 (43_control_flow.md R360). -/
def execBbr3 (zp off : Byte) (s : State) : Host.Outcome State Fault Refusal := branchOnBit 3 false zp off s

/-- BBR4 (43_control_flow.md R360). -/
def execBbr4 (zp off : Byte) (s : State) : Host.Outcome State Fault Refusal := branchOnBit 4 false zp off s

/-- BBR5 (43_control_flow.md R360). -/
def execBbr5 (zp off : Byte) (s : State) : Host.Outcome State Fault Refusal := branchOnBit 5 false zp off s

/-- BBR6 (43_control_flow.md R360). -/
def execBbr6 (zp off : Byte) (s : State) : Host.Outcome State Fault Refusal := branchOnBit 6 false zp off s

/-- BBR7 (43_control_flow.md R360). -/
def execBbr7 (zp off : Byte) (s : State) : Host.Outcome State Fault Refusal := branchOnBit 7 false zp off s

/-- BBS0 (43_control_flow.md R361). -/
def execBbs0 (zp off : Byte) (s : State) : Host.Outcome State Fault Refusal := branchOnBit 0 true zp off s

/-- BBS1 (43_control_flow.md R361). -/
def execBbs1 (zp off : Byte) (s : State) : Host.Outcome State Fault Refusal := branchOnBit 1 true zp off s

/-- BBS2 (43_control_flow.md R361). -/
def execBbs2 (zp off : Byte) (s : State) : Host.Outcome State Fault Refusal := branchOnBit 2 true zp off s

/-- BBS3 (43_control_flow.md R361). -/
def execBbs3 (zp off : Byte) (s : State) : Host.Outcome State Fault Refusal := branchOnBit 3 true zp off s

/-- BBS4 (43_control_flow.md R361). -/
def execBbs4 (zp off : Byte) (s : State) : Host.Outcome State Fault Refusal := branchOnBit 4 true zp off s

/-- BBS5 (43_control_flow.md R361). -/
def execBbs5 (zp off : Byte) (s : State) : Host.Outcome State Fault Refusal := branchOnBit 5 true zp off s

/-- BBS6 (43_control_flow.md R361). -/
def execBbs6 (zp off : Byte) (s : State) : Host.Outcome State Fault Refusal := branchOnBit 6 true zp off s

/-- BBS7 (43_control_flow.md R361). -/
def execBbs7 (zp off : Byte) (s : State) : Host.Outcome State Fault Refusal := branchOnBit 7 true zp off s

/-- JMPBUG (43_control_flow.md R363, D12). -/
def jmpBug : Behaviour → Bool
  | .nmos6502 | .nmosWithRorBug | .nmosWithIndirectJmpBug => true
  | .nmosWithoutIndirectJmpBug | .cmos6502 | .cmos65816 => false

/-- Where JMP indirect reads the high byte of its target (43_control_flow.md R363). -/
def jmpHighAddr (b : Behaviour) (p : Word) : Word :=
  if jmpBug b && lowByte p == 0xFF then joinBytes 0x00 (highByte p) else p + 1

/-- The target of a jump (43_control_flow.md R362 to R364). -/
def jmpTarget (s : State) : JmpMode → Except Fault (Got Word)
  | .abs w => .ok { val := w, st := s }
  | .ind p => do
    let lo ← read8 s p
    let hi ← read8 lo.st (jmpHighAddr s.behaviour p)
    return { val := joinBytes lo.val hi.val, st := hi.st }
  | .aix w => read16 s (w + s.x.setWidth 16)

/-- JMP (43_control_flow.md R362 to R364). -/
def execJmp (m : JmpMode) (s : State) : Host.Outcome State Fault Refusal :=
  runForm m.cmosOnly s do
    let t ← jmpTarget s m
    return { t.st with pc := t.val }

/-- JSR (43_control_flow.md R365). -/
def execJsr (target : Word) (s : State) : Host.Outcome State Fault Refusal :=
  runForm false s do
    let t ← push16 s (s.pc - 1)
    return { t with pc := target }

/-- RTS (43_control_flow.md R366). -/
def execRts (s : State) : Host.Outcome State Fault Refusal :=
  runForm false s do
    let ret ← pull16 s
    return { ret.st with pc := ret.val + 1 }

/-- BRK (43_control_flow.md R367). Honoured only while I is clear. -/
def execBrk (s : State) : Host.Outcome State Fault Refusal :=
  runForm false s (if s.flags.i then .ok s else enterVector s true (s.instAddr + 2) irqVector)

/-- RTI (43_control_flow.md R368). -/
def execRti (s : State) : Host.Outcome State Fault Refusal :=
  runForm false s (returnFromInterrupt s)

end Sys2Proof.Machine
end

