-- ==== Sys2Proof/Machine/FlagOps.lean ====
section
/-! DEFINITION. Flag instructions, NOP and the undefined instruction (44_flags_misc.md). -/

namespace Sys2Proof.Machine

/-- CLC (44_flags_misc.md R400). -/
def execClc (s : State) : Host.Outcome State Fault Refusal :=
  runForm false s (.ok { s with flags := { s.flags with c := false } })

/-- SEC (44_flags_misc.md R401). -/
def execSec (s : State) : Host.Outcome State Fault Refusal :=
  runForm false s (.ok { s with flags := { s.flags with c := true } })

/-- CLI (44_flags_misc.md R402). -/
def execCli (s : State) : Host.Outcome State Fault Refusal :=
  runForm false s (.ok { s with flags := { s.flags with i := false } })

/-- SEI (44_flags_misc.md R403). -/
def execSei (s : State) : Host.Outcome State Fault Refusal :=
  runForm false s (.ok { s with flags := { s.flags with i := true } })

/-- CLD (44_flags_misc.md R404). -/
def execCld (s : State) : Host.Outcome State Fault Refusal :=
  runForm false s (.ok { s with flags := { s.flags with d := false } })

/-- SED (44_flags_misc.md R405). -/
def execSed (s : State) : Host.Outcome State Fault Refusal :=
  runForm false s (.ok { s with flags := { s.flags with d := true } })

/-- CLV (44_flags_misc.md R406). -/
def execClv (s : State) : Host.Outcome State Fault Refusal :=
  runForm false s (.ok { s with flags := { s.flags with v := false } })

/-- NOP (44_flags_misc.md R407). -/
def execNop (s : State) : Host.Outcome State Fault Refusal :=
  runForm false s (.ok s)

/-- The undefined instruction (44_flags_misc.md R408): its operand bytes were consumed by the fetch. -/
def execUndefined (s : State) : Host.Outcome State Fault Refusal := .next (illegal s)

end Sys2Proof.Machine
end

