-- ==== Sys2Proof/Machine/RmwBit.lean ====
section
/-! DEFINITION. Shifts, rotates, memory increment and decrement, and bit manipulation (42_shift_rmw_bit.md). -/

namespace Sys2Proof.Machine

/-- ASL (42_shift_rmw_bit.md R301). -/
def execAsl (m : ShiftMode) (s : State) : Host.Outcome State Fault Refusal :=
  runForm false s (rmw s m.target asl)

/-- LSR (42_shift_rmw_bit.md R302). -/
def execLsr (m : ShiftMode) (s : State) : Host.Outcome State Fault Refusal :=
  runForm false s (rmw s m.target lsr)

/-- ROL (42_shift_rmw_bit.md R303). -/
def execRol (m : ShiftMode) (s : State) : Host.Outcome State Fault Refusal :=
  runForm false s (rmw s m.target rol)

/-- ROR (42_shift_rmw_bit.md R304). -/
def execRor (m : ShiftMode) (s : State) : Host.Outcome State Fault Refusal :=
  runForm false s (rmw s m.target (ror s.behaviour))

/-- INC (42_shift_rmw_bit.md R305). -/
def execInc (m : ShiftMode) (s : State) : Host.Outcome State Fault Refusal :=
  runForm m.incCmosOnly s (rmw s m.target inc)

/-- DEC (42_shift_rmw_bit.md R306). -/
def execDec (m : ShiftMode) (s : State) : Host.Outcome State Fault Refusal :=
  runForm m.incCmosOnly s (rmw s m.target dec)

/-- TSB (42_shift_rmw_bit.md R307). -/
def execTsb (m : TsbMode) (s : State) : Host.Outcome State Fault Refusal :=
  runForm true s (rmw s (.mem m.operand) (tsb s.a))

/-- TRB (42_shift_rmw_bit.md R308). -/
def execTrb (m : TsbMode) (s : State) : Host.Outcome State Fault Refusal :=
  runForm true s (rmw s (.mem m.operand) (trb s.a))

/-- RMBn's read-modify-write of a zero-page byte (42_shift_rmw_bit.md R309). -/
def rmbZeroPage (n : Nat) (zp : Byte) (s : State) : Host.Outcome State Fault Refusal :=
  runForm true s (rmw s (.mem (.zpg zp)) (rmb n))

/-- RMB0 (42_shift_rmw_bit.md R309). -/
def execRmb0 (zp : Byte) (s : State) : Host.Outcome State Fault Refusal := rmbZeroPage 0 zp s

/-- RMB1 (42_shift_rmw_bit.md R309). -/
def execRmb1 (zp : Byte) (s : State) : Host.Outcome State Fault Refusal := rmbZeroPage 1 zp s

/-- RMB2 (42_shift_rmw_bit.md R309). -/
def execRmb2 (zp : Byte) (s : State) : Host.Outcome State Fault Refusal := rmbZeroPage 2 zp s

/-- RMB3 (42_shift_rmw_bit.md R309). -/
def execRmb3 (zp : Byte) (s : State) : Host.Outcome State Fault Refusal := rmbZeroPage 3 zp s

/-- RMB4 (42_shift_rmw_bit.md R309). -/
def execRmb4 (zp : Byte) (s : State) : Host.Outcome State Fault Refusal := rmbZeroPage 4 zp s

/-- RMB5 (42_shift_rmw_bit.md R309). -/
def execRmb5 (zp : Byte) (s : State) : Host.Outcome State Fault Refusal := rmbZeroPage 5 zp s

/-- RMB6 (42_shift_rmw_bit.md R309). -/
def execRmb6 (zp : Byte) (s : State) : Host.Outcome State Fault Refusal := rmbZeroPage 6 zp s

/-- RMB7 (42_shift_rmw_bit.md R309). -/
def execRmb7 (zp : Byte) (s : State) : Host.Outcome State Fault Refusal := rmbZeroPage 7 zp s

/-- SMBn's read-modify-write of a zero-page byte (42_shift_rmw_bit.md R310). -/
def smbZeroPage (n : Nat) (zp : Byte) (s : State) : Host.Outcome State Fault Refusal :=
  runForm true s (rmw s (.mem (.zpg zp)) (smb n))

/-- SMB0 (42_shift_rmw_bit.md R310). -/
def execSmb0 (zp : Byte) (s : State) : Host.Outcome State Fault Refusal := smbZeroPage 0 zp s

/-- SMB1 (42_shift_rmw_bit.md R310). -/
def execSmb1 (zp : Byte) (s : State) : Host.Outcome State Fault Refusal := smbZeroPage 1 zp s

/-- SMB2 (42_shift_rmw_bit.md R310). -/
def execSmb2 (zp : Byte) (s : State) : Host.Outcome State Fault Refusal := smbZeroPage 2 zp s

/-- SMB3 (42_shift_rmw_bit.md R310). -/
def execSmb3 (zp : Byte) (s : State) : Host.Outcome State Fault Refusal := smbZeroPage 3 zp s

/-- SMB4 (42_shift_rmw_bit.md R310). -/
def execSmb4 (zp : Byte) (s : State) : Host.Outcome State Fault Refusal := smbZeroPage 4 zp s

/-- SMB5 (42_shift_rmw_bit.md R310). -/
def execSmb5 (zp : Byte) (s : State) : Host.Outcome State Fault Refusal := smbZeroPage 5 zp s

/-- SMB6 (42_shift_rmw_bit.md R310). -/
def execSmb6 (zp : Byte) (s : State) : Host.Outcome State Fault Refusal := smbZeroPage 6 zp s

/-- SMB7 (42_shift_rmw_bit.md R310). -/
def execSmb7 (zp : Byte) (s : State) : Host.Outcome State Fault Refusal := smbZeroPage 7 zp s

end Sys2Proof.Machine
end

