-- ==== Sys2Proof/Machine/Fetch.lean ====
section
/-! DEFINITION. What a step does before an instruction executes (30_encoding.md R122): the interrupt check, and fetching the opcode and its
operand bytes through the bus. -/

namespace Sys2Proof.Machine

/-- What the next step of a running machine does (60_exceptions.md R513, R563). -/
inductive StepKind where
  | nmi
  | irq
  | instr
deriving DecidableEq, Repr

/-- The interrupt check (60_exceptions.md R512, R513). -/
def stepKind (s : State) : StepKind :=
  if s.nmiPending then .nmi else if s.irqPending && !s.flags.i then .irq else .instr

/-- One byte fetched at PC, and PC advanced (10_state.md R35). -/
def fetchByte (s : State) : Except Fault (Got Byte) := do
  let b ← read8 s s.pc
  return { val := b.val, st := { b.st with pc := b.st.pc + 1 } }

/-- `instAddr <- PC`, then the opcode byte into IR (30_encoding.md R122). -/
def fetchOpcode (s : State) : Except Fault (Got Byte) := do
  let b ← fetchByte { s with instAddr := s.pc }
  return { val := b.val, st := { b.st with ir := b.val } }

/-- The operand bytes b1 and b2. -/
structure OperandBytes where
  b1 : Byte
  b2 : Byte
deriving DecidableEq, Repr

/-- The operand bytes of an instruction of a given length, fetched in order (30_encoding.md R122). One past the length is not fetched; it is
0 here and no row of the map looks at it. -/
def fetchOperands (s : State) : InstrLen → Except Fault (Got OperandBytes)
  | .one => .ok { val := { b1 := 0, b2 := 0 }, st := s }
  | .two => do
    let b1 ← fetchByte s
    return { val := { b1 := b1.val, b2 := 0 }, st := b1.st }
  | .three => do
    let b1 ← fetchByte s
    let b2 ← fetchByte b1.st
    return { val := { b1 := b1.val, b2 := b2.val }, st := b2.st }

/-- The instruction at PC, and the state it executes in: PC is the address of the next instruction (30_encoding.md R122, R123). -/
def fetch (s : State) : Except Fault (Got Instr) := do
  let op ← fetchOpcode s
  let o ← fetchOperands op.st (opLength s.undefLens op.val)
  return { val := decodeOp op.val o.val.b1 o.val.b2, st := o.st }

/-! ### Placing an instruction for the next step -/

/-- Whether the three bytes from PC on are in Memory devices. -/
def codeInMemory (s : State) : Bool := s.isMemory s.pc && s.isMemory (s.pc + 1) && s.isMemory (s.pc + 2)

/-- Three bytes stored from PC on whatever device owns them (log 12). What else the next step's fetch needs is set: the machine is running,
no interrupt is due, and, where PC does not lie in memory, the platform is the default one. -/
def placeAtPc (s : State) (b0 b1 b2 : Byte) : State :=
  { s with
    phase := .running
    nmiPending := false
    irqPending := s.irqPending && s.flags.i
    devices := if codeInMemory s then s.devices else defaultDevices
    mem := ((s.mem.write s.pc.toNat b0).write (s.pc + 1).toNat b1).write (s.pc + 2).toNat b2 }

end Sys2Proof.Machine
end

