-- ==== Sys2Proof/Machine/Step.lean ====
section
/-! DEFINITION. One step (30_encoding.md R122), and the host's way to place an instruction for it. -/

namespace Sys2Proof.Machine

/-- `step()` of a running machine: opTrap is cleared, then NMI, IRQ or the instruction at PC (30_encoding.md R122, 60_exceptions.md R513). -/
def stepRunning (s : State) : Host.Outcome State Fault Refusal :=
  match stepKind s with
  | .nmi => finish (enterInterrupt s .nmi)
  | .irq => finish (enterInterrupt s .irq)
  | .instr =>
    match fetch s with
    | .ok i => exec i.val i.st
    | .error f => .fault f

/-- `step()`. A machine that was never reset, or is FAULTED, has no move (93 U7, U8). -/
def step (s : State) : Host.Outcome State Fault Refusal :=
  match s.phase with
  | .running => stepRunning { s with opTrap := false }
  | .notReset => .fault .stuckNotReset
  | .faulted kind addr => .fault (.stuckFaulted kind addr)

/-- `s` with the instruction of the table's bits `w` where the next step fetches (log 12). -/
def State.withFetchWord (s : State) (nbits w : Nat) : State :=
  let b := tableBytes nbits w
  placeAtPc s b.1 b.2.1 b.2.2

end Sys2Proof.Machine
end

