-- ==== Sys2Proof/Machine/Environment.lean ====
section
/-! DEFINITION. What the host can do between steps (60_exceptions.md R560, R561; 20_memory.md R79, R81, R85, R88; 70_reset_and_hazards.md R600),
one function per row of R560's table, and the table as one closed inductive. -/

namespace Sys2Proof.Machine

/-- What the host gets back. -/
inductive Reply where
  | ok
  | value (n : Nat)
  | stepped (kind : StepKind)
  | fault (kind : FaultKind) (addr : Word)
  | rangeError
  | registerRange
  | fifoUnderrun
  /-- A configuration with a Via, Crtc or SdController is refused (20_memory.md R78, 93 U13). -/
  | stubDevice
  /-- An ACIA capacity below 1 is no parameter of the machine (00_scope.md R8). -/
  | parameterRange
  /-- The address named is not an ACIA's. -/
  | noAcia
  /-- A step that has no move (93 U7, U8). -/
  | noMove
deriving DecidableEq, Repr

/-- The reply to a host action and the state after it. -/
structure HostResult where
  reply : Reply
  st : State
deriving DecidableEq, Repr

/-! ### The state after a fault -/

/-- No step and no `reset()` makes more bus accesses: BRK makes six, an opcode fetch, three pushes and two vector reads. An access draws at most
one byte and computes at most one status. -/
def stepAccesses : Nat := 6

/-- An ACIA whose contents are unspecified (60_exceptions.md R501): drawn, within its capacities. DESIGN CHOICE, log 26: its count of status
computations passes every one the failed step can have made, so that no readiness is drawn twice. -/
def anyAcia (n : Nat) (k : Acia) : Acia :=
  { k with
    rx := (Config.drawFifo n).take k.rxCap
    tx := (Config.drawFifo (n + 1)).take k.txCap
    command := Config.drawByte n
    control := Config.drawByte (n + 1)
    rxIrqEn := Config.drawBit n
    txIrqEn := Config.drawBit (n + 1)
    overrun := Config.drawBit (n + 2)
    irq := Config.drawBit (n + 3)
    polls := k.polls + stepAccesses }

/-- The devices after a fault: the same devices, the ACIAs' contents drawn from the `n`-th draw on. -/
def anyDevices : Nat → List Device → List Device
  | _, [] => []
  | n, d :: ds =>
    match d.kind with
    | .memory _ => d :: anyDevices n ds
    | .acia k => { d with kind := .acia (anyAcia n k) } :: anyDevices (n + 4) ds

/-- Memory contents that are unspecified: drawn, at addresses that Memory devices own. -/
def anyMemory (s : State) (n : Nat) : Memory :=
  (Config.drawMemory n).foldl
    (fun m c => if decide (c.1 < 0x10000) && s.isMemory (BitVec.ofNat 16 c.1) then m.write c.1 c.2 else m) []

/-- CPU registers, flags and latches that are unspecified: drawn, from the draw `s.draws` on. -/
def anyCpu (s : State) : State :=
  let n := s.draws
  { s with
    a := Config.drawByte n
    x := Config.drawByte (n + 1)
    y := Config.drawByte (n + 2)
    sp := Config.drawByte (n + 3)
    ir := Config.drawByte (n + 4)
    pc := Config.drawWord n
    instAddr := Config.drawWord (n + 1)
    flags :=
      { c := Config.drawBit n, z := Config.drawBit (n + 1), i := Config.drawBit (n + 2), d := Config.drawBit (n + 3),
        b := Config.drawBit (n + 4), v := Config.drawBit (n + 5), n := Config.drawBit (n + 6) }
    opTrap := Config.drawBit (n + 7)
    irqPending := Config.drawBit (n + 8)
    nmiPending := Config.drawBit (n + 9)
    draws := n + 10 }

/-- `FAULTED(kind, addr)` (60_exceptions.md R501, 93 U7) entered from `s`, the state before the failed step: registers, flags, memory and devices
are unspecified, the platform and the parameters stay (log 10). DESIGN CHOICE, log 26: the draws start past every draw the failed step can
have made. -/
def afterFault (s : State) (kind : FaultKind) (addr : Word) : State :=
  let t := anyCpu { s with draws := s.draws + stepAccesses }
  { t with
    phase := .faulted kind addr
    devices := anyDevices t.draws s.devices
    mem := anyMemory s t.draws
    draws := t.draws + 4 * s.devices.length + 1 }

/-- The host's view of an action that a bus fault would end as FAULTED (60_exceptions.md R501, R560). -/
def orFaulted (s : State) (reply : Reply) : Except Fault State → HostResult
  | .ok t => { reply := reply, st := t }
  | .error (.bus kind addr) => { reply := .fault kind addr, st := afterFault s kind addr }
  | .error .stuckNotReset | .error (.stuckFaulted _ _) => { reply := .noMove, st := s }

/-! ### Building the machine -/

/-- A machine that was never reset: its CPU state is unspecified (D6, 93 U8). The parameters are those of 00_scope.md R8; none where the window
is no window. -/
def newMachine (behaviour : Behaviour) (lens : UndefLens) (busStart busEnd : Nat) : Option State :=
  if busStart ≤ busEnd ∧ busEnd ≤ 0xFFFF then
    some <| anyCpu
      { State.reset with
        phase := .notReset, behaviour := behaviour, undefLens := lens, busStart := busStart, busEnd := busEnd, devices := [] }
  else none

/-- MEM_INIT (20_memory.md R86, D24): a fill value, or an image from offset 0 on with a fill after it. -/
inductive MemInit where
  | fill (v : Byte)
  | image (bytes : List Byte) (v : Byte)
deriving DecidableEq, Repr

/-- The initial bytes from offset 0 on; what an unlisted byte reads as need not be written. -/
def MemInit.bytes (size : Nat) : MemInit → List Byte
  | .fill v => List.replicate (if v = unlistedByte then 0 else size) v
  | .image bs v => (bs ++ List.replicate (if v = unlistedByte then 0 else size - bs.length) v).take size

/-- What the host constructs (20_memory.md R78, 60_exceptions.md R560). -/
inductive DeviceSpec where
  | memory (readOnly : Bool) (init : MemInit)
  | acia (layout : AciaLayout) (rxCap txCap : Nat)
  | via
  | crtc
  | sdController
deriving DecidableEq, Repr

/-- A constructed device with its initial bytes, not yet on the bus. -/
structure NewDevice where
  device : Device
  contents : List Byte
deriving DecidableEq, Repr

/-- Device construction (20_memory.md R79, 60_exceptions.md R530). -/
def construct (name : String) (base size : Int) (spec : DeviceSpec) : Except Reply NewDevice :=
  if size < 1 ∨ base < 0 ∨ 0xFFFF < base + size - 1 then .error .rangeError
  else
    let device (kind : DeviceKind) : Device :=
      { name := name, start := base.toNat, stop := (base + size - 1).toNat, kind := kind }
    match spec with
    | .memory readOnly init => .ok { device := device (.memory readOnly), contents := init.bytes size.toNat }
    | .acia layout rxCap txCap =>
      if rxCap < 1 ∨ txCap < 1 then .error .parameterRange
      else .ok { device := device (.acia (Acia.powerOn layout rxCap txCap)), contents := [] }
    | .via | .crtc | .sdController => .error .stubDevice

/-- `overlaps(r, s)` (20_memory.md R76). -/
def Device.overlaps (d e : Device) : Bool := decide (d.start ≤ e.stop) && decide (e.start ≤ d.stop)

/-- Insertion that keeps the order by range start (20_memory.md R81). -/
def insertDevice (d : Device) : List Device → List Device
  | [] => [d]
  | e :: es => if d.start < e.start then d :: e :: es else e :: insertDevice d es

/-- Bytes written at consecutive addresses. -/
def storeBytes (m : Memory) : Nat → List Byte → Memory
  | _, [] => m
  | a, v :: vs => storeBytes (m.write a v) (a + 1) vs

/-- Memory with a device's range holding the device's initial bytes. -/
def installBytes (m : Memory) (d : Device) (contents : List Byte) : Memory :=
  storeBytes (m.filter fun c => decide (c.1 < d.start) || decide (d.stop < c.1)) d.start contents

/-- `addDevice(d)` (20_memory.md R81). -/
def addDevice (s : State) (n : NewDevice) : HostResult :=
  if s.devices.any n.device.overlaps then { reply := .rangeError, st := s }
  else if n.device.start < s.busStart ∨ s.busEnd < n.device.stop then { reply := .rangeError, st := s }
  else
    { reply := .ok
      st :=
        { s with devices := insertDevice n.device s.devices, mem := installBytes s.mem n.device n.contents } }

/-- Construct a device and add it to the bus. -/
def constructAndAdd (s : State) (name : String) (base size : Int) (spec : DeviceSpec) : HostResult :=
  match construct name base size spec with
  | .ok n => addDevice s n
  | .error r => { reply := r, st := s }

/-- Whether devices in order tile the addresses from `from` to `stop` with no gap (20_memory.md R85). -/
def tiles (stop : Nat) : Nat → List Device → Bool
  | next, [] => next == stop + 1
  | next, d :: ds => d.start == next && tiles stop (d.stop + 1) ds

/-- `isComplete()` (20_memory.md R85). -/
def State.isComplete (s : State) : Bool := !s.devices.isEmpty && tiles s.busEnd s.busStart s.devices

/-! ### Reset and stepping -/

/-- `reset()` (70_reset_and_hazards.md R600): A, X, Y, IR, instAddr, Z and N are draws. -/
def resetCpu (s : State) : Except Fault State := do
  let v ← read16 s resetVector
  let n := v.st.draws
  return {
    v.st with
    pc := v.val
    sp := 0xFF
    flags :=
      { c := false, z := Config.drawBit n, i := false, d := false, b := false, v := false, n := Config.drawBit (n + 1) }
    opTrap := false
    irqPending := false
    nmiPending := false
    a := Config.drawByte n
    x := Config.drawByte (n + 1)
    y := Config.drawByte (n + 2)
    ir := Config.drawByte (n + 3)
    instAddr := Config.drawWord n
    phase := .running
    draws := n + 4 }

/-- `reset()` as the host sees it. -/
def hostReset (s : State) : HostResult := orFaulted s .ok (resetCpu s)

/-- Every ACIA after `programmedReset()`. -/
def resetAcias (ds : List Device) : List Device :=
  ds.map fun d =>
    match d.kind with
    | .memory _ => d
    | .acia k => { d with kind := .acia k.programmedReset }

/-- The system reset: each ACIA's programmed reset, then `reset()` (60_exceptions.md R545, R560). -/
def systemReset (s : State) : HostResult := hostReset { s with devices := resetAcias s.devices }

/-- `step()` as the host sees it (60_exceptions.md R501, R563). -/
def hostStep (s : State) : HostResult :=
  match step s with
  | .next t => { reply := .stepped (stepKind s), st := t }
  | .fault f => orFaulted s .ok (.error f)
  | .refused _ => { reply := .noMove, st := s }

/-- Whether a step's reply lets the next step of `step(n)` run. -/
def Reply.isStepped : Reply → Bool
  | .stepped _ => true
  | _ => false

/-- `step(n)` (60_exceptions.md R562): it stops at the first step that does not end normally. -/
def hostSteps : Nat → State → HostResult
  | 0, s => { reply := .ok, st := s }
  | n + 1, s =>
    let r := hostStep s
    if r.reply.isStepped && n != 0 then hostSteps n r.st else r

/-! ### Reading and writing state -/

/-- A register the host can name (60_exceptions.md R560). -/
inductive CpuReg where
  | a
  | x
  | y
  | sp
  | pc
  | p
  | ir
  | instAddr
  | opTrap
  | irqPending
  | nmiPending
deriving DecidableEq, Repr

/-- A flag the host can name. -/
inductive FlagName where
  | c
  | z
  | i
  | d
  | b
  | v
  | n
deriving DecidableEq, Repr

/-- Read state: a register (60_exceptions.md R560). -/
def readReg (s : State) : CpuReg → Nat
  | .a => s.a.toNat
  | .x => s.x.toNat
  | .y => s.y.toNat
  | .sp => s.sp.toNat
  | .pc => s.pc.toNat
  | .p => s.flags.pack.toNat
  | .ir => s.ir.toNat
  | .instAddr => s.instAddr.toNat
  | .opTrap => s.opTrap.toNat
  | .irqPending => s.irqPending.toNat
  | .nmiPending => s.nmiPending.toNat

/-- Read state: a flag. -/
def readFlag (s : State) : FlagName → Bool
  | .c => s.flags.c
  | .z => s.flags.z
  | .i => s.flags.i
  | .d => s.flags.d
  | .b => s.flags.b
  | .v => s.flags.v
  | .n => s.flags.n

/-- A write of a value that must fit `bits` bits (60_exceptions.md R561). -/
def writeFitting (s : State) (bits : Nat) (v : Int) (t : State) : HostResult :=
  if 0 ≤ v ∧ v < 2 ^ bits then { reply := .ok, st := t } else { reply := .registerRange, st := s }

/-- Write state: a register (60_exceptions.md R561). opTrap, IR, instAddr and the latches are not writable this way. -/
def writeReg (s : State) (r : CpuReg) (v : Int) : HostResult :=
  match r with
  | .a => writeFitting s 8 v { s with a := BitVec.ofInt 8 v }
  | .x => writeFitting s 8 v { s with x := BitVec.ofInt 8 v }
  | .y => writeFitting s 8 v { s with y := BitVec.ofInt 8 v }
  | .sp => writeFitting s 8 v { s with sp := BitVec.ofInt 8 v }
  | .pc => writeFitting s 16 v { s with pc := BitVec.ofInt 16 v }
  | .p => writeFitting s 8 v { s with flags := unpackP (BitVec.ofInt 8 v) }
  | .ir | .instAddr | .opTrap | .irqPending | .nmiPending => { reply := .registerRange, st := s }

/-- Write state: a flag (60_exceptions.md R561). -/
def writeFlag (s : State) (f : FlagName) (v : Bool) : State :=
  { s with
    flags :=
      match f with
      | .c => { s.flags with c := v }
      | .z => { s.flags with z := v }
      | .i => { s.flags with i := v }
      | .d => { s.flags with d := v }
      | .b => { s.flags with b := v }
      | .v => { s.flags with v := v }
      | .n => { s.flags with n := v } }

/-! ### The bus seen by the host -/

/-- A read the host makes: its fault is reported and does not enter FAULTED (60_exceptions.md R560). -/
def reportRead (s : State) : Except Fault (Got Byte) → HostResult
  | .ok v => { reply := .value v.val.toNat, st := v.st }
  | .error (.bus kind addr) => { reply := .fault kind addr, st := s }
  | .error .stuckNotReset | .error (.stuckFaulted _ _) => { reply := .noMove, st := s }

/-- `read(addr)`: a window read (20_memory.md R97). -/
def hostRead (s : State) (a : Word) : HostResult := reportRead s (windowRead8 s a)

/-- `stackPeek()` (10_state.md R48, 60_exceptions.md R564). -/
def stackPeek (s : State) : HostResult := hostRead s (stackAddr (s.sp + 1))

/-- `loadProgram` from an address on: it stops at the first fault, the writes before it stand (20_memory.md R88). -/
def loadFrom (s : State) (a : Word) : List Byte → HostResult
  | [] => { reply := .ok, st := s }
  | v :: vs =>
    match write8 s a v with
    | .ok t => loadFrom t (a + 1) vs
    | .error (.bus kind addr) => { reply := .fault kind addr, st := s }
    | .error .stuckNotReset | .error (.stuckFaulted _ _) => { reply := .noMove, st := s }

/-- `write(addr, v)` (20_memory.md R83): the one write path. -/
def hostWrite (s : State) (a : Word) (v : Byte) : HostResult := loadFrom s a [v]

/-- `loadProgram(bytes)` (20_memory.md R88). -/
def loadProgram (s : State) (bytes : List Byte) : HostResult := loadFrom s s.pc bytes

/-! ### The serial side of an ACIA, named by an address it owns -/

/-- The ACIA that owns an address. -/
def State.aciaAt (s : State) (a : Word) : Option Acia :=
  match owner s.devices a with
  | some { kind := .acia k, .. } => some k
  | _ => none

/-- The state after an ACIA event (60_exceptions.md R549). -/
def State.afterEvent (s : State) (a : Word) (o : AciaEvent) : State :=
  { s with devices := setAcia s.devices a o.acia, irqPending := s.irqPending || o.assertIrq }

/-- `rxWrite(acia, b)` (60_exceptions.md R546). -/
def hostRxWrite (s : State) (a : Word) (v : Byte) : HostResult :=
  match s.aciaAt a with
  | none => { reply := .noAcia, st := s }
  | some k => { reply := .ok, st := s.afterEvent a (k.rxWrite v) }

/-- `txRead(acia)` (60_exceptions.md R504, R548). -/
def hostTxRead (s : State) (a : Word) : HostResult :=
  match s.aciaAt a with
  | none => { reply := .noAcia, st := s }
  | some k =>
    match k.txRead with
    | none => { reply := .fifoUnderrun, st := s }
    | some (v, o) => { reply := .value v.toNat, st := s.afterEvent a o }

/-- `hasRx(acia)` (60_exceptions.md R550). -/
def hostHasRx (s : State) (a : Word) : HostResult :=
  match s.aciaAt a with
  | none => { reply := .noAcia, st := s }
  | some k => { reply := .value (!k.rx.isEmpty).toNat, st := s }

/-- `hasTx(acia)` (60_exceptions.md R550). -/
def hostHasTx (s : State) (a : Word) : HostResult :=
  match s.aciaAt a with
  | none => { reply := .noAcia, st := s }
  | some k => { reply := .value (!k.tx.isEmpty).toNat, st := s }

/-! ### The table -/

/-- The rows of 60_exceptions.md R560. -/
inductive HostAction where
  | addDevice (name : String) (base size : Int) (spec : DeviceSpec)
  | isComplete
  | reset
  | step
  | steps (n : Nat)
  | readReg (r : CpuReg)
  | readFlag (f : FlagName)
  | writeReg (r : CpuReg) (v : Int)
  | writeFlag (f : FlagName) (v : Bool)
  | setBehaviour (b : Behaviour)
  | read (a : Word)
  | write (a : Word) (v : Byte)
  | loadProgram (bytes : List Byte)
  | stackPeek
  | assertIrq
  | clearIrq
  | assertNmi
  | rxWrite (acia : Word) (v : Byte)
  | txRead (acia : Word)
  | hasRx (acia : Word)
  | hasTx (acia : Word)
  | systemReset
deriving DecidableEq, Repr

/-- A host action between steps (60_exceptions.md R560). -/
def act (s : State) : HostAction → HostResult
  | .addDevice name base size spec => constructAndAdd s name base size spec
  | .isComplete => { reply := .value s.isComplete.toNat, st := s }
  | .reset => hostReset s
  | .step => hostStep s
  | .steps n => hostSteps n s
  | .readReg r => { reply := .value (Machine.readReg s r), st := s }
  | .readFlag f => { reply := .value (Machine.readFlag s f).toNat, st := s }
  | .writeReg r v => Machine.writeReg s r v
  | .writeFlag f v => { reply := .ok, st := Machine.writeFlag s f v }
  | .setBehaviour b => { reply := .ok, st := { s with behaviour := b } }
  | .read a => hostRead s a
  | .write a v => hostWrite s a v
  | .loadProgram bytes => Machine.loadProgram s bytes
  | .stackPeek => Machine.stackPeek s
  | .assertIrq => { reply := .ok, st := { s with irqPending := true } }
  | .clearIrq => { reply := .ok, st := { s with irqPending := false } }
  | .assertNmi => { reply := .ok, st := { s with nmiPending := true } }
  | .rxWrite a v => hostRxWrite s a v
  | .txRead a => hostTxRead s a
  | .hasRx a => hostHasRx s a
  | .hasTx a => hostHasTx s a
  | .systemReset => Machine.systemReset s

end Sys2Proof.Machine
end

