-- ==== Sys2Proof/Safety.lean ====
section
/-! DEFINITION. What statements are made of: the invariant of the machine, its platform, the end of a run (70_reset_and_hazards.md R608), and
the shapes of what instructions do: loads, stores, read-modify-writes, pushes, pulls and interrupt entries. -/

namespace Sys2Proof.Machine

/-! ### The invariant -/

/-- An ACIA within its parameters: capacities at least 1 (00_scope.md R8), FIFOs bounded by them (60_exceptions.md R531). -/
def Acia.wf (k : Acia) : Bool :=
  decide (1 ≤ k.rxCap) && decide (1 ≤ k.txCap) && decide (k.rx.length ≤ k.rxCap) && decide (k.tx.length ≤ k.txCap)

/-- A device construction lets through (20_memory.md R76, R79). -/
def Device.wf (d : Device) : Bool :=
  decide (d.start ≤ d.stop) && decide (d.stop ≤ 0xFFFF) &&
    match d.kind with
    | .memory _ => true
    | .acia k => k.wf

/-- Devices in order of range start, none overlapping another, all in the window (20_memory.md R80, R81). -/
def devicesWf (busStart busEnd : Nat) (ds : List Device) : Bool :=
  ds.all (fun d => d.wf && decide (busStart ≤ d.start) && decide (d.stop ≤ busEnd)) &&
    decide (ds.Pairwise fun d e => d.stop < e.start)

/-- Whether a listed memory byte belongs to a Memory device. -/
def cellOwned (s : State) (c : Host.Cell) : Bool := s.isMemory (BitVec.ofNat 16 c.1)

/-- The invariant: memory is in canonical form and lies in Memory devices, and the bus is what `addDevice` can build. -/
def State.wf (s : State) : Bool :=
  s.mem.wf && s.mem.all (cellOwned s) && decide (s.busStart ≤ s.busEnd) && decide (s.busEnd ≤ 0xFFFF) &&
    devicesWf s.busStart s.busEnd s.devices

/-! ### The platform: what no step changes -/

/-- What of a device is fixed: name, range, and for an ACIA its layout and capacities (20_memory.md R76, R80; 00_scope.md R8). -/
structure DevicePlan where
  name : String
  start : Nat
  stop : Nat
  readOnly : Option Bool
  acia : Option (AciaLayout × Nat × Nat)
deriving DecidableEq, Repr

def Device.plan (d : Device) : DevicePlan :=
  match d.kind with
  | .memory readOnly => { name := d.name, start := d.start, stop := d.stop, readOnly := some readOnly, acia := none }
  | .acia k =>
    { name := d.name, start := d.start, stop := d.stop, readOnly := none, acia := some (k.layout, k.rxCap, k.txCap) }

/-- BEHAVIOUR, the bus window, UNDEF_LEN and the devices' plans are the same in two states. -/
def SamePlatform (s t : State) : Prop :=
  t.behaviour = s.behaviour ∧ t.busStart = s.busStart ∧ t.busEnd = s.busEnd ∧ t.undefLens = s.undefLens ∧
    t.devices.map Device.plan = s.devices.map Device.plan

/-- Whether a read-only Memory device owns an address (20_memory.md R87). -/
def State.isRom (s : State) (a : Word) : Bool :=
  match owner s.devices a with
  | some { kind := .memory true, .. } => true
  | _ => false

/-- Whether a writable Memory device owns an address. -/
def State.isRam (s : State) (a : Word) : Bool :=
  match owner s.devices a with
  | some { kind := .memory false, .. } => true
  | _ => false

/-! ### What statements about instructions say -/

/-- An opcode byte decodes to an instruction made from the two bytes after it (30_encoding.md R143). -/
def Encodes (op : Byte) (i : Byte → Byte → Instr) : Prop := ∀ b1 b2, decodeOp op b1 b2 = i b1 b2

/-- Memory after a byte was stored at an address: every other byte is as before, and where RAM owns the address it holds the byte. -/
def Stored (s t : State) (addr : Word) (v : Byte) : Prop :=
  (∀ b, b ≠ addr → t.memByte b = s.memByte b) ∧ (s.isRam addr = true → t.memByte addr = v)

/-- A store instruction with operand `m` and value `v`, in every outcome: a fault of the pointer reads or of the write is the step's; else the
write's state is the next state, in which only memory at the effective address, ACIAs, the IRQ latch and the draw counters can differ. -/
def StoreMeaning (i : Instr) (s : State) (m : MemOperand) (v : Byte) : Prop :=
  (∀ f, ea s m = .error f → exec i s = .fault f) ∧
  ∀ e, ea s m = .ok e →
    (∀ f, write8 e.st e.val v = .error f → exec i s = .fault f) ∧
    (s.writable e.val = true → ∃ t, exec i s = .next t ∧ write8 e.st e.val v = .ok t ∧
      t = { s with devices := t.devices, mem := t.mem, irqPending := t.irqPending, draws := t.draws } ∧
      Stored s t e.val v)

/-- A read-modify-write of the memory operand `m` (42_shift_rmw_bit.md R300), in every outcome: `f` gives the new byte and flags from the
flags and the byte read; one read, one write of the same address. -/
def RmwMeaning (i : Instr) (s : State) (m : MemOperand) (f : Flags → Byte → AluOut) : Prop :=
  (∀ x, ea s m = .error x → exec i s = .fault x) ∧
  ∀ e, ea s m = .ok e →
    (∀ x, read8 e.st e.val = .error x → exec i s = .fault x) ∧
    ∀ r, read8 e.st e.val = .ok r →
      (∀ x, write8 { r.st with flags := (f s.flags r.val).flags } e.val (f s.flags r.val).val = .error x →
        exec i s = .fault x) ∧
      (s.writable e.val = true → ∃ t, exec i s = .next t ∧
        write8 { r.st with flags := (f s.flags r.val).flags } e.val (f s.flags r.val).val = .ok t ∧
        t = { s with flags := (f s.flags r.val).flags, devices := t.devices, mem := t.mem, irqPending := t.irqPending,
                     draws := t.draws } ∧
        Stored s t e.val (f s.flags r.val).val)

/-- A push instruction of the byte `v` (10_state.md R46), in every outcome. -/
def PushMeaning (i : Instr) (s : State) (v : Byte) : Prop :=
  (∀ f, write8 s (stackAddr s.sp) v = .error f → exec i s = .fault f) ∧
  (s.writable (stackAddr s.sp) = true → ∃ t, exec i s = .next t ∧
    (∃ u, write8 s (stackAddr s.sp) v = .ok u ∧ t = { u with sp := s.sp - 1 }) ∧
    t = { s with sp := s.sp - 1, devices := t.devices, mem := t.mem, irqPending := t.irqPending, draws := t.draws } ∧
    Stored s t (stackAddr s.sp) v)

/-- A pull instruction that makes the CPU state `k` of the byte pulled (10_state.md R47), in every outcome. `k` is applied to the state whose
SP and ACIAs are those after the pull. -/
def PullMeaning (i : Instr) (s : State) (k : State → Byte → State) : Prop :=
  (∀ f, read8 { s with sp := s.sp + 1 } (stackAddr (s.sp + 1)) = .error f → exec i s = .fault f) ∧
  ∀ r, read8 { s with sp := s.sp + 1 } (stackAddr (s.sp + 1)) = .ok r →
    exec i s = .next (k { s with sp := s.sp + 1, devices := r.st.devices, draws := r.st.draws } r.val)

/-- An instruction that loads the operand `m` and makes the CPU state `k` of the byte, in every outcome. `k` is applied to the state whose
ACIAs are those after the operand was read. -/
def LoadMeaning (i : Instr) (s : State) (m : Source) (k : State → Byte → State) : Prop :=
  (∀ f, load s m = .error f → exec i s = .fault f) ∧
  ∀ r, load s m = .ok r → exec i s = .next (k { s with devices := r.st.devices, draws := r.st.draws } r.val)

/-- The flags with Z and N those of a byte (10_state.md R45), written out. -/
def nzOf (f : Flags) (v : Byte) : Flags := { f with z := decide (v.toNat = 0), n := decide (0x80 ≤ v.toNat) }

/-- `sext_16(b)` (00_scope.md R10). -/
def sext16 (b : Byte) : Nat := if b.toNat < 0x80 then b.toNat else b.toNat + 0xFF00

/-- The three stack bytes an interrupt entry or BRK pushes lie in RAM, and the two bytes of the vector in memory. -/
def EntryInMemory (s : State) (vec : Word) : Prop :=
  s.isRam (stackAddr s.sp) = true ∧ s.isRam (stackAddr (s.sp - 1)) = true ∧ s.isRam (stackAddr (s.sp - 2)) = true ∧
    s.isMemory vec = true ∧ s.isMemory (vec + 1) = true

/-- Memory with a return address, high byte first, and a status byte pushed. -/
def pushedEntry (s : State) (ret : Word) (p : Byte) : Memory :=
  ((s.mem.write (stackAddr s.sp).toNat (highByte ret)).write (stackAddr (s.sp - 1)).toNat (lowByte ret)).write
    (stackAddr (s.sp - 2)).toNat p

/-- The state after an entry with the return address `ret` and the live B set to `brk` (60_exceptions.md R516, 43_control_flow.md R367). -/
def enteredState (s : State) (brk : Bool) (ret vec : Word) : State :=
  { s with
    sp := s.sp - 3
    mem := pushedEntry s ret { s.flags with b := brk }.pack
    flags := { s.flags with b := brk, i := true, d := if s.behaviour.isCmos then false else s.flags.d }
    pc := joinBytes (s.memByte vec) (s.memByte (vec + 1)) }

/-- An entry, in every outcome: B, then the pushes of the return address (high byte first) and of the status byte, then I (and D under
CMOS), then PC from the vector; each access's fault is the step's. -/
def EntryMeaning (o : Host.Outcome State Fault Refusal) (s : State) (brk : Bool) (ret vec : Word) : Prop :=
  (∀ f, push { s with flags := { s.flags with b := brk } } (highByte ret) = .error f → o = .fault f) ∧
  ∀ s1, push { s with flags := { s.flags with b := brk } } (highByte ret) = .ok s1 →
    (∀ f, push s1 (lowByte ret) = .error f → o = .fault f) ∧
    ∀ s2, push s1 (lowByte ret) = .ok s2 →
      (∀ f, push s2 { s.flags with b := brk }.pack = .error f → o = .fault f) ∧
      ∀ s3, push s2 { s.flags with b := brk }.pack = .ok s3 →
        let s4 : State :=
          { s3 with
            flags := { s.flags with b := brk, i := true, d := if s.behaviour.isCmos then false else s.flags.d } }
        (∀ f, read16 s4 vec = .error f → o = .fault f) ∧
        ∀ v, read16 s4 vec = .ok v → o = .next { v.st with pc := v.val }

/-- A sequence of pushes, first byte first. -/
def pushAll (s : State) : List Byte → Except Fault State
  | [] => .ok s
  | v :: vs => do
    let t ← push s v
    pushAll t vs

/-- `n` pulls: the bytes in the order pulled, and the state after. -/
def pullAll (s : State) : Nat → Except Fault (Got (List Byte))
  | 0 => .ok { val := [], st := s }
  | n + 1 => do
    let v ← pull s
    let vs ← pullAll v.st n
    return { val := v.val :: vs.val, st := vs.st }

/-- Page 1 is RAM. -/
def StackInRam (s : State) : Prop := ∀ sp, s.isRam (stackAddr sp) = true

/-- The value of a byte read as two decimal digits. -/
def bcdValue (b : Byte) : Nat := b.toNat / 0x10 * 10 + b.toNat % 0x10

/-- Both nibbles are decimal digits. -/
def IsBcd (b : Byte) : Prop := b.toNat % 0x10 ≤ 9 ∧ b.toNat / 0x10 ≤ 9

/-- A device with its count of status computations set to 0: what of a device is not a free value's counter. -/
def Device.forgetPolls (d : Device) : Device :=
  match d.kind with
  | .memory _ => d
  | .acia k => { d with kind := .acia { k with polls := 0 } }

/-! ### The end of a run (70_reset_and_hazards.md R608) -/

/-- The step from `s` to `t` parks: an instruction step that leaves PC at its own address. -/
def Parked (s t : State) : Prop := stepKind s = .instr ∧ step s = .next t ∧ t.pc = t.instAddr

end Sys2Proof.Machine
end

