-- ==== Sys2Proof/Certificates/Slice0/Obligations.lean ====
section
/-! DEFINITION. The statements for the provers, from the spec's numbered rules. A shape such as `LoadMeaning` or `RmwMeaning` is defined in
Sys2Proof/Safety.lean. "Defined" is 30_encoding.md R142: a CMOS-only form under NMOS is covered by `UndefinedOpcodesOnlyTrap`. -/

open Sys2Proof Sys2Proof.Machine

/-- For every UNDEF_LEN, well-formed instruction and tail, decoding the encoded bytes gives the instruction and the tail (30_encoding.md R143, R144). -/
def Obligations.DecodeOfEncodeIsIdentity : Prop :=
  ∀ (l : UndefLens) (i : Instr) (rest : List Byte), i.wf = true → decode l (encode l i ++ rest) = .ok (i, rest)

/-- Every opcode and operand bytes decode to a well-formed instruction that encodes to the same bytes; the 46 undefined opcodes decode to themselves. -/
def Obligations.EncodeOfDecodeIsIdentity : Prop :=
  ∀ (l : UndefLens) (op b1 b2 : Byte),
    (decodeOp op b1 b2).wf = true ∧ (decodeOp op b1 b2).opcode = op ∧
    (undefinedOpcodes.contains op = false →
      encode l (decodeOp op b1 b2) = [op, b1, b2].take (opLength l op).toNat) ∧
    (undefinedOpcodes.contains op = true → decodeOp op b1 b2 = .undefined op)

/-- A sanity statement: one word per family (30_encoding.md R143). -/
def Obligations.WordsOfEachFamilyDecode : Prop :=
  decodeTableWord 16 0xF0B5 = some (.lda (.zpx 0xF0)) ∧ decodeTableWord 16 0x1096 = some (.stx (.zpy 0x10)) ∧
  decodeTableWord 8 0x08 = some .php ∧ decodeTableWord 16 0x0169 = some (.adc (.imm 0x01)) ∧
  decodeTableWord 16 0x10D1 = some (.cmp (.iny 0x10)) ∧ decodeTableWord 24 0x20002C = some (.bit (.abs 0x2000)) ∧
  decodeTableWord 24 0x34127E = some (.ror (.abx 0x3412)) ∧ decodeTableWord 16 0x4437 = some (.rmb3 0x44) ∧
  decodeTableWord 16 0xFED0 = some (.bne 0xFE) ∧ decodeTableWord 24 0x0D120F = some (.bbr0 0x12 0x0D) ∧
  decodeTableWord 24 0x34FF6C = some (.jmp (.ind 0x34FF)) ∧ decodeTableWord 24 0x070020 = some (.jsr 0x0700) ∧
  decodeTableWord 8 0x00 = some .brk ∧ decodeTableWord 8 0xF8 = some .sed ∧
  decodeTableWord 8 0x03 = some (.undefined 0x03)

/-- R142 and R408: which opcodes are defined under which behaviour (the 59 listed are those R143 marks CMOS only), and what every other one
does: opTrap is set, nothing else changes. The length is `LengthIsReadFromTheFirstByte`. -/
def Obligations.UndefinedOpcodesOnlyTrap : Prop :=
  (let cmosOnly : List Byte :=
    [0x04, 0x07, 0x0C, 0x0F, 0x12, 0x14, 0x17, 0x1A, 0x1C, 0x1F, 0x27, 0x2F, 0x32, 0x34, 0x37,
     0x3A, 0x3C, 0x3F, 0x47, 0x4F, 0x52, 0x57, 0x5A, 0x5F, 0x64, 0x67, 0x6F, 0x72, 0x74, 0x77,
     0x7A, 0x7C, 0x7F, 0x80, 0x87, 0x89, 0x8F, 0x92, 0x97, 0x9C, 0x9E, 0x9F, 0xA7, 0xAF, 0xB2,
     0xB7, 0xBF, 0xC7, 0xCF, 0xD2, 0xD7, 0xDA, 0xDF, 0xE7, 0xEF, 0xF2, 0xF7, 0xFA, 0xFF]
  cmosOnly.length = 59 ∧
  ∀ (b : Behaviour) (op b1 b2 : Byte), (decodeOp op b1 b2).defined b =
    decide (op ∉ undefinedOpcodes ∧ (op ∈ cmosOnly → b = .cmos6502 ∨ b = .cmos65816))) ∧
  (∀ b : Behaviour, ((List.range 256).filter fun n => (decodeOp (BitVec.ofNat 8 n) 0 0).defined b).length =
    if b.isCmos then 210 else 151) ∧
  (∀ op b1 b2 : Byte, (∀ b : Behaviour, (decodeOp op b1 b2).defined b = false) ↔ op ∈ undefinedOpcodes) ∧
  undefinedOpcodes.length = 46 ∧
  (∀ op b1 b2 : Byte, op ∈ undefinedOpcodes → decodeOp op b1 b2 = .undefined op) ∧
  ∀ (s : State) (i : Instr), i.defined s.behaviour = false → exec i s = .next { s with opTrap := true }

/-- R144: LEN(op). No argument is a behaviour, so an opcode undefined under NMOS keeps its CMOS length. -/
def Obligations.LengthIsReadFromTheFirstByte : Prop :=
  (∀ (l : UndefLens) (op b1 b2 : Byte), (decodeOp op b1 b2).length l = opLength l op) ∧
  (∀ (l l' : UndefLens) (op : Byte), op ∉ undefinedOpcodes → opLength l op = opLength l' op) ∧
  (∀ (l : UndefLens) (op : Byte), op ∈ undefinedOpcodes → opLength l op = l.length op) ∧
  ∀ f : Byte → InstrLen, ∃ l : UndefLens, ∀ op ∈ undefinedOpcodes, opLength l op = f op

/-- R122, R123, R513: the order of a step, and what state an instruction executes in. -/
def Obligations.StepRunsDecodedInstruction : Prop :=
  ∀ s : State, s.phase = .running →
    (s.nmiPending = true → step s = finish (enterInterrupt { s with opTrap := false } .nmi)) ∧
    (s.nmiPending = false → s.irqPending = true → s.flags.i = false →
      step s = finish (enterInterrupt { s with opTrap := false } .irq)) ∧
    (s.nmiPending = false → (s.irqPending = false ∨ s.flags.i = true) →
      (∀ (i : Instr) (rest : List Byte),
        decode s.undefLens [s.memByte s.pc, s.memByte (s.pc + 1), s.memByte (s.pc + 2)] = .ok (i, rest) →
        (∀ k < (i.length s.undefLens).toNat, s.isMemory (s.pc + BitVec.ofNat 16 k) = true) →
        step s = exec i
          { s with
            opTrap := false, instAddr := s.pc, ir := s.memByte s.pc,
            pc := s.pc + BitVec.ofNat 16 (i.length s.undefLens).toNat }) ∧
      (∀ f, fetch { s with opTrap := false } = .ok f → step s = exec f.val f.st) ∧
      (∀ x, fetch { s with opTrap := false } = .error x → step s = .fault x))

/-- The first access that fails names the fault (R505); a fetch makes as many accesses as the opcode says. -/
def Obligations.FetchFaultEndsStep : Prop :=
  ∀ s : State, s.phase = .running → stepKind s = .instr →
    (owner s.devices s.pc = none → step s = .fault (.bus .unmapped s.pc)) ∧
    (s.isMemory s.pc = true → owner s.devices (s.pc + 1) = none → opLength s.undefLens (s.memByte s.pc) ≠ .one →
      step s = .fault (.bus .unmapped (s.pc + 1))) ∧
    (s.isMemory s.pc = true → s.isMemory (s.pc + 1) = true → owner s.devices (s.pc + 2) = none →
      opLength s.undefLens (s.memByte s.pc) = .three → step s = .fault (.bus .unmapped (s.pc + 2)))

/-- R514 to R517, in every outcome and, with the stack in RAM and the vector in memory, as the whole next state. -/
def Obligations.InterruptEntry : Prop :=
  ∀ s : State,
    EntryMeaning (finish (enterInterrupt s .nmi)) { s with nmiPending := false } false s.pc 0xFFFA ∧
    EntryMeaning (finish (enterInterrupt s .irq)) { s with irqPending := false } false s.pc 0xFFFE ∧
    (EntryInMemory s 0xFFFA →
      enterInterrupt s .nmi = .ok { enteredState s false s.pc 0xFFFA with nmiPending := false }) ∧
    (EntryInMemory s 0xFFFE →
      enterInterrupt s .irq = .ok { enteredState s false s.pc 0xFFFE with irqPending := false })

/-- A rule of the whole machine: no other event sets opTrap, and every step clears it (R41). -/
def Obligations.OpTrapMarksUndefinedInstruction : Prop :=
  ∀ s t : State, step s = .next t →
    (t.opTrap = true ↔
      stepKind s = .instr ∧ ∃ f, fetch { s with opTrap := false } = .ok f ∧ f.val.defined s.behaviour = false)

/-- The invariant `State.wf` is inductive. -/
def Obligations.StepKeepsInvariant : Prop :=
  ∀ s t : State, s.wf = true → step s = .next t → t.wf = true

/-- The reset values of R600 on the default platform, which is the model's choice (log 1). -/
def Obligations.ResetMeetsInvariant : Prop :=
  State.reset.wf = true ∧ State.reset.sp = 0xFF ∧ State.reset.flags.c = false ∧ State.reset.flags.i = false ∧
  State.reset.flags.d = false ∧ State.reset.flags.b = false ∧ State.reset.flags.v = false ∧
  State.reset.opTrap = false ∧ State.reset.irqPending = false ∧ State.reset.nmiPending = false ∧
  State.reset.pc = joinBytes (State.reset.memByte 0xFFFC) (State.reset.memByte 0xFFFD)

/-- The parameters are constants of a run, and the bus "does not change while the machine runs" (R80). -/
def Obligations.StepKeepsPlatform : Prop :=
  ∀ s t : State, step s = .next t → SamePlatform s t ∧ t.phase = .running

/-- The only protection of the machine (R96), as a rule over all instructions and interrupt entries. -/
def Obligations.StepNeverChangesRom : Prop :=
  ∀ (s t : State) (a : Word), s.isRom a = true → step s = .next t → t.memByte a = s.memByte a

/-- With `StepKeepsInvariant`: the invariant holds along every run of steps and host actions. The model's choices in it: after a fault the
drawn FIFOs stay within their capacities and drawn memory lies in Memory devices (R501 says that state is unspecified; log 10), and an ACIA
with a capacity below 1 is refused (log 22). -/
def Obligations.HostActionsKeepInvariant : Prop :=
  ∀ (s : State) (a : HostAction), s.wf = true → (act s a).st.wf = true

/-- R82, R86 and R97, and R530 for the offsets with no register, on writes too. A write of memory is `BusWriteRouting`; what a register's read
answers, `Acia.cpuRead` and `Acia.windowRead`, is `AciaCpuReads` and `WindowReadsAndStackPeekChangeNothing`. -/
def Obligations.BusReadRouting : Prop :=
  (∀ (name : String) (base size : Int) (layout : AciaLayout) (rxCap txCap : Nat), 1 ≤ rxCap → 1 ≤ txCap →
    ((∃ n, construct name base size (.acia layout rxCap txCap) = .ok n) ↔
      size ≥ 1 ∧ base ≥ 0 ∧ base + size - 1 ≤ 0xFFFF)) ∧
  ∀ (s : State) (a : Word),
    (owner s.devices a = none ↔ ∀ d ∈ s.devices, d.contains a = false) ∧
    (∀ d, owner s.devices a = some d → d ∈ s.devices ∧ d.start ≤ a.toNat ∧ a.toNat ≤ d.stop) ∧
    (s.wf = true → ∀ d ∈ s.devices, d.contains a = true → owner s.devices a = some d) ∧
    (owner s.devices a = none → read8 s a = .error (.bus .unmapped a) ∧ windowRead8 s a = .error (.bus .unmapped a)) ∧
    (s.isMemory a = true → read8 s a = .ok ⟨s.memByte a, s⟩ ∧ windowRead8 s a = .ok ⟨s.memByte a, s⟩) ∧
    (∀ d k, owner s.devices a = some d → d.kind = .acia k →
      let nregs := match k.layout with
        | .a6551 => 4
        | .a6850 => 2
      (nregs ≤ a.toNat - d.start →
        read8 s a = .error (.bus .noRegister a) ∧ windowRead8 s a = .error (.bus .noRegister a) ∧
        ∀ v, write8 s a v = .error (.bus .noRegister a)) ∧
      (a.toNat - d.start < nregs → ∃ r, aciaReadReg k.layout (a.toNat - d.start) = some r) ∧
      ∀ r, aciaReadReg k.layout (a.toNat - d.start) = some r →
        (let o := k.cpuRead d.start s.draws r
        read8 s a = .ok ⟨o.val, { s with devices := setAcia s.devices a o.acia, draws := o.draws }⟩) ∧
        (let o := k.windowRead d.start s.draws r
        windowRead8 s a = .ok ⟨o.val, { s with devices := setAcia s.devices a o.acia, draws := o.draws }⟩)) ∧
    (s.readable a = true → ∃ r, read8 s a = .ok r ∧
      r.st = { s with devices := r.st.devices, draws := r.st.draws } ∧ SamePlatform s r.st)

/-- R83, R87, and the frame of a write. -/
def Obligations.BusWriteRouting : Prop :=
  ∀ (s : State) (a : Word) (v : Byte), s.mem.wf = true →
    (owner s.devices a = none → write8 s a v = .error (.bus .unmapped a)) ∧
    (s.isRom a = true → write8 s a v = .error (.bus .readOnly a)) ∧
    (s.isRam a = true → ∃ t, write8 s a v = .ok t ∧ t = { s with mem := t.mem } ∧ t.memByte a = v) ∧
    (∀ d k, owner s.devices a = some d → d.kind = .acia k → aciaWriteReg k.layout (a.toNat - d.start) = none →
      write8 s a v = .error (.bus .noRegister a)) ∧
    (s.writable a = true → ∃ t, write8 s a v = .ok t ∧
      t = { s with devices := t.devices, mem := t.mem, irqPending := t.irqPending } ∧ SamePlatform s t ∧
      t.mem.wf = true ∧ ∀ b, b ≠ a → t.memByte b = s.memByte b)

/-- R79 for both kinds of device, an ACIA in its power-on state (R531), and R81. What the new range of a Memory device holds is
`AddedMemoryHoldsInitialContents`. -/
def Obligations.AddDeviceRegistersOrRejects : Prop :=
  (∀ (name : String) (base size : Int) (ro : Bool) (init : MemInit) (layout : AciaLayout) (rxCap txCap : Nat),
    1 ≤ rxCap → 1 ≤ txCap →
    let device (kind : DeviceKind) : Device :=
      { name := name, start := base.toNat, stop := (base + size - 1).toNat, kind := kind }
    (size ≥ 1 ∧ base ≥ 0 ∧ base + size - 1 ≤ 0xFFFF →
      (∃ n, construct name base size (.memory ro init) = .ok n ∧ n.device = device (.memory ro) ∧
        n.device.start + n.contents.length ≤ n.device.stop + 1) ∧
      ∃ n, construct name base size (.acia layout rxCap txCap) = .ok n ∧ n.contents = [] ∧
        n.device = device (.acia
          { layout := layout, rxCap := rxCap, txCap := txCap, rx := [], tx := [], command := 0, control := 0,
            rxIrqEn := false, txIrqEn := false, overrun := false, irq := false, polls := 0 })) ∧
    (¬(size ≥ 1 ∧ base ≥ 0 ∧ base + size - 1 ≤ 0xFFFF) →
      construct name base size (.memory ro init) = .error .rangeError ∧
      construct name base size (.acia layout rxCap txCap) = .error .rangeError)) ∧
  ∀ (s : State) (n : NewDevice),
    ((∃ d ∈ s.devices, d.start ≤ n.device.stop ∧ n.device.start ≤ d.stop) → addDevice s n = ⟨.rangeError, s⟩) ∧
    (n.device.start < s.busStart ∨ s.busEnd < n.device.stop → addDevice s n = ⟨.rangeError, s⟩) ∧
    ((∀ d ∈ s.devices, ¬(d.start ≤ n.device.stop ∧ n.device.start ≤ d.stop)) →
      s.busStart ≤ n.device.start → n.device.stop ≤ s.busEnd →
      (addDevice s n).reply = .ok ∧ (addDevice s n).st.devices.Perm (n.device :: s.devices) ∧
      (addDevice s n).st = { s with devices := (addDevice s n).st.devices, mem := (addDevice s n).st.mem } ∧
      (n.device.start + n.contents.length ≤ n.device.stop + 1 →
        ∀ a : Word, a.toNat < n.device.start ∨ n.device.stop < a.toNat →
          (addDevice s n).st.memByte a = s.memByte a) ∧
      (s.wf = true → n.device.start ≤ n.device.stop →
        (addDevice s n).st.devices.Pairwise (fun d e => d.stop < e.start)))

/-- R86 and D24: MEM_INIT, a fill or an image, as the CPU reads it back after construction and `addDevice`. The model's choices in it: the
initial bytes are those a constructed device carries, a long image is cut to the device and a short one followed by its fill (log 23), and a
byte the device does not list is the fill 0x00 (log 9). -/
def Obligations.AddedMemoryHoldsInitialContents : Prop :=
  ∀ (s : State) (name : String) (base size : Int) (ro : Bool) (init : MemInit) (n : NewDevice), s.wf = true →
    construct name base size (.memory ro init) = .ok n → (addDevice s n).reply = .ok →
    ∀ i : Nat, (i : Int) < size →
      let a : Word := BitVec.ofNat 16 (base.toNat + i)
      let v : Byte := match init with
        | .fill v => v
        | .image bytes v => bytes.getD i v
      n.contents.getD i 0x00 = v ∧ (addDevice s n).st.memByte a = v ∧
      read8 (addDevice s n).st a = .ok ⟨v, (addDevice s n).st⟩

/-- R85: completeness by tiling is coverage of the window. -/
def Obligations.CompleteBusOwnsTheWindow : Prop :=
  (∀ s : State, s.devices = [] → s.isComplete = false) ∧
  ∀ s : State, s.wf = true →
    (s.isComplete = true ↔
      s.devices ≠ [] ∧ ∀ n, s.busStart ≤ n → n ≤ s.busEnd → ∃ d ∈ s.devices, d.start ≤ n ∧ n ≤ d.stop)

/-- R532 to R535. What the registers do is in the statements about their reads and writes. -/
def Obligations.AciaRegistersAndStatus : Prop :=
  [0, 1, 2, 3].map (aciaReadReg .a6551) = [some .data, some .status, some .command, some .control6551] ∧
  [0, 1, 2, 3].map (aciaWriteReg .a6551) = [some .data, some .status, some .command, some .control6551] ∧
  [0, 1].map (aciaReadReg .a6850) = [some .status, some .data] ∧
  [0, 1].map (aciaWriteReg .a6850) = [some .control6850, some .data] ∧
  (∀ n, 4 ≤ n → aciaReadReg .a6551 n = none ∧ aciaWriteReg .a6551 n = none) ∧
  (∀ n, 2 ≤ n → aciaReadReg .a6850 n = none ∧ aciaWriteReg .a6850 n = none) ∧
  ∀ (base : Nat) (k : Acia),
    (k.layout = .a6551 →
      (k.status base).getLsbD 7 = k.irq ∧ (k.status base).getLsbD 6 = false ∧ (k.status base).getLsbD 5 = false ∧
      (k.status base).getLsbD 4 = (decide (k.tx.length < k.txCap) && k.txReady base) ∧
      (k.status base).getLsbD 3 = (decide (k.rx.length > 0) && k.rxReady base) ∧
      (k.status base).getLsbD 2 = k.overrun ∧ (k.status base).getLsbD 1 = false ∧ (k.status base).getLsbD 0 = false) ∧
    (k.layout = .a6850 →
      (k.status base).getLsbD 7 = k.irq ∧ (k.status base).getLsbD 6 = false ∧ (k.status base).getLsbD 5 = k.overrun ∧
      (k.status base).getLsbD 4 = false ∧ (k.status base).getLsbD 3 = false ∧ (k.status base).getLsbD 2 = false ∧
      (k.status base).getLsbD 1 = (decide (k.tx.length < k.txCap) && k.txReady base) ∧
      (k.status base).getLsbD 0 = (decide (k.rx.length > 0) && k.rxReady base))

/-- R547. The gaps between ready draws are free values (log 6); the statement holds for every value of them. -/
def Obligations.AciaReadinessIsFair : Prop :=
  (∀ (base : Nat) (k : Acia), k.layout = .a6551 → k.control.toNat % 16 = 0 →
    k.rxReady base = true ∧ k.txReady base = true) ∧
  (∀ (base : Nat) (k : Acia) (n : Nat),
    (∃ m, n ≤ m ∧ Acia.rxReady base { k with polls := m } = true) ∧
    (∃ m, n ≤ m ∧ Acia.txReady base { k with polls := m } = true)) ∧
  ∀ (base draws : Nat) (k : Acia),
    (k.cpuRead base draws .status).acia.polls = k.polls + 1 ∧
    (k.windowRead base draws .status).acia.polls = k.polls + 1

/-- R540, R541, and the plain registers of R532. -/
def Obligations.AciaCpuReads : Prop :=
  ∀ (s : State) (a : Word) (d : Device) (k : Acia), owner s.devices a = some d → d.kind = .acia k →
    (aciaReadReg k.layout (a.toNat - d.start) = some .data →
      (k.rx = [] → read8 s a = .ok ⟨Config.drawByte s.draws, { s with draws := s.draws + 1 }⟩) ∧
      (∀ v rest, k.rx = v :: rest →
        read8 s a = .ok ⟨v, { s with devices := setAcia s.devices a { k with rx := rest, overrun := false } }⟩)) ∧
    (aciaReadReg k.layout (a.toNat - d.start) = some .status →
      read8 s a = .ok ⟨k.status d.start,
        { s with devices := setAcia s.devices a { k with irq := false, polls := k.polls + 1 } }⟩) ∧
    (aciaReadReg k.layout (a.toNat - d.start) = some .command → read8 s a = .ok ⟨k.command, s⟩) ∧
    (aciaReadReg k.layout (a.toNat - d.start) = some .control6551 → read8 s a = .ok ⟨k.control, s⟩)

/-- R536 to R539 and R544, with `raiseIfEnabled` written out. -/
def Obligations.AciaCpuWrites : Prop :=
  ∀ (s : State) (a : Word) (v : Byte) (d : Device) (k : Acia), owner s.devices a = some d → d.kind = .acia k →
    let put (k' : Acia) (raised : Bool) : Except Fault State :=
      .ok { s with devices := setAcia s.devices a k', irqPending := s.irqPending || raised }
    let cleared (k' : Acia) : Acia :=
      { k' with rx := [], tx := [], overrun := false, irq := false, rxIrqEn := false, txIrqEn := false }
    let due (k' : Acia) : Bool := k'.rxIrqEn && decide (k'.rx.length > 0) || k'.txIrqEn && decide (k'.tx.length = 0)
    let raise (k' : Acia) : Except Fault State := put { k' with irq := k'.irq || due k' } (due k')
    (aciaWriteReg k.layout (a.toNat - d.start) = some .data →
      write8 s a v = put { k with tx := (if k.tx.length = k.txCap then k.tx.tail else k.tx) ++ [v] } false) ∧
    (aciaWriteReg k.layout (a.toNat - d.start) = some .status → write8 s a v = put (cleared k) false) ∧
    (aciaWriteReg k.layout (a.toNat - d.start) = some .command →
      write8 s a v = raise
        { k with command := v, rxIrqEn := decide (v.toNat / 2 % 2 = 0), txIrqEn := decide (v.toNat / 4 % 4 = 1) }) ∧
    (aciaWriteReg k.layout (a.toNat - d.start) = some .control6551 → write8 s a v = put { k with control := v } false) ∧
    (aciaWriteReg k.layout (a.toNat - d.start) = some .control6850 →
      (v.toNat % 4 = 3 → write8 s a v = put (cleared { k with control := v }) false) ∧
      (v.toNat % 4 ≠ 3 →
        write8 s a v = raise
          { k with control := v, rxIrqEn := decide (v.toNat / 128 = 1), txIrqEn := decide (v.toNat / 32 % 4 = 1) }))

/-- R546, R548 and R550. -/
def Obligations.AciaSerialSide : Prop :=
  ∀ (s : State) (a : Word) (v : Byte) (d : Device) (k : Acia), owner s.devices a = some d → d.kind = .acia k →
    act s (.rxWrite a v) =
      ⟨.ok, { s with
        devices := setAcia s.devices a
          { k with
            rx := (if k.rx.length = k.rxCap then k.rx.tail else k.rx) ++ [v]
            overrun := k.overrun || decide (k.rx.length > 0)
            irq := k.irq || k.rxIrqEn }
        irqPending := s.irqPending || k.rxIrqEn }⟩ ∧
    (k.tx = [] → act s (.txRead a) = ⟨.fifoUnderrun, s⟩) ∧
    (∀ b rest, k.tx = b :: rest →
      act s (.txRead a) =
        ⟨.value b.toNat, { s with
          devices := setAcia s.devices a
            { k with tx := rest, irq := k.irq || (decide (rest.length = 0) && k.txIrqEn) }
          irqPending := s.irqPending || (decide (rest.length = 0) && k.txIrqEn) }⟩) ∧
    act s (.hasRx a) = ⟨.value (if k.rx.length > 0 then 1 else 0), s⟩ ∧
    act s (.hasTx a) = ⟨.value (if k.tx.length > 0 then 1 else 0), s⟩

/-- R48 and R542. A data read of an empty FIFO gives a free value. -/
def Obligations.WindowReadsAndStackPeekChangeNothing : Prop :=
  ∀ (s : State) (a : Word),
    ((act s (.read a)).st = { s with devices := (act s (.read a)).st.devices, draws := (act s (.read a)).st.draws } ∧
      (act s (.read a)).st.devices.map Device.forgetPolls = s.devices.map Device.forgetPolls) ∧
    ((act s .stackPeek).st = { s with devices := (act s .stackPeek).st.devices, draws := (act s .stackPeek).st.draws } ∧
      (act s .stackPeek).st.devices.map Device.forgetPolls = s.devices.map Device.forgetPolls) ∧
    (∀ d k, owner s.devices a = some d → d.kind = .acia k →
      (aciaReadReg k.layout (a.toNat - d.start) = some .data →
        (k.rx = [] → (act s (.read a)).reply = .value (Config.drawByte s.draws).toNat) ∧
        ∀ v rest, k.rx = v :: rest → (act s (.read a)).reply = .value v.toNat) ∧
      (aciaReadReg k.layout (a.toNat - d.start) = some .status →
        (act s (.read a)).reply = .value (k.status d.start).toNat) ∧
      (aciaReadReg k.layout (a.toNat - d.start) = some .command → (act s (.read a)).reply = .value k.command.toNat) ∧
      (aciaReadReg k.layout (a.toNat - d.start) = some .control6551 →
        (act s (.read a)).reply = .value k.control.toNat)) ∧
    (s.isMemory (0x0100 + (s.sp + 1).setWidth 16) = true →
      act s .stackPeek = ⟨.value (s.memByte (0x0100 + (s.sp + 1).setWidth 16)).toNat, s⟩ ∧
      ∃ u, pull s = .ok ⟨s.memByte (0x0100 + (s.sp + 1).setWidth 16), u⟩)

/-- R39 and R40. -/
def Obligations.StatusByteRoundTrip : Prop :=
  (∀ f : Flags,
    f.pack.toNat = 128 * f.n.toNat + 64 * f.v.toNat + 32 + 16 * f.b.toNat + 8 * f.d.toNat + 4 * f.i.toNat +
      2 * f.z.toNat + f.c.toNat ∧
    f.pack &&& 0x20 = 0x20 ∧ unpackP f.pack = f) ∧
  ∀ p : Byte,
    unpackP p =
      { c := p.getLsbD 0, z := p.getLsbD 1, i := p.getLsbD 2, d := p.getLsbD 3, b := p.getLsbD 4, v := p.getLsbD 6,
        n := p.getLsbD 7 } ∧
    unpackP (p ||| 0x20) = unpackP p

/-- R46 and R47 with the law of R47, for every number of bytes up to 256. -/
def Obligations.StackPushesThenPulls : Prop :=
  (∀ (s : State) (v : Byte),
    (∀ f, write8 s (0x0100 + s.sp.setWidth 16) v = .error f → push s v = .error f) ∧
    (∀ t, write8 s (0x0100 + s.sp.setWidth 16) v = .ok t → push s v = .ok { t with sp := s.sp - 1 }) ∧
    pull s = read8 { s with sp := s.sp + 1 } (0x0100 + (s.sp + 1).setWidth 16)) ∧
  ∀ (s : State) (bytes : List Byte), s.mem.wf = true → StackInRam s → bytes.length ≤ 256 →
    ∃ t u, pushAll s bytes = .ok t ∧ t.sp = s.sp - BitVec.ofNat 8 bytes.length ∧
      pullAll t bytes.length = .ok ⟨bytes.reverse, u⟩ ∧ u.sp = s.sp

/-- R127 to R132, over the integers. -/
def Obligations.DirectEffectiveAddresses : Prop :=
  ∀ (s : State) (b1 b2 : Byte),
    ea s (.zpg b1) = .ok ⟨BitVec.ofNat 16 b1.toNat, s⟩ ∧
    ea s (.zpx b1) = .ok ⟨BitVec.ofNat 16 ((b1.toNat + s.x.toNat) % 0x100), s⟩ ∧
    ea s (.zpy b1) = .ok ⟨BitVec.ofNat 16 ((b1.toNat + s.y.toNat) % 0x100), s⟩ ∧
    ea s (.abs (joinBytes b1 b2)) = .ok ⟨BitVec.ofNat 16 (b2.toNat * 0x100 + b1.toNat), s⟩ ∧
    ea s (.abx (joinBytes b1 b2)) = .ok ⟨BitVec.ofNat 16 (b2.toNat * 0x100 + b1.toNat + s.x.toNat), s⟩ ∧
    ea s (.aby (joinBytes b1 b2)) = .ok ⟨BitVec.ofNat 16 (b2.toNat * 0x100 + b1.toNat + s.y.toNat), s⟩

/-- R73 and R135 to R137: each pointer as two reads, the low byte's first, the high byte's in the state it leaves, with the fault of either; R126
and R141: what `load` and `store`, named by the statements about instructions, do; and when an operand can be read. a
read-modify-write computes its address once. The order of the fetch's reads before them is `StepRunsDecodedInstruction`. -/
def Obligations.PointerEffectiveAddresses : Prop :=
  ∀ (s : State) (b1 : Byte),
    let at0 (n : Nat) : Word := BitVec.ofNat 16 (n % 0x100)
    let readsPair (o : Except Fault (Got Word)) (p q : Word) (add : Nat) : Prop :=
      (∀ f, read8 s p = .error f → o = .error f) ∧
      ∀ lo, read8 s p = .ok lo →
        (∀ f, read8 lo.st q = .error f → o = .error f) ∧
        ∀ hi, read8 lo.st q = .ok hi →
          o = .ok ⟨BitVec.ofNat 16 (hi.val.toNat * 0x100 + lo.val.toNat + add), hi.st⟩
    let pointer (z : Nat) : Nat := (s.memByte (at0 (z + 1))).toNat * 0x100 + (s.memByte (at0 z)).toNat
    let inMemory (z : Nat) : Prop := s.isMemory (at0 z) = true ∧ s.isMemory (at0 (z + 1)) = true
    let canRead (z : Nat) : Prop := s.readable (at0 z) = true ∧ s.readable (at0 (z + 1)) = true
    (∀ a : Word, readsPair (read16 s a) a (BitVec.ofNat 16 (a.toNat + 1)) 0) ∧
    readsPair (read16zp s b1) (at0 b1.toNat) (at0 (b1.toNat + 1)) 0 ∧
    readsPair (ea s (.zpi b1)) (at0 b1.toNat) (at0 (b1.toNat + 1)) 0 ∧
    readsPair (ea s (.xin b1)) (at0 (b1.toNat + s.x.toNat)) (at0 (b1.toNat + s.x.toNat + 1)) 0 ∧
    readsPair (ea s (.iny b1)) (at0 b1.toNat) (at0 (b1.toNat + 1)) s.y.toNat ∧
    (inMemory b1.toNat → ea s (.zpi b1) = .ok ⟨BitVec.ofNat 16 (pointer b1.toNat), s⟩) ∧
    (inMemory (b1.toNat + s.x.toNat) →
      ea s (.xin b1) = .ok ⟨BitVec.ofNat 16 (pointer (b1.toNat + s.x.toNat)), s⟩) ∧
    (inMemory b1.toNat → ea s (.iny b1) = .ok ⟨BitVec.ofNat 16 (pointer b1.toNat + s.y.toNat), s⟩) ∧
    ((∃ e, ea s (.zpi b1) = .ok e) ↔ canRead b1.toNat) ∧
    ((∃ e, ea s (.xin b1) = .ok e) ↔ canRead (b1.toNat + s.x.toNat)) ∧
    ((∃ e, ea s (.iny b1) = .ok e) ↔ canRead b1.toNat) ∧
    load s (.imm b1) = .ok ⟨b1, s⟩ ∧
    (∀ f : Flags → Byte → AluOut,
      rmw s .acc f = .ok { s with a := (f s.flags s.a).val, flags := (f s.flags s.a).flags }) ∧
    ∀ m : MemOperand,
      (∀ x, ea s m = .error x →
        load s (.mem m) = .error x ∧ (∀ v, store s m v = .error x) ∧ ∀ f, rmw s (.mem m) f = .error x) ∧
      ∀ e, ea s m = .ok e →
        load s (.mem m) = read8 e.st e.val ∧ (∀ v, store s m v = write8 e.st e.val v) ∧
        (∀ f : Flags → Byte → AluOut,
          (∀ x, read8 e.st e.val = .error x → rmw s (.mem m) f = .error x) ∧
          ∀ r, read8 e.st e.val = .ok r →
            rmw s (.mem m) f =
              write8 { r.st with flags := (f s.flags r.val).flags } e.val (f s.flags r.val).val) ∧
        (s.readable e.val = true → ∃ r, load s (.mem m) = .ok r)

/-- R600. Nothing is said of the drawn registers. -/
def Obligations.ResetSequence : Prop :=
  ∀ s : State,
    (∀ lo hi, read8 s 0xFFFC = .ok lo → read8 lo.st 0xFFFD = .ok hi →
      (act s .reset).reply = .ok ∧
      let t := (act s .reset).st
      t.pc = joinBytes lo.val hi.val ∧ t.sp = 0xFF ∧ t.flags.c = false ∧ t.flags.i = false ∧ t.flags.d = false ∧
      t.flags.b = false ∧ t.flags.v = false ∧ t.opTrap = false ∧ t.irqPending = false ∧ t.nmiPending = false ∧
      t.phase = .running ∧ t.mem = s.mem ∧ SamePlatform s t ∧ t.devices = hi.st.devices ∧
      (s.isMemory 0xFFFC = true → s.isMemory 0xFFFD = true → t.devices = s.devices)) ∧
    (owner s.devices 0xFFFC = none →
      (act s .reset).reply = .fault .unmapped 0xFFFC ∧ (act s .reset).st.phase = .faulted .unmapped 0xFFFC) ∧
    (s.isMemory 0xFFFC = true → owner s.devices 0xFFFD = none →
      (act s .reset).reply = .fault .unmapped 0xFFFD ∧ (act s .reset).st.phase = .faulted .unmapped 0xFFFD)

/-- R501 and R563, and the stuck states of 93 U7 and U8. The model's choices in it: the platform stays after a fault (log 10), and a step that
has no move, before the first reset or after a fault, is a stuck fault answered `noMove` (log 11). -/
def Obligations.FaultedMachineHasNoMove : Prop :=
  ∀ s : State,
    (∀ t, step s = .next t → act s .step = ⟨.stepped (stepKind s), t⟩) ∧
    (∀ kind addr, step s = .fault (.bus kind addr) →
      (act s .step).reply = .fault kind addr ∧ (act s .step).st.phase = .faulted kind addr ∧
      SamePlatform s (act s .step).st ∧ act (act s .step).st .step = ⟨.noMove, (act s .step).st⟩) ∧
    (s.phase ≠ .running → act s .step = ⟨.noMove, s⟩) ∧
    (s.phase = .running → (∃ t, step s = .next t) ∨ ∃ kind addr, step s = .fault (.bus kind addr))

/-- R88. -/
def Obligations.LoadProgramWritesFromPc : Prop :=
  (∀ (s : State) (bytes : List Byte), s.mem.wf = true → bytes.length ≤ 0x10000 →
    (∀ i < bytes.length, s.isRam (s.pc + BitVec.ofNat 16 i) = true) →
    ∃ t, act s (.loadProgram bytes) = ⟨.ok, t⟩ ∧ t = { s with mem := t.mem } ∧
      (∀ i (h : i < bytes.length), t.memByte (s.pc + BitVec.ofNat 16 i) = bytes[i]) ∧
      ∀ a, (∀ i < bytes.length, a ≠ s.pc + BitVec.ofNat 16 i) → t.memByte a = s.memByte a) ∧
  ∀ (s : State) (a : Word) (v : Byte) (rest : List Byte),
    (∀ kind addr, write8 s a v = .error (.bus kind addr) → loadFrom s a (v :: rest) = ⟨.fault kind addr, s⟩) ∧
    (∀ t, write8 s a v = .ok t → loadFrom s a (v :: rest) = loadFrom t (a + 1) rest)

/-- R561. The model's choice in it: a write of opTrap, IR or instAddr, which R561 forbids, answers RegisterRange (log 24). -/
def Obligations.HostRegisterWrites : Prop :=
  ∀ (s : State) (v : Int),
    (0 ≤ v → v ≤ 0xFF →
      act s (.writeReg .a v) = ⟨.ok, { s with a := BitVec.ofInt 8 v }⟩ ∧
      act s (.writeReg .x v) = ⟨.ok, { s with x := BitVec.ofInt 8 v }⟩ ∧
      act s (.writeReg .y v) = ⟨.ok, { s with y := BitVec.ofInt 8 v }⟩ ∧
      act s (.writeReg .sp v) = ⟨.ok, { s with sp := BitVec.ofInt 8 v }⟩ ∧
      act s (.writeReg .p v) = ⟨.ok, { s with flags := unpackP (BitVec.ofInt 8 v) }⟩) ∧
    (0 ≤ v → v ≤ 0xFFFF → act s (.writeReg .pc v) = ⟨.ok, { s with pc := BitVec.ofInt 16 v }⟩) ∧
    (v < 0 ∨ 0xFF < v → ∀ r ∈ [CpuReg.a, .x, .y, .sp, .p], act s (.writeReg r v) = ⟨.registerRange, s⟩) ∧
    (v < 0 ∨ 0xFFFF < v → act s (.writeReg .pc v) = ⟨.registerRange, s⟩) ∧
    (∀ r ∈ [CpuReg.opTrap, .ir, .instAddr], act s (.writeReg r v) = ⟨.registerRange, s⟩) ∧
    ∀ b : Bool,
      act s (.writeFlag .c b) = ⟨.ok, { s with flags := { s.flags with c := b } }⟩ ∧
      act s (.writeFlag .z b) = ⟨.ok, { s with flags := { s.flags with z := b } }⟩ ∧
      act s (.writeFlag .i b) = ⟨.ok, { s with flags := { s.flags with i := b } }⟩ ∧
      act s (.writeFlag .d b) = ⟨.ok, { s with flags := { s.flags with d := b } }⟩ ∧
      act s (.writeFlag .b b) = ⟨.ok, { s with flags := { s.flags with b := b } }⟩ ∧
      act s (.writeFlag .v b) = ⟨.ok, { s with flags := { s.flags with v := b } }⟩ ∧
      act s (.writeFlag .n b) = ⟨.ok, { s with flags := { s.flags with n := b } }⟩

/-- R200 to R202. -/
def Obligations.LoadInstructions : Prop :=
  (Encodes 0xA1 fun b1 _ => .lda (.xin b1)) ∧ (Encodes 0xA5 fun b1 _ => .lda (.zpg b1)) ∧
  (Encodes 0xA9 fun b1 _ => .lda (.imm b1)) ∧ (Encodes 0xAD fun b1 b2 => .lda (.abs (joinBytes b1 b2))) ∧
  (Encodes 0xB1 fun b1 _ => .lda (.iny b1)) ∧ (Encodes 0xB2 fun b1 _ => .lda (.zpi b1)) ∧
  (Encodes 0xB5 fun b1 _ => .lda (.zpx b1)) ∧ (Encodes 0xB9 fun b1 b2 => .lda (.aby (joinBytes b1 b2))) ∧
  (Encodes 0xBD fun b1 b2 => .lda (.abx (joinBytes b1 b2))) ∧ (Encodes 0xA2 fun b1 _ => .ldx (.imm b1)) ∧
  (Encodes 0xA6 fun b1 _ => .ldx (.zpg b1)) ∧ (Encodes 0xAE fun b1 b2 => .ldx (.abs (joinBytes b1 b2))) ∧
  (Encodes 0xB6 fun b1 _ => .ldx (.zpy b1)) ∧ (Encodes 0xBE fun b1 b2 => .ldx (.aby (joinBytes b1 b2))) ∧
  (Encodes 0xA0 fun b1 _ => .ldy (.imm b1)) ∧ (Encodes 0xA4 fun b1 _ => .ldy (.zpg b1)) ∧
  (Encodes 0xAC fun b1 b2 => .ldy (.abs (joinBytes b1 b2))) ∧ (Encodes 0xB4 fun b1 _ => .ldy (.zpx b1)) ∧
  (Encodes 0xBC fun b1 b2 => .ldy (.abx (joinBytes b1 b2))) ∧
  ∀ s : State,
    (∀ m : AluMode, (Instr.lda m).defined s.behaviour = true →
      LoadMeaning (.lda m) s m.source fun t v => { t with a := v, flags := nzOf s.flags v }) ∧
    (∀ m : LdxMode, LoadMeaning (.ldx m) s m.source fun t v => { t with x := v, flags := nzOf s.flags v }) ∧
    (∀ m : LdyMode, LoadMeaning (.ldy m) s m.source fun t v => { t with y := v, flags := nzOf s.flags v })

/-- R203 to R206. The address is `ea`, the function the meaning uses. -/
def Obligations.StoreInstructions : Prop :=
  (Encodes 0x81 fun b1 _ => .sta (.xin b1)) ∧ (Encodes 0x85 fun b1 _ => .sta (.zpg b1)) ∧
  (Encodes 0x8D fun b1 b2 => .sta (.abs (joinBytes b1 b2))) ∧ (Encodes 0x91 fun b1 _ => .sta (.iny b1)) ∧
  (Encodes 0x92 fun b1 _ => .sta (.zpi b1)) ∧ (Encodes 0x95 fun b1 _ => .sta (.zpx b1)) ∧
  (Encodes 0x99 fun b1 b2 => .sta (.aby (joinBytes b1 b2))) ∧
  (Encodes 0x9D fun b1 b2 => .sta (.abx (joinBytes b1 b2))) ∧ (Encodes 0x86 fun b1 _ => .stx (.zpg b1)) ∧
  (Encodes 0x8E fun b1 b2 => .stx (.abs (joinBytes b1 b2))) ∧ (Encodes 0x96 fun b1 _ => .stx (.zpy b1)) ∧
  (Encodes 0x84 fun b1 _ => .sty (.zpg b1)) ∧ (Encodes 0x8C fun b1 b2 => .sty (.abs (joinBytes b1 b2))) ∧
  (Encodes 0x94 fun b1 _ => .sty (.zpx b1)) ∧ (Encodes 0x64 fun b1 _ => .stz (.zpg b1)) ∧
  (Encodes 0x74 fun b1 _ => .stz (.zpx b1)) ∧ (Encodes 0x9C fun b1 b2 => .stz (.abs (joinBytes b1 b2))) ∧
  (Encodes 0x9E fun b1 b2 => .stz (.abx (joinBytes b1 b2))) ∧
  ∀ s : State, s.mem.wf = true →
    (∀ m : StaMode, (Instr.sta m).defined s.behaviour = true → StoreMeaning (.sta m) s m.operand s.a) ∧
    (∀ m : StxMode, StoreMeaning (.stx m) s m.operand s.x) ∧
    (∀ m : StyMode, StoreMeaning (.sty m) s m.operand s.y) ∧
    (∀ m : StzMode, (Instr.stz m).defined s.behaviour = true → StoreMeaning (.stz m) s m.operand 0x00)

/-- R207 to R212. -/
def Obligations.TransferInstructions : Prop :=
  (Encodes 0xAA fun _ _ => .tax) ∧ (Encodes 0xA8 fun _ _ => .tay) ∧ (Encodes 0x8A fun _ _ => .txa) ∧
  (Encodes 0x98 fun _ _ => .tya) ∧ (Encodes 0xBA fun _ _ => .tsx) ∧ (Encodes 0x9A fun _ _ => .txs) ∧
  ∀ s : State,
    exec .tax s = .next { s with x := s.a, flags := nzOf s.flags s.a } ∧
    exec .tay s = .next { s with y := s.a, flags := nzOf s.flags s.a } ∧
    exec .txa s = .next { s with a := s.x, flags := nzOf s.flags s.x } ∧
    exec .tya s = .next { s with a := s.y, flags := nzOf s.flags s.y } ∧
    exec .tsx s = .next { s with x := s.sp, flags := nzOf s.flags s.sp } ∧
    exec .txs s = .next { s with sp := s.x }

/-- R213, R214, R217, R218. -/
def Obligations.PushInstructions : Prop :=
  (Encodes 0x48 fun _ _ => .pha) ∧ (Encodes 0x08 fun _ _ => .php) ∧ (Encodes 0xDA fun _ _ => .phx) ∧
  (Encodes 0x5A fun _ _ => .phy) ∧
  ∀ s : State, s.mem.wf = true →
    PushMeaning .pha s s.a ∧
    PushMeaning .php s (BitVec.ofNat 8 (128 * s.flags.n.toNat + 64 * s.flags.v.toNat + 0x30 + 8 * s.flags.d.toNat +
      4 * s.flags.i.toNat + 2 * s.flags.z.toNat + s.flags.c.toNat)) ∧
    (s.behaviour.isCmos = true → PushMeaning .phx s s.x ∧ PushMeaning .phy s s.y)

/-- R215, R216, R219, R220. -/
def Obligations.PullInstructions : Prop :=
  (Encodes 0x68 fun _ _ => .pla) ∧ (Encodes 0x28 fun _ _ => .plp) ∧ (Encodes 0xFA fun _ _ => .plx) ∧
  (Encodes 0x7A fun _ _ => .ply) ∧
  ∀ s : State,
    PullMeaning .pla s (fun t v => { t with a := v, flags := nzOf s.flags v }) ∧
    PullMeaning .plp s (fun t p =>
      { t with
        flags :=
          { c := p.getLsbD 0, z := p.getLsbD 1, i := p.getLsbD 2, d := p.getLsbD 3, b := p.getLsbD 4,
            v := p.getLsbD 6, n := p.getLsbD 7 } }) ∧
    (s.behaviour.isCmos = true →
      PullMeaning .plx s (fun t v => { t with x := v, flags := nzOf s.flags v }) ∧
      PullMeaning .ply s (fun t v => { t with y := v, flags := nzOf s.flags v }))

/-- R251, used by ADC and SBC (R250, R253): V is written as in the rule's equivalent form. -/
def Obligations.AddAndSubtractBinary : Prop :=
  ∀ (s : State) (m : AluMode), s.flags.d = false →
    let added (t : State) (addend : Byte) : State :=
      let sum := s.a.toNat + addend.toNat + s.flags.c.toNat
      { t with
        a := BitVec.ofNat 8 sum
        flags :=
          { s.flags with
            c := decide (0x100 ≤ sum)
            v := decide (s.a.getLsbD 7 = addend.getLsbD 7 ∧ (BitVec.ofNat 8 sum).getLsbD 7 ≠ s.a.getLsbD 7)
            z := decide (sum % 0x100 = 0)
            n := decide (0x80 ≤ sum % 0x100) } }
    ((Instr.adc m).defined s.behaviour = true → LoadMeaning (.adc m) s m.source fun t v => added t v) ∧
    ((Instr.sbc m).defined s.behaviour = true →
      LoadMeaning (.sbc m) s m.source fun t v => added t (BitVec.ofNat 8 (0xFF - v.toNat)))

/-- R250, R252 to R254. The binary computation is named here and stated in `AddAndSubtractBinary`. -/
def Obligations.AddAndSubtractDecimal : Prop :=
  (Encodes 0x61 fun b1 _ => .adc (.xin b1)) ∧ (Encodes 0x65 fun b1 _ => .adc (.zpg b1)) ∧
  (Encodes 0x69 fun b1 _ => .adc (.imm b1)) ∧ (Encodes 0x6D fun b1 b2 => .adc (.abs (joinBytes b1 b2))) ∧
  (Encodes 0x71 fun b1 _ => .adc (.iny b1)) ∧ (Encodes 0x72 fun b1 _ => .adc (.zpi b1)) ∧
  (Encodes 0x75 fun b1 _ => .adc (.zpx b1)) ∧ (Encodes 0x79 fun b1 b2 => .adc (.aby (joinBytes b1 b2))) ∧
  (Encodes 0x7D fun b1 b2 => .adc (.abx (joinBytes b1 b2))) ∧ (Encodes 0xE1 fun b1 _ => .sbc (.xin b1)) ∧
  (Encodes 0xE5 fun b1 _ => .sbc (.zpg b1)) ∧ (Encodes 0xE9 fun b1 _ => .sbc (.imm b1)) ∧
  (Encodes 0xED fun b1 b2 => .sbc (.abs (joinBytes b1 b2))) ∧ (Encodes 0xF1 fun b1 _ => .sbc (.iny b1)) ∧
  (Encodes 0xF2 fun b1 _ => .sbc (.zpi b1)) ∧ (Encodes 0xF5 fun b1 _ => .sbc (.zpx b1)) ∧
  (Encodes 0xF9 fun b1 b2 => .sbc (.aby (joinBytes b1 b2))) ∧
  (Encodes 0xFD fun b1 b2 => .sbc (.abx (joinBytes b1 b2))) ∧
  ∀ (s : State) (m : AluMode),
    let put (t : State) (r : Byte) (c : Bool) : State :=
      { t with a := r, flags := { s.flags with c := c, z := decide (r.toNat = 0), n := false, v := false } }
    let adcDec (m : Byte) : Byte × Bool :=
      let l0 := (s.a &&& 0x0F).toNat + (m &&& 0x0F).toNat + s.flags.c.toNat
      let l := if l0 > 9 then l0 + 6 else l0
      let h0 := (s.a >>> 4).toNat + (m >>> 4).toNat + (if l > 15 then 1 else 0)
      let h := if h0 > 9 then h0 + 6 else h0
      (BitVec.ofNat 8 (l &&& 0x0F ||| h <<< 4), decide (h > 15))
    let sbcDec (m : Byte) : Byte × Bool :=
      let l0 : Int := ((s.a &&& 0x0F).toNat : Int) - (m &&& 0x0F).toNat - (1 - (s.flags.c.toNat : Int))
      let l := if l0 < 0 then l0 - 6 else l0
      let h0 : Int := ((s.a >>> 4).toNat : Int) - (m >>> 4).toNat - (if l0 < 0 then 1 else 0)
      let h := if h0 < 0 then h0 - 6 else h0
      (BitVec.ofInt 8 l &&& 0x0F ||| BitVec.ofInt 8 h <<< 4, decide (0 ≤ h0))
    ((Instr.adc m).defined s.behaviour = true →
      LoadMeaning (.adc m) s m.source fun t v =>
        if s.flags.d then put t (adcDec v).1 (adcDec v).2
        else { t with a := (adcBinary s.flags s.a v).val, flags := (adcBinary s.flags s.a v).flags }) ∧
    ((Instr.sbc m).defined s.behaviour = true →
      LoadMeaning (.sbc m) s m.source fun t v =>
        if s.flags.d then put t (sbcDec v).1 (sbcDec v).2
        else { t with a := (adcBinary s.flags s.a (~~~v)).val, flags := (adcBinary s.flags s.a (~~~v)).flags })

/-- What R252 and R254 say of BCD operands. -/
def Obligations.DecimalModeIsDecimalArithmetic : Prop :=
  ∀ (f : Flags) (a m : Byte), IsBcd a → IsBcd m →
    (IsBcd (adcDecimal f a m).val ∧
      bcdValue (adcDecimal f a m).val = (bcdValue a + bcdValue m + f.c.toNat) % 100 ∧
      ((adcDecimal f a m).flags.c = true ↔ 100 ≤ bcdValue a + bcdValue m + f.c.toNat)) ∧
    (IsBcd (sbcDecimal f a m).val ∧
      (bcdValue (sbcDecimal f a m).val : Int) = ((bcdValue a : Int) - bcdValue m - (1 - (f.c.toNat : Int))) % 100 ∧
      ((sbcDecimal f a m).flags.c = false ↔ (bcdValue a : Int) - bcdValue m - (1 - (f.c.toNat : Int)) < 0))

/-- R255 to R257. -/
def Obligations.LogicInstructions : Prop :=
  (Encodes 0x21 fun b1 _ => .and (.xin b1)) ∧ (Encodes 0x25 fun b1 _ => .and (.zpg b1)) ∧
  (Encodes 0x29 fun b1 _ => .and (.imm b1)) ∧ (Encodes 0x2D fun b1 b2 => .and (.abs (joinBytes b1 b2))) ∧
  (Encodes 0x31 fun b1 _ => .and (.iny b1)) ∧ (Encodes 0x32 fun b1 _ => .and (.zpi b1)) ∧
  (Encodes 0x35 fun b1 _ => .and (.zpx b1)) ∧ (Encodes 0x39 fun b1 b2 => .and (.aby (joinBytes b1 b2))) ∧
  (Encodes 0x3D fun b1 b2 => .and (.abx (joinBytes b1 b2))) ∧ (Encodes 0x01 fun b1 _ => .ora (.xin b1)) ∧
  (Encodes 0x05 fun b1 _ => .ora (.zpg b1)) ∧ (Encodes 0x09 fun b1 _ => .ora (.imm b1)) ∧
  (Encodes 0x0D fun b1 b2 => .ora (.abs (joinBytes b1 b2))) ∧ (Encodes 0x11 fun b1 _ => .ora (.iny b1)) ∧
  (Encodes 0x12 fun b1 _ => .ora (.zpi b1)) ∧ (Encodes 0x15 fun b1 _ => .ora (.zpx b1)) ∧
  (Encodes 0x19 fun b1 b2 => .ora (.aby (joinBytes b1 b2))) ∧
  (Encodes 0x1D fun b1 b2 => .ora (.abx (joinBytes b1 b2))) ∧ (Encodes 0x41 fun b1 _ => .eor (.xin b1)) ∧
  (Encodes 0x45 fun b1 _ => .eor (.zpg b1)) ∧ (Encodes 0x49 fun b1 _ => .eor (.imm b1)) ∧
  (Encodes 0x4D fun b1 b2 => .eor (.abs (joinBytes b1 b2))) ∧ (Encodes 0x51 fun b1 _ => .eor (.iny b1)) ∧
  (Encodes 0x52 fun b1 _ => .eor (.zpi b1)) ∧ (Encodes 0x55 fun b1 _ => .eor (.zpx b1)) ∧
  (Encodes 0x59 fun b1 b2 => .eor (.aby (joinBytes b1 b2))) ∧
  (Encodes 0x5D fun b1 b2 => .eor (.abx (joinBytes b1 b2))) ∧
  ∀ (s : State) (m : AluMode),
    let bitwise (f : Bool → Bool → Bool) (v : Byte) : Byte :=
      BitVec.ofNat 8 (((List.range 8).map fun i => (f (s.a.getLsbD i) (v.getLsbD i)).toNat * 2 ^ i).sum)
    let put (t : State) (r : Byte) : State := { t with a := r, flags := nzOf s.flags r }
    ((Instr.and m).defined s.behaviour = true →
      LoadMeaning (.and m) s m.source fun t v => put t (bitwise (fun p q => p && q) v)) ∧
    ((Instr.ora m).defined s.behaviour = true →
      LoadMeaning (.ora m) s m.source fun t v => put t (bitwise (fun p q => p || q) v)) ∧
    ((Instr.eor m).defined s.behaviour = true →
      LoadMeaning (.eor m) s m.source fun t v => put t (bitwise (fun p q => p ^^ q) v))

/-- R258 to R261. -/
def Obligations.CompareInstructions : Prop :=
  (Encodes 0xC1 fun b1 _ => .cmp (.xin b1)) ∧ (Encodes 0xC5 fun b1 _ => .cmp (.zpg b1)) ∧
  (Encodes 0xC9 fun b1 _ => .cmp (.imm b1)) ∧ (Encodes 0xCD fun b1 b2 => .cmp (.abs (joinBytes b1 b2))) ∧
  (Encodes 0xD1 fun b1 _ => .cmp (.iny b1)) ∧ (Encodes 0xD2 fun b1 _ => .cmp (.zpi b1)) ∧
  (Encodes 0xD5 fun b1 _ => .cmp (.zpx b1)) ∧ (Encodes 0xD9 fun b1 b2 => .cmp (.aby (joinBytes b1 b2))) ∧
  (Encodes 0xDD fun b1 b2 => .cmp (.abx (joinBytes b1 b2))) ∧ (Encodes 0xE0 fun b1 _ => .cpx (.imm b1)) ∧
  (Encodes 0xE4 fun b1 _ => .cpx (.zpg b1)) ∧ (Encodes 0xEC fun b1 b2 => .cpx (.abs (joinBytes b1 b2))) ∧
  (Encodes 0xC0 fun b1 _ => .cpy (.imm b1)) ∧ (Encodes 0xC4 fun b1 _ => .cpy (.zpg b1)) ∧
  (Encodes 0xCC fun b1 b2 => .cpy (.abs (joinBytes b1 b2))) ∧
  ∀ s : State,
    let compared (t : State) (r v : Byte) : State :=
      { t with
        flags :=
          { s.flags with
            c := decide (v.toNat ≤ r.toNat), z := decide (r = v),
            n := decide (0x80 ≤ (r.toNat + 0x100 - v.toNat) % 0x100) } }
    (∀ m : AluMode, (Instr.cmp m).defined s.behaviour = true →
      LoadMeaning (.cmp m) s m.source fun t v => compared t s.a v) ∧
    (∀ m : CpxMode, LoadMeaning (.cpx m) s m.source fun t v => compared t s.x v) ∧
    (∀ m : CpxMode, LoadMeaning (.cpy m) s m.source fun t v => compared t s.y v)

/-- R262. -/
def Obligations.BitInstruction : Prop :=
  (Encodes 0x24 fun b1 _ => .bit (.zpg b1)) ∧ (Encodes 0x2C fun b1 b2 => .bit (.abs (joinBytes b1 b2))) ∧
  (Encodes 0x34 fun b1 _ => .bit (.zpx b1)) ∧ (Encodes 0x3C fun b1 b2 => .bit (.abx (joinBytes b1 b2))) ∧
  (Encodes 0x89 fun b1 _ => .bit (.imm b1)) ∧
  ∀ (s : State) (m : BitMode), (Instr.bit m).defined s.behaviour = true →
    LoadMeaning (.bit m) s m.source fun t v =>
      match m with
      | .imm _ => { t with flags := { s.flags with z := decide (s.a &&& v = 0) } }
      | .zpg _ | .abs _ | .zpx _ | .abx _ =>
        { t with
          flags := { s.flags with z := decide (s.a &&& v = 0), n := decide (0x80 ≤ v.toNat), v := v.getLsbD 6 } }

/-- R263 to R266. -/
def Obligations.RegisterIncrementInstructions : Prop :=
  (Encodes 0xE8 fun _ _ => .inx) ∧ (Encodes 0xC8 fun _ _ => .iny) ∧ (Encodes 0xCA fun _ _ => .dex) ∧
  (Encodes 0x88 fun _ _ => .dey) ∧
  ∀ s : State,
    let up (r : Byte) : Byte := BitVec.ofNat 8 (r.toNat + 1)
    let down (r : Byte) : Byte := BitVec.ofNat 8 (r.toNat + 0xFF)
    exec .inx s = .next { s with x := up s.x, flags := nzOf s.flags (up s.x) } ∧
    exec .iny s = .next { s with y := up s.y, flags := nzOf s.flags (up s.y) } ∧
    exec .dex s = .next { s with x := down s.x, flags := nzOf s.flags (down s.x) } ∧
    exec .dey s = .next { s with y := down s.y, flags := nzOf s.flags (down s.y) }

/-- R300 to R303. -/
def Obligations.ShiftInstructions : Prop :=
  (Encodes 0x06 fun b1 _ => .asl (.zpg b1)) ∧ (Encodes 0x0A fun _ _ => .asl .acc) ∧
  (Encodes 0x0E fun b1 b2 => .asl (.abs (joinBytes b1 b2))) ∧ (Encodes 0x16 fun b1 _ => .asl (.zpx b1)) ∧
  (Encodes 0x1E fun b1 b2 => .asl (.abx (joinBytes b1 b2))) ∧ (Encodes 0x46 fun b1 _ => .lsr (.zpg b1)) ∧
  (Encodes 0x4A fun _ _ => .lsr .acc) ∧ (Encodes 0x4E fun b1 b2 => .lsr (.abs (joinBytes b1 b2))) ∧
  (Encodes 0x56 fun b1 _ => .lsr (.zpx b1)) ∧ (Encodes 0x5E fun b1 b2 => .lsr (.abx (joinBytes b1 b2))) ∧
  (Encodes 0x26 fun b1 _ => .rol (.zpg b1)) ∧ (Encodes 0x2A fun _ _ => .rol .acc) ∧
  (Encodes 0x2E fun b1 b2 => .rol (.abs (joinBytes b1 b2))) ∧ (Encodes 0x36 fun b1 _ => .rol (.zpx b1)) ∧
  (Encodes 0x3E fun b1 b2 => .rol (.abx (joinBytes b1 b2))) ∧
  ∀ s : State, s.mem.wf = true →
    let out (f : Flags) (r : Nat) (c : Bool) : AluOut :=
      { val := BitVec.ofNat 8 r, flags := nzOf { f with c := c } (BitVec.ofNat 8 r) }
    let asl (f : Flags) (v : Byte) : AluOut := out f (v.toNat * 2) (decide (0x80 ≤ v.toNat))
    let lsr (f : Flags) (v : Byte) : AluOut := out f (v.toNat / 2) (decide (v.toNat % 2 = 1))
    let rol (f : Flags) (v : Byte) : AluOut := out f (v.toNat * 2 + f.c.toNat) (decide (0x80 ≤ v.toNat))
    let onA (g : Flags → Byte → AluOut) : State := { s with a := (g s.flags s.a).val, flags := (g s.flags s.a).flags }
    exec (.asl .acc) s = .next (onA asl) ∧ exec (.lsr .acc) s = .next (onA lsr) ∧ exec (.rol .acc) s = .next (onA rol) ∧
    ∀ (m : ShiftMode) (o : MemOperand), m.target = .mem o →
      RmwMeaning (.asl m) s o asl ∧ RmwMeaning (.lsr m) s o lsr ∧ RmwMeaning (.rol m) s o rol

/-- R304. ROR_BUG_FN is a free function (log 7); the statement holds for every one. -/
def Obligations.RotateRightInstruction : Prop :=
  (Encodes 0x66 fun b1 _ => .ror (.zpg b1)) ∧ (Encodes 0x6A fun _ _ => .ror .acc) ∧
  (Encodes 0x6E fun b1 b2 => .ror (.abs (joinBytes b1 b2))) ∧ (Encodes 0x76 fun b1 _ => .ror (.zpx b1)) ∧
  (Encodes 0x7E fun b1 b2 => .ror (.abx (joinBytes b1 b2))) ∧
  ∀ s : State, s.mem.wf = true →
    let ror (f : Flags) (v : Byte) : AluOut :=
      if s.behaviour = .nmosWithRorBug then
        { val := (Config.rorBugFn v f.c f.n f.z).1
          flags :=
            { f with
              c := (Config.rorBugFn v f.c f.n f.z).2.1, n := (Config.rorBugFn v f.c f.n f.z).2.2.1,
              z := (Config.rorBugFn v f.c f.n f.z).2.2.2 } }
      else
        { val := BitVec.ofNat 8 (v.toNat / 2 + 0x80 * f.c.toNat)
          flags := nzOf { f with c := decide (v.toNat % 2 = 1) } (BitVec.ofNat 8 (v.toNat / 2 + 0x80 * f.c.toNat)) }
    exec (.ror .acc) s = .next { s with a := (ror s.flags s.a).val, flags := (ror s.flags s.a).flags } ∧
    ∀ (m : ShiftMode) (o : MemOperand), m.target = .mem o → RmwMeaning (.ror m) s o ror

/-- R305 and R306. -/
def Obligations.IncrementDecrementInstructions : Prop :=
  (Encodes 0x1A fun _ _ => .inc .acc) ∧ (Encodes 0xE6 fun b1 _ => .inc (.zpg b1)) ∧
  (Encodes 0xEE fun b1 b2 => .inc (.abs (joinBytes b1 b2))) ∧ (Encodes 0xF6 fun b1 _ => .inc (.zpx b1)) ∧
  (Encodes 0xFE fun b1 b2 => .inc (.abx (joinBytes b1 b2))) ∧ (Encodes 0x3A fun _ _ => .dec .acc) ∧
  (Encodes 0xC6 fun b1 _ => .dec (.zpg b1)) ∧ (Encodes 0xCE fun b1 b2 => .dec (.abs (joinBytes b1 b2))) ∧
  (Encodes 0xD6 fun b1 _ => .dec (.zpx b1)) ∧ (Encodes 0xDE fun b1 b2 => .dec (.abx (joinBytes b1 b2))) ∧
  ∀ s : State, s.mem.wf = true →
    let step1 (n : Nat) (f : Flags) (v : Byte) : AluOut :=
      { val := BitVec.ofNat 8 (v.toNat + n), flags := nzOf f (BitVec.ofNat 8 (v.toNat + n)) }
    let onA (g : Flags → Byte → AluOut) : State := { s with a := (g s.flags s.a).val, flags := (g s.flags s.a).flags }
    (s.behaviour.isCmos = true →
      exec (.inc .acc) s = .next (onA (step1 1)) ∧ exec (.dec .acc) s = .next (onA (step1 0xFF))) ∧
    ∀ (m : ShiftMode) (o : MemOperand), m.target = .mem o →
      RmwMeaning (.inc m) s o (step1 1) ∧ RmwMeaning (.dec m) s o (step1 0xFF)

/-- R307 and R308. -/
def Obligations.TestAndSetResetBits : Prop :=
  (Encodes 0x04 fun b1 _ => .tsb (.zpg b1)) ∧ (Encodes 0x0C fun b1 b2 => .tsb (.abs (joinBytes b1 b2))) ∧
  (Encodes 0x14 fun b1 _ => .trb (.zpg b1)) ∧ (Encodes 0x1C fun b1 b2 => .trb (.abs (joinBytes b1 b2))) ∧
  ∀ s : State, s.mem.wf = true → s.behaviour.isCmos = true →
    let out (g : Bool → Bool → Bool) (f : Flags) (v : Byte) : AluOut :=
      { val := BitVec.ofNat 8 (((List.range 8).map fun i => (g (v.getLsbD i) (s.a.getLsbD i)).toNat * 2 ^ i).sum)
        flags := { f with z := (List.range 8).all fun i => !(v.getLsbD i && s.a.getLsbD i) } }
    ∀ m : TsbMode,
      RmwMeaning (.tsb m) s m.operand (out fun p q => p || q) ∧
      RmwMeaning (.trb m) s m.operand (out fun p q => p && !q)

/-- R309 and R310. -/
def Obligations.ResetAndSetMemoryBits : Prop :=
  (Encodes 0x07 fun b1 _ => .rmb0 b1) ∧ (Encodes 0x17 fun b1 _ => .rmb1 b1) ∧ (Encodes 0x27 fun b1 _ => .rmb2 b1) ∧
  (Encodes 0x37 fun b1 _ => .rmb3 b1) ∧ (Encodes 0x47 fun b1 _ => .rmb4 b1) ∧ (Encodes 0x57 fun b1 _ => .rmb5 b1) ∧
  (Encodes 0x67 fun b1 _ => .rmb6 b1) ∧ (Encodes 0x77 fun b1 _ => .rmb7 b1) ∧ (Encodes 0x87 fun b1 _ => .smb0 b1) ∧
  (Encodes 0x97 fun b1 _ => .smb1 b1) ∧ (Encodes 0xA7 fun b1 _ => .smb2 b1) ∧ (Encodes 0xB7 fun b1 _ => .smb3 b1) ∧
  (Encodes 0xC7 fun b1 _ => .smb4 b1) ∧ (Encodes 0xD7 fun b1 _ => .smb5 b1) ∧ (Encodes 0xE7 fun b1 _ => .smb6 b1) ∧
  (Encodes 0xF7 fun b1 _ => .smb7 b1) ∧
  ∀ (s : State) (zp : Byte), s.mem.wf = true → s.behaviour.isCmos = true →
    let out (n : Nat) (value : Bool) (f : Flags) (v : Byte) : AluOut :=
      { val := BitVec.ofNat 8 (((List.range 8).map fun i => (if i = n then value else v.getLsbD i).toNat * 2 ^ i).sum)
        flags := f }
    RmwMeaning (.rmb0 zp) s (.zpg zp) (out 0 false) ∧ RmwMeaning (.smb0 zp) s (.zpg zp) (out 0 true) ∧
    RmwMeaning (.rmb1 zp) s (.zpg zp) (out 1 false) ∧ RmwMeaning (.smb1 zp) s (.zpg zp) (out 1 true) ∧
    RmwMeaning (.rmb2 zp) s (.zpg zp) (out 2 false) ∧ RmwMeaning (.smb2 zp) s (.zpg zp) (out 2 true) ∧
    RmwMeaning (.rmb3 zp) s (.zpg zp) (out 3 false) ∧ RmwMeaning (.smb3 zp) s (.zpg zp) (out 3 true) ∧
    RmwMeaning (.rmb4 zp) s (.zpg zp) (out 4 false) ∧ RmwMeaning (.smb4 zp) s (.zpg zp) (out 4 true) ∧
    RmwMeaning (.rmb5 zp) s (.zpg zp) (out 5 false) ∧ RmwMeaning (.smb5 zp) s (.zpg zp) (out 5 true) ∧
    RmwMeaning (.rmb6 zp) s (.zpg zp) (out 6 false) ∧ RmwMeaning (.smb6 zp) s (.zpg zp) (out 6 true) ∧
    RmwMeaning (.rmb7 zp) s (.zpg zp) (out 7 false) ∧ RmwMeaning (.smb7 zp) s (.zpg zp) (out 7 true)

/-- R350 to R359 and R138. PC is the address of the next instruction. -/
def Obligations.BranchInstructions : Prop :=
  (Encodes 0x90 fun b1 _ => .bcc b1) ∧ (Encodes 0xB0 fun b1 _ => .bcs b1) ∧ (Encodes 0xF0 fun b1 _ => .beq b1) ∧
  (Encodes 0xD0 fun b1 _ => .bne b1) ∧ (Encodes 0x30 fun b1 _ => .bmi b1) ∧ (Encodes 0x10 fun b1 _ => .bpl b1) ∧
  (Encodes 0x50 fun b1 _ => .bvc b1) ∧ (Encodes 0x70 fun b1 _ => .bvs b1) ∧ (Encodes 0x80 fun b1 _ => .bra b1) ∧
  ∀ (s : State) (off : Byte),
    let taken : State := { s with pc := BitVec.ofNat 16 (s.pc.toNat + sext16 off) }
    exec (.bcc off) s = .next (if s.flags.c = false then taken else s) ∧
    exec (.bcs off) s = .next (if s.flags.c = true then taken else s) ∧
    exec (.beq off) s = .next (if s.flags.z = true then taken else s) ∧
    exec (.bne off) s = .next (if s.flags.z = false then taken else s) ∧
    exec (.bmi off) s = .next (if s.flags.n = true then taken else s) ∧
    exec (.bpl off) s = .next (if s.flags.n = false then taken else s) ∧
    exec (.bvc off) s = .next (if s.flags.v = false then taken else s) ∧
    exec (.bvs off) s = .next (if s.flags.v = true then taken else s) ∧
    (s.behaviour.isCmos = true → exec (.bra off) s = .next taken)

/-- R360, R361 and R139. -/
def Obligations.BranchOnBitInstructions : Prop :=
  (Encodes 0x0F fun b1 b2 => .bbr0 b1 b2) ∧ (Encodes 0x1F fun b1 b2 => .bbr1 b1 b2) ∧
  (Encodes 0x2F fun b1 b2 => .bbr2 b1 b2) ∧ (Encodes 0x3F fun b1 b2 => .bbr3 b1 b2) ∧
  (Encodes 0x4F fun b1 b2 => .bbr4 b1 b2) ∧ (Encodes 0x5F fun b1 b2 => .bbr5 b1 b2) ∧
  (Encodes 0x6F fun b1 b2 => .bbr6 b1 b2) ∧ (Encodes 0x7F fun b1 b2 => .bbr7 b1 b2) ∧
  (Encodes 0x8F fun b1 b2 => .bbs0 b1 b2) ∧ (Encodes 0x9F fun b1 b2 => .bbs1 b1 b2) ∧
  (Encodes 0xAF fun b1 b2 => .bbs2 b1 b2) ∧ (Encodes 0xBF fun b1 b2 => .bbs3 b1 b2) ∧
  (Encodes 0xCF fun b1 b2 => .bbs4 b1 b2) ∧ (Encodes 0xDF fun b1 b2 => .bbs5 b1 b2) ∧
  (Encodes 0xEF fun b1 b2 => .bbs6 b1 b2) ∧ (Encodes 0xFF fun b1 b2 => .bbs7 b1 b2) ∧
  ∀ (s : State) (zp off : Byte), s.behaviour.isCmos = true →
    let meaning (i : Instr) (n : Nat) (value : Bool) : Prop :=
      LoadMeaning i s (.mem (.zpg zp)) fun t v =>
        if v.toNat / 2 ^ n % 2 = value.toNat then { t with pc := BitVec.ofNat 16 (s.pc.toNat + sext16 off) } else t
    meaning (.bbr0 zp off) 0 false ∧ meaning (.bbs0 zp off) 0 true ∧
    meaning (.bbr1 zp off) 1 false ∧ meaning (.bbs1 zp off) 1 true ∧
    meaning (.bbr2 zp off) 2 false ∧ meaning (.bbs2 zp off) 2 true ∧
    meaning (.bbr3 zp off) 3 false ∧ meaning (.bbs3 zp off) 3 true ∧
    meaning (.bbr4 zp off) 4 false ∧ meaning (.bbs4 zp off) 4 true ∧
    meaning (.bbr5 zp off) 5 false ∧ meaning (.bbs5 zp off) 5 true ∧
    meaning (.bbr6 zp off) 6 false ∧ meaning (.bbs6 zp off) 6 true ∧
    meaning (.bbr7 zp off) 7 false ∧ meaning (.bbs7 zp off) 7 true

/-- R362 to R364. -/
def Obligations.JumpInstruction : Prop :=
  (Encodes 0x4C fun b1 b2 => .jmp (.abs (joinBytes b1 b2))) ∧
  (Encodes 0x6C fun b1 b2 => .jmp (.ind (joinBytes b1 b2))) ∧
  (Encodes 0x7C fun b1 b2 => .jmp (.aix (joinBytes b1 b2))) ∧
  ∀ (s : State) (w : Word),
    let jumpsVia (i : Instr) (p q : Word) : Prop :=
      (∀ f, read8 s p = .error f → exec i s = .fault f) ∧
      ∀ lo, read8 s p = .ok lo →
        (∀ f, read8 lo.st q = .error f → exec i s = .fault f) ∧
        ∀ hi, read8 lo.st q = .ok hi →
          exec i s = .next
            { s with
              pc := BitVec.ofNat 16 (hi.val.toNat * 0x100 + lo.val.toNat), devices := hi.st.devices,
              draws := hi.st.draws }
    exec (.jmp (.abs w)) s = .next { s with pc := w } ∧
    jumpsVia (.jmp (.ind w)) w
      (if s.behaviour ∈ [Behaviour.nmos6502, .nmosWithRorBug, .nmosWithIndirectJmpBug] ∧ w.toNat % 0x100 = 0xFF then
        BitVec.ofNat 16 (w.toNat / 0x100 * 0x100)
      else BitVec.ofNat 16 (w.toNat + 1)) ∧
    (s.behaviour.isCmos = true →
      jumpsVia (.jmp (.aix w)) (BitVec.ofNat 16 (w.toNat + s.x.toNat)) (BitVec.ofNat 16 (w.toNat + s.x.toNat + 1)))

/-- R365 and R366. -/
def Obligations.SubroutineInstructions : Prop :=
  (Encodes 0x20 fun b1 b2 => .jsr (joinBytes b1 b2)) ∧ (Encodes 0x60 fun _ _ => .rts) ∧
  ∀ (s : State) (w : Word),
    let ret : Word := s.pc - 1
    (∀ f, push s (highByte ret) = .error f → exec (.jsr w) s = .fault f) ∧
    (∀ s1, push s (highByte ret) = .ok s1 →
      (∀ f, push s1 (lowByte ret) = .error f → exec (.jsr w) s = .fault f) ∧
      ∀ s2, push s1 (lowByte ret) = .ok s2 → exec (.jsr w) s = .next { s2 with pc := w }) ∧
    (s.isRam (stackAddr s.sp) = true → s.isRam (stackAddr (s.sp - 1)) = true →
      exec (.jsr w) s = .next
        { s with
          pc := w, sp := s.sp - 2,
          mem := (s.mem.write (stackAddr s.sp).toNat (highByte ret)).write (stackAddr (s.sp - 1)).toNat
            (lowByte ret) }) ∧
    (∀ f, pull s = .error f → exec .rts s = .fault f) ∧
    (∀ lo, pull s = .ok lo →
      (∀ f, pull lo.st = .error f → exec .rts s = .fault f) ∧
      ∀ hi, pull lo.st = .ok hi →
        exec .rts s = .next { hi.st with pc := BitVec.ofNat 16 (hi.val.toNat * 0x100 + lo.val.toNat + 1) }) ∧
    (s.isMemory (stackAddr (s.sp + 1)) = true → s.isMemory (stackAddr (s.sp + 2)) = true →
      exec .rts s = .next
        { s with
          sp := s.sp + 2,
          pc := joinBytes (s.memByte (stackAddr (s.sp + 1))) (s.memByte (stackAddr (s.sp + 2))) + 1 })

/-- R367. -/
def Obligations.BrkInstruction : Prop :=
  Encodes 0x00 (fun _ _ => .brk) ∧ (∀ l : UndefLens, opLength l 0x00 = .one) ∧
  ∀ s : State,
    (s.flags.i = true → exec .brk s = .next s) ∧
    (s.flags.i = false → EntryMeaning (exec .brk s) s true (s.instAddr + 2) 0xFFFE) ∧
    (s.flags.i = false → EntryInMemory s 0xFFFE →
      exec .brk s = .next (enteredState s true (s.instAddr + 2) 0xFFFE))

/-- R368. -/
def Obligations.RtiInstruction : Prop :=
  (Encodes 0x40 fun _ _ => .rti) ∧
  ∀ s : State,
    let unpacked (p : Byte) : Flags :=
      { c := p.getLsbD 0, z := p.getLsbD 1, i := p.getLsbD 2, d := p.getLsbD 3, b := p.getLsbD 4, v := p.getLsbD 6,
        n := p.getLsbD 7 }
    (∀ f, pull s = .error f → exec .rti s = .fault f) ∧
    (∀ p, pull s = .ok p →
      let s1 : State := { p.st with flags := unpacked p.val }
      (∀ f, pull s1 = .error f → exec .rti s = .fault f) ∧
      ∀ lo, pull s1 = .ok lo →
        (∀ f, pull lo.st = .error f → exec .rti s = .fault f) ∧
        ∀ hi, pull lo.st = .ok hi →
          exec .rti s = .next { hi.st with pc := BitVec.ofNat 16 (hi.val.toNat * 0x100 + lo.val.toNat) }) ∧
    (s.isMemory (stackAddr (s.sp + 1)) = true → s.isMemory (stackAddr (s.sp + 2)) = true →
      s.isMemory (stackAddr (s.sp + 3)) = true →
      exec .rti s = .next
        { s with
          sp := s.sp + 3, flags := unpacked (s.memByte (stackAddr (s.sp + 1))),
          pc := joinBytes (s.memByte (stackAddr (s.sp + 2))) (s.memByte (stackAddr (s.sp + 3))) })

/-- The round trip, for every SP, the ones that wrap among them. -/
def Obligations.CallThenReturnComesBack : Prop :=
  ∀ (s : State) (w : Word), s.mem.wf = true → s.isRam (stackAddr s.sp) = true → s.isRam (stackAddr (s.sp - 1)) = true →
    ∃ t u, exec (.jsr w) s = .next t ∧ t.pc = w ∧ exec .rts t = .next u ∧ u = { s with mem := u.mem } ∧
      ∀ a, a ≠ stackAddr s.sp → a ≠ stackAddr (s.sp - 1) → u.memByte a = s.memByte a

/-- The round trip of R516 and R367 with R368. -/
def Obligations.InterruptThenRtiComesBack : Prop :=
  ∀ s : State, s.mem.wf = true →
    let back (t u : State) : Prop :=
      exec .rti t = .next u ∧
      ∀ a, a ≠ stackAddr s.sp → a ≠ stackAddr (s.sp - 1) → a ≠ stackAddr (s.sp - 2) → u.memByte a = s.memByte a
    (EntryInMemory s 0xFFFA → ∃ t u, enterInterrupt s .nmi = .ok t ∧ t.flags.i = true ∧ back t u ∧
      u = { s with nmiPending := false, flags := { s.flags with b := false }, mem := u.mem }) ∧
    (EntryInMemory s 0xFFFE → ∃ t u, enterInterrupt s .irq = .ok t ∧ t.flags.i = true ∧ back t u ∧
      u = { s with irqPending := false, flags := { s.flags with b := false }, mem := u.mem }) ∧
    (EntryInMemory s 0xFFFE → s.flags.i = false → ∃ t u, exec .brk s = .next t ∧ t.flags.i = true ∧ back t u ∧
      u = { s with pc := s.instAddr + 2, flags := { s.flags with b := true }, mem := u.mem })

/-- R400 to R407. -/
def Obligations.FlagInstructionsAndNop : Prop :=
  (Encodes 0x18 fun _ _ => .clc) ∧ (Encodes 0x38 fun _ _ => .sec) ∧ (Encodes 0x58 fun _ _ => .cli) ∧
  (Encodes 0x78 fun _ _ => .sei) ∧ (Encodes 0xD8 fun _ _ => .cld) ∧ (Encodes 0xF8 fun _ _ => .sed) ∧
  (Encodes 0xB8 fun _ _ => .clv) ∧ (Encodes 0xEA fun _ _ => .nop) ∧
  ∀ s : State,
    exec .clc s = .next { s with flags := { s.flags with c := false } } ∧
    exec .sec s = .next { s with flags := { s.flags with c := true } } ∧
    exec .cli s = .next { s with flags := { s.flags with i := false } } ∧
    exec .sei s = .next { s with flags := { s.flags with i := true } } ∧
    exec .cld s = .next { s with flags := { s.flags with d := false } } ∧
    exec .sed s = .next { s with flags := { s.flags with d := true } } ∧
    exec .clv s = .next { s with flags := { s.flags with v := false } } ∧
    exec .nop s = .next s
end

