-- ==== Sys2Proof/Laws/Memory.lean ====
section
/-! SUPPORT. What reading and writing one byte of memory do, and that every write keeps the canonical form. -/

namespace Sys2Proof.Machine

theorem Memory.read_consCell (a : Nat) (v : Byte) (m : Memory) (x : Nat) (h : Memory.read m a = unlistedByte) :
    Memory.read (Memory.consCell a v m) x = if x = a then v else Memory.read m x := by
  by_cases hv : v = unlistedByte
  · by_cases hx : x = a <;> simp_all [Memory.consCell]
  · simp [Memory.consCell, hv, Memory.read]

/-- The addresses of a canonical memory below its first entry are unlisted. -/
theorem Memory.read_below : ∀ (m : Memory) (a : Nat), m.wf = true → (∀ c ∈ m.head?, a < c.1) →
    Memory.read m a = unlistedByte
  | [], _, _, _ => rfl
  | [(b, v)], a, _, h => by
    have : a < b := by simpa using h
    simp [Memory.read, Nat.ne_of_lt this]
  | (b, v) :: (c, w) :: m, a, hw, h => by
    have hab : a < b := by simpa using h
    simp only [Memory.wf, Bool.and_eq_true, decide_eq_true_eq] at hw
    rw [Memory.read, if_neg (Nat.ne_of_lt hab)]
    exact Memory.read_below ((c, w) :: m) a hw.2 (by simp; omega)

theorem Memory.wf_tail {c : Host.Cell} {m : Memory} (h : Memory.wf (c :: m) = true) : m.wf = true := by
  match m, h with
  | [], _ => rfl
  | (b, w) :: m, h => simp only [Memory.wf, Bool.and_eq_true] at h; exact h.2

/-- Every entry after the first has a larger address than the first. -/
theorem Memory.wf_head_lt {c : Host.Cell} {m : Memory} (h : Memory.wf (c :: m) = true) : ∀ e ∈ m.head?, c.1 < e.1 := by
  match m, h with
  | [], _ => simp
  | (b, w) :: m, h =>
    simp only [Memory.wf, Bool.and_eq_true, decide_eq_true_eq] at h
    simpa using h.1.1

/-- Read after write: the address written holds the value, every other address what it held. -/
theorem Memory.read_write (a : Nat) (v : Byte) (x : Nat) : ∀ (m : Memory), m.wf = true →
    Memory.read (Memory.write m a v) x = if x = a then v else Memory.read m x
  | [], _ => Memory.read_consCell a v [] x rfl
  | (b, w) :: m, h => by
    rw [Memory.write]
    split
    · next hab => exact Memory.read_consCell a v _ x (Memory.read_below _ a h (by simpa using hab))
    · split
      · next hab =>
        subst hab
        rw [Memory.read_consCell a v m x (Memory.read_below _ a (Memory.wf_tail h) (Memory.wf_head_lt h))]
        by_cases hx : x = a <;> simp [Memory.read, hx]
      · next hab =>
        rw [Memory.read, Memory.read_write a v x m (Memory.wf_tail h), Memory.read]
        by_cases hx : x = b
        · subst hx; simp [Ne.symm hab]
        · simp [hx]

theorem Memory.wf_cons {a : Nat} {v : Byte} {m : Memory} (ha : a < 0x10000) (hv : v ≠ unlistedByte) (hm : m.wf = true)
    (h : ∀ e ∈ m.head?, a < e.1) : Memory.wf ((a, v) :: m) = true := by
  match m, hm, h with
  | [], _, _ => simp [Memory.wf, ha, hv]
  | (b, w) :: m, hm, h =>
    have : a < b := by simpa using h
    simp [Memory.wf, this, hv, hm]

theorem Memory.wf_consCell {a : Nat} {v : Byte} {m : Memory} (ha : a < 0x10000) (hm : m.wf = true)
    (h : ∀ e ∈ m.head?, a < e.1) : (Memory.consCell a v m).wf = true := by
  rw [Memory.consCell]
  split
  · exact hm
  · next hv => exact Memory.wf_cons ha hv hm h

theorem Memory.head_consCell {a b : Nat} {v : Byte} {m : Memory} (hb : b < a) (h : ∀ e ∈ m.head?, b < e.1) :
    ∀ e ∈ (Memory.consCell a v m).head?, b < e.1 := by
  rw [Memory.consCell]
  split
  · exact h
  · simpa using hb

theorem Memory.head_write {a b : Nat} {v : Byte} (hb : b < a) : ∀ {m : Memory}, m.wf = true → (∀ e ∈ m.head?, b < e.1) →
    ∀ e ∈ (Memory.write m a v).head?, b < e.1
  | [], _, h => Memory.head_consCell hb h
  | (c, w) :: m, hw, h => by
    have hbc : b < c := by simpa using h
    rw [Memory.write]
    split
    · exact Memory.head_consCell hb h
    · split
      · exact Memory.head_consCell hb (fun e he => Nat.lt_trans hbc (Memory.wf_head_lt hw e he))
      · simpa using hbc

theorem Memory.wf_addr_lt {c : Host.Cell} {m : Memory} (h : Memory.wf (c :: m) = true) : c.1 < 0x10000 := by
  induction m generalizing c with
  | nil => simp only [Memory.wf, Bool.and_eq_true, decide_eq_true_eq] at h; exact h.1
  | cons e m ih =>
    have := ih (Memory.wf_tail h)
    have := Memory.wf_head_lt h e (by simp)
    omega

theorem Memory.wf_value_ne {c : Host.Cell} {m : Memory} (h : Memory.wf (c :: m) = true) : c.2 ≠ unlistedByte := by
  match m, h with
  | [], h => simp only [Memory.wf, Bool.and_eq_true, bne_iff_ne] at h; exact h.2
  | _ :: _, h => simp only [Memory.wf, Bool.and_eq_true, bne_iff_ne] at h; exact h.1.2

/-- A write keeps the canonical form. -/
theorem Memory.wf_write {a : Nat} {v : Byte} (ha : a < 0x10000) : ∀ {m : Memory}, m.wf = true →
    (Memory.write m a v).wf = true
  | [], h => Memory.wf_consCell ha h (by simp)
  | (b, w) :: m, h => by
    rw [Memory.write]
    split
    · next hab => exact Memory.wf_consCell ha h (by simpa using hab)
    · split
      · next hab => exact Memory.wf_consCell ha (Memory.wf_tail h) (hab ▸ Memory.wf_head_lt h)
      · next h1 h2 =>
        exact Memory.wf_cons (Memory.wf_addr_lt h) (Memory.wf_value_ne h) (Memory.wf_write ha (Memory.wf_tail h))
          (Memory.head_write (by omega) (Memory.wf_tail h) (Memory.wf_head_lt h))

/-- The entries of a written memory: old ones, or the one written. -/
theorem Memory.mem_write {a : Nat} {v : Byte} {c : Host.Cell} : ∀ {m : Memory}, c ∈ Memory.write m a v →
    c ∈ m ∨ c = (a, v)
  | [], h => by
    rw [Memory.write, Memory.consCell] at h
    split at h <;> simp_all
  | (b, w) :: m, h => by
    rw [Memory.write] at h
    split at h
    · rw [Memory.consCell] at h
      split at h
      · exact .inl h
      · rcases List.mem_cons.1 h with h | h
        · exact .inr h
        · exact .inl h
    · split at h
      · rw [Memory.consCell] at h
        split at h
        · exact .inl (List.mem_cons_of_mem _ h)
        · rcases List.mem_cons.1 h with h | h
          · exact .inr h
          · exact .inl (List.mem_cons_of_mem _ h)
      · rcases List.mem_cons.1 h with h | h
        · exact .inl (h ▸ List.mem_cons_self)
        · rcases Memory.mem_write h with h | h
          · exact .inl (List.mem_cons_of_mem _ h)
          · exact .inr h

/-- A write leaves every other address alone, whatever the form of the memory. -/
theorem Memory.read_write_ne {a x : Nat} (v : Byte) (h : x ≠ a) : ∀ (m : Memory),
    Memory.read (Memory.write m a v) x = Memory.read m x := by
  have hc : ∀ m : Memory, Memory.read (Memory.consCell a v m) x = Memory.read m x := by
    intro m
    by_cases hv : v = unlistedByte <;> simp [Memory.consCell, hv, Memory.read, h]
  intro m
  induction m with
  | nil => exact hc []
  | cons c m ih =>
    obtain ⟨b, w⟩ := c
    rw [Memory.write]
    split
    · exact hc _
    · split
      · next hab => subst hab; rw [hc, Memory.read, if_neg h]
      · rw [Memory.read, ih, Memory.read]

theorem State.reset_mem_wf : State.reset.mem.wf = true := rfl

end Sys2Proof.Machine
end

