-- ==== Sys2Proof/Laws/Bus.lean ====
section
/-! SUPPORT. Everything the two accesses of the bus can do: which device answers, what changes and what does not. -/

namespace Sys2Proof.Machine

/-! ### Inversion of the error monad -/

theorem bind_eq_ok {ε α β : Type} {e : Except ε α} {f : α → Except ε β} {b : β} :
    (e >>= f) = .ok b ↔ ∃ a, e = .ok a ∧ f a = .ok b := by
  cases e <;> simp [bind, Except.bind]

theorem bind_eq_error {ε α β : Type} {e : Except ε α} {f : α → Except ε β} {x : ε} :
    (e >>= f) = .error x ↔ e = .error x ∨ ∃ a, e = .ok a ∧ f a = .error x := by
  cases e <;> simp [bind, Except.bind]

theorem pure_eq_ok {ε α : Type} {a b : α} : (pure a : Except ε α) = .ok b ↔ a = b := by
  simp [pure, Except.pure]

/-! ### Owners -/

theorem owner_mem {ds : List Device} {a : Word} {d : Device} (h : owner ds a = some d) : d ∈ ds :=
  List.mem_of_find?_eq_some h

theorem owner_contains {ds : List Device} {a : Word} {d : Device} (h : owner ds a = some d) : d.contains a = true := by
  simpa using List.find?_some h

theorem owner_cons (d : Device) (ds : List Device) (a : Word) :
    owner (d :: ds) a = if d.contains a then some d else owner ds a := by
  cases h : d.contains a <;> simp [owner, h]

@[simp] theorem contains_kind (d : Device) (k : DeviceKind) (a : Word) :
    Device.contains { d with kind := k } a = d.contains a := rfl

/-- What a device is after its ACIA became another one of the same layout and capacities. -/
theorem plan_kind {d : Device} {k k' : Acia} (hd : d.kind = .acia k) (h : k'.layout = k.layout) (hr : k'.rxCap = k.rxCap)
    (ht : k'.txCap = k.txCap) : Device.plan { d with kind := .acia k' } = d.plan := by
  simp [Device.plan, hd, h, hr, ht]

/-- `setAcia` keeps every device's plan. -/
theorem plans_setAcia {k k' : Acia} {a : Word} (h : k'.layout = k.layout) (hr : k'.rxCap = k.rxCap)
    (ht : k'.txCap = k.txCap) : ∀ {ds : List Device} {d : Device}, owner ds a = some d → d.kind = .acia k →
    (setAcia ds a k').map Device.plan = ds.map Device.plan
  | [], _, ho, _ => by simp [owner] at ho
  | e :: ds, d, ho, hk => by
    rw [owner_cons] at ho
    rw [setAcia]
    split at ho
    · next hc =>
      cases ho
      simp only [hc, if_true, List.map_cons, plan_kind hk h hr ht]
    · next hc =>
      simp only [hc, Bool.false_eq_true, if_false, List.map_cons]
      rw [plans_setAcia h hr ht ho hk]

/-- The owner of the address after `setAcia` at it. -/
theorem owner_setAcia {k' : Acia} {a : Word} : ∀ {ds : List Device} {d : Device}, owner ds a = some d →
    owner (setAcia ds a k') a = some { d with kind := .acia k' }
  | [], _, ho => by simp [owner] at ho
  | e :: ds, d, ho => by
    rw [owner_cons] at ho
    rw [setAcia]
    split at ho
    · next hc => cases ho; simp [hc, owner_cons]
    · next hc => simp only [hc, Bool.false_eq_true, if_false, owner_cons]; exact owner_setAcia ho

/-- Two device lists with the same plans have owners with the same plan. -/
theorem owner_plan : ∀ {ds es : List Device}, ds.map Device.plan = es.map Device.plan → ∀ a : Word,
    (owner ds a).map Device.plan = (owner es a).map Device.plan
  | [], [], _, _ => rfl
  | [], _ :: _, h, _ => by simp at h
  | _ :: _, [], h, _ => by simp at h
  | d :: ds, e :: es, h, a => by
    simp only [List.map_cons, List.cons.injEq] at h
    have hs : d.start = e.start ∧ d.stop = e.stop := by
      have := h.1
      cases hd : d.kind <;> cases he : e.kind <;> simp_all [Device.plan]
    have hc : d.contains a = e.contains a := by simp [Device.contains, hs.1, hs.2]
    rw [owner_cons, owner_cons, hc]
    split
    · simpa using h.1
    · exact owner_plan h.2 a

/-- What the plan of an owner says about accesses: nothing of it depends on an ACIA's contents. -/
theorem isMemory_eq (s : State) (a : Word) :
    s.isMemory a = ((owner s.devices a).map Device.plan).any (fun p => p.acia.isNone) := by
  unfold State.isMemory
  cases h : owner s.devices a with
  | none => rfl
  | some d => obtain ⟨_, _, _, k⟩ := d; cases k <;> rfl

theorem isRom_eq (s : State) (a : Word) :
    s.isRom a = ((owner s.devices a).map Device.plan).any (fun p => p.readOnly == some true) := by
  unfold State.isRom
  cases h : owner s.devices a with
  | none => rfl
  | some d => obtain ⟨_, _, _, k⟩ := d; cases k with
    | acia => rfl
    | memory r => cases r <;> rfl

theorem isRam_eq (s : State) (a : Word) :
    s.isRam a = ((owner s.devices a).map Device.plan).any (fun p => p.readOnly == some false) := by
  unfold State.isRam
  cases h : owner s.devices a with
  | none => rfl
  | some d => obtain ⟨_, _, _, k⟩ := d; cases k with
    | acia => rfl
    | memory r => cases r <;> rfl

theorem SamePlatform.refl (s : State) : SamePlatform s s := ⟨rfl, rfl, rfl, rfl, rfl⟩

theorem SamePlatform.trans {s t u : State} (h : SamePlatform s t) (h' : SamePlatform t u) : SamePlatform s u :=
  ⟨h'.1.trans h.1, h'.2.1.trans h.2.1, h'.2.2.1.trans h.2.2.1, h'.2.2.2.1.trans h.2.2.2.1, h'.2.2.2.2.trans h.2.2.2.2⟩

theorem SamePlatform.isMemory {s t : State} (h : SamePlatform s t) (a : Word) : t.isMemory a = s.isMemory a := by
  rw [isMemory_eq, isMemory_eq, owner_plan h.2.2.2.2 a]

theorem SamePlatform.isRom {s t : State} (h : SamePlatform s t) (a : Word) : t.isRom a = s.isRom a := by
  rw [isRom_eq, isRom_eq, owner_plan h.2.2.2.2 a]

theorem SamePlatform.isRam {s t : State} (h : SamePlatform s t) (a : Word) : t.isRam a = s.isRam a := by
  rw [isRam_eq, isRam_eq, owner_plan h.2.2.2.2 a]

/-- Whether a read completes, from the owner's plan. -/
theorem readable_eq (s : State) (a : Word) :
    s.readable a = ((owner s.devices a).map Device.plan).any (fun p =>
      match p.acia with
      | none => true
      | some q => (aciaReadReg q.1 (a.toNat - p.start)).isSome) := by
  unfold State.readable
  cases h : owner s.devices a with
  | none => rfl
  | some d => obtain ⟨_, _, _, k⟩ := d; cases k <;> rfl

/-- Whether a write completes, from the owner's plan. -/
theorem writable_eq (s : State) (a : Word) :
    s.writable a = ((owner s.devices a).map Device.plan).any (fun p =>
      match p.acia with
      | none => p.readOnly == some false
      | some q => (aciaWriteReg q.1 (a.toNat - p.start)).isSome) := by
  unfold State.writable
  cases h : owner s.devices a with
  | none => rfl
  | some d => obtain ⟨_, _, _, k⟩ := d; cases k with
    | acia => rfl
    | memory r => cases r <;> rfl

theorem SamePlatform.readable {s t : State} (h : SamePlatform s t) (a : Word) : t.readable a = s.readable a := by
  rw [readable_eq, readable_eq, owner_plan h.2.2.2.2 a]

theorem SamePlatform.writable {s t : State} (h : SamePlatform s t) (a : Word) : t.writable a = s.writable a := by
  rw [writable_eq, writable_eq, owner_plan h.2.2.2.2 a]

/-! ### The ACIA's accesses keep its parameters -/

theorem cpuRead_params (base n : Nat) (k : Acia) (r : AciaReg) :
    (k.cpuRead base n r).acia.layout = k.layout ∧ (k.cpuRead base n r).acia.rxCap = k.rxCap ∧
      (k.cpuRead base n r).acia.txCap = k.txCap := by
  cases r <;> simp only [Acia.cpuRead, Acia.readStatus, Acia.readData, and_self]
  cases h : k.rx <;> simp

theorem raiseIfEnabled_params (k : Acia) :
    k.raiseIfEnabled.acia.layout = k.layout ∧ k.raiseIfEnabled.acia.rxCap = k.rxCap ∧
      k.raiseIfEnabled.acia.txCap = k.txCap := by
  unfold Acia.raiseIfEnabled; split <;> simp

theorem aciaWrite_params (v : Byte) (k : Acia) (r : AciaReg) :
    (k.write v r).acia.layout = k.layout ∧ (k.write v r).acia.rxCap = k.rxCap ∧ (k.write v r).acia.txCap = k.txCap := by
  cases r <;> simp only [Acia.write, Acia.writeData, Acia.programmedReset, and_self]
  · exact raiseIfEnabled_params _
  · unfold Acia.writeControl6850
    split
    · simp [Acia.programmedReset]
    · exact raiseIfEnabled_params _

/-! ### What a read can do -/

/-- A read that completes: memory answers and nothing changes, or an ACIA register answers. -/
theorem read8_cases {s : State} {a : Word} {r : Got Byte} (h : read8 s a = .ok r) :
    (s.isMemory a = true ∧ r = { val := s.memByte a, st := s }) ∨
    ∃ d k reg, owner s.devices a = some d ∧ d.kind = .acia k ∧ aciaReadReg k.layout (d.offset a) = some reg ∧
      r = { val := (k.cpuRead d.start s.draws reg).val,
            st := { s with devices := setAcia s.devices a (k.cpuRead d.start s.draws reg).acia,
                           draws := (k.cpuRead d.start s.draws reg).draws } } := by
  unfold read8 at h
  cases ho : owner s.devices a with
  | none => simp [ho] at h
  | some d =>
    simp only [ho] at h
    cases hk : d.kind with
    | memory ro =>
      simp only [hk, Except.ok.injEq] at h
      refine .inl ⟨?_, h.symm⟩
      obtain ⟨_, _, _, k⟩ := d
      subst hk
      simp [State.isMemory, ho]
    | acia k =>
      simp only [hk] at h
      cases hr : aciaReadReg k.layout (d.offset a) with
      | none => simp [hr] at h
      | some reg =>
        simp only [hr, Except.ok.injEq] at h
        exact .inr ⟨d, k, reg, rfl, hk, hr, h.symm⟩

/-- A read changes ACIAs and draw counters only. -/
theorem read8_frame {s : State} {a : Word} {r : Got Byte} (h : read8 s a = .ok r) :
    r.st = { s with devices := r.st.devices, draws := r.st.draws } := by
  rcases read8_cases h with ⟨_, rfl⟩ | ⟨d, k, reg, _, _, _, rfl⟩ <;> rfl

theorem read8_platform {s : State} {a : Word} {r : Got Byte} (h : read8 s a = .ok r) : SamePlatform s r.st := by
  rcases read8_cases h with ⟨_, rfl⟩ | ⟨d, k, reg, ho, hk, _, rfl⟩
  · exact .refl s
  · obtain ⟨h1, h2, h3⟩ := cpuRead_params d.start s.draws k reg
    exact ⟨rfl, rfl, rfl, rfl, plans_setAcia h1 h2 h3 ho hk⟩

/-- A read of memory completes with the byte memory holds. -/
theorem read8_memory {s : State} {a : Word} (h : s.isMemory a = true) :
    read8 s a = .ok { val := s.memByte a, st := s } := by
  unfold State.isMemory at h
  unfold read8
  cases ho : owner s.devices a with
  | none => simp [ho] at h
  | some d =>
    obtain ⟨_, _, _, k⟩ := d
    cases k with
    | memory => rfl
    | acia => simp [ho] at h

/-- A read completes exactly where `readable` says. -/
theorem read8_completes_iff (s : State) (a : Word) : (∃ r, read8 s a = .ok r) ↔ s.readable a = true := by
  unfold read8 State.readable
  cases owner s.devices a with
  | none => simp
  | some d =>
    cases hk : d.kind with
    | memory => simp [hk]
    | acia k => simp only [hk]; cases hr : aciaReadReg k.layout (d.offset a) <;> simp

/-! ### What a write can do -/

/-- A write that completes: a byte of RAM is written, or an ACIA register is. -/
theorem write8_cases {s t : State} {a : Word} {v : Byte} (h : write8 s a v = .ok t) :
    (s.isRam a = true ∧ t = { s with mem := s.mem.write a.toNat v }) ∨
    ∃ d k reg, owner s.devices a = some d ∧ d.kind = .acia k ∧ aciaWriteReg k.layout (d.offset a) = some reg ∧
      t = { s with devices := setAcia s.devices a (k.write v reg).acia,
                   irqPending := s.irqPending || (k.write v reg).assertIrq } := by
  unfold write8 at h
  cases ho : owner s.devices a with
  | none => simp [ho] at h
  | some d =>
    simp only [ho] at h
    cases hk : d.kind with
    | memory ro =>
      cases ro with
      | true => simp [hk] at h
      | false =>
        simp only [hk, Except.ok.injEq] at h
        refine .inl ⟨?_, h.symm⟩
        obtain ⟨_, _, _, k⟩ := d
        subst hk
        simp [State.isRam, ho]
    | acia k =>
      simp only [hk] at h
      cases hr : aciaWriteReg k.layout (d.offset a) with
      | none => simp [hr] at h
      | some reg =>
        simp only [hr, Except.ok.injEq] at h
        exact .inr ⟨d, k, reg, rfl, hk, hr, h.symm⟩

/-- A write changes memory, ACIAs and the IRQ latch only. -/
theorem write8_frame {s t : State} {a : Word} {v : Byte} (h : write8 s a v = .ok t) :
    t = { s with devices := t.devices, mem := t.mem, irqPending := t.irqPending } := by
  rcases write8_cases h with ⟨_, rfl⟩ | ⟨d, k, reg, _, _, _, rfl⟩ <;> rfl

theorem write8_platform {s t : State} {a : Word} {v : Byte} (h : write8 s a v = .ok t) : SamePlatform s t := by
  rcases write8_cases h with ⟨_, rfl⟩ | ⟨d, k, reg, ho, hk, _, rfl⟩
  · exact .refl s
  · obtain ⟨h1, h2, h3⟩ := aciaWrite_params v k reg
    exact ⟨rfl, rfl, rfl, rfl, plans_setAcia h1 h2 h3 ho hk⟩

/-- A write leaves every byte of memory alone but the one at its address. -/
theorem write8_memByte_ne {s t : State} {a b : Word} {v : Byte} (h : write8 s a v = .ok t) (hb : b ≠ a) :
    t.memByte b = s.memByte b := by
  rcases write8_cases h with ⟨_, rfl⟩ | ⟨d, k, reg, _, _, _, rfl⟩
  · exact Memory.read_write_ne v (fun e => hb (BitVec.eq_of_toNat_eq e)) s.mem
  · rfl

/-- A write of RAM completes. -/
theorem write8_ram {s : State} {a : Word} (v : Byte) (h : s.isRam a = true) :
    write8 s a v = .ok { s with mem := s.mem.write a.toNat v } := by
  unfold State.isRam at h
  unfold write8
  cases ho : owner s.devices a with
  | none => simp [ho] at h
  | some d =>
    obtain ⟨_, _, _, k⟩ := d
    cases k with
    | memory r => cases r with
      | false => rfl
      | true => simp [ho] at h
    | acia => simp [ho] at h

/-- A write completes exactly where `writable` says. -/
theorem write8_completes_iff (s : State) (a : Word) (v : Byte) :
    (∃ t, write8 s a v = .ok t) ↔ s.writable a = true := by
  unfold write8 State.writable
  cases owner s.devices a with
  | none => simp
  | some d =>
    cases hk : d.kind with
    | memory r => cases r <;> simp [hk]
    | acia k => simp only [hk]; cases hr : aciaWriteReg k.layout (d.offset a) <;> simp

theorem isMemory_of_isRam {s : State} {a : Word} (h : s.isRam a = true) : s.isMemory a = true := by
  unfold State.isRam at h
  unfold State.isMemory
  cases ho : owner s.devices a with
  | none => simp [ho] at h
  | some d =>
    obtain ⟨_, _, _, k⟩ := d
    cases k with
    | memory => rfl
    | acia => simp [ho] at h

end Sys2Proof.Machine
end

