-- ==== Sys2Proof/Laws/State.lean ====
section
/-! SUPPORT. One lemma per field per named update of the state, so that no proof unfolds an update. -/

namespace Sys2Proof.Machine

variable (s : State) (v : Byte) (c : Bool)

@[simp] theorem Flags.setNZ_c (f : Flags) : (f.setNZ v).c = f.c := rfl
@[simp] theorem Flags.setNZ_z (f : Flags) : (f.setNZ v).z = (v == 0) := rfl
@[simp] theorem Flags.setNZ_i (f : Flags) : (f.setNZ v).i = f.i := rfl
@[simp] theorem Flags.setNZ_d (f : Flags) : (f.setNZ v).d = f.d := rfl
@[simp] theorem Flags.setNZ_b (f : Flags) : (f.setNZ v).b = f.b := rfl
@[simp] theorem Flags.setNZ_v (f : Flags) : (f.setNZ v).v = f.v := rfl
@[simp] theorem Flags.setNZ_n (f : Flags) : (f.setNZ v).n = v.getLsbD 7 := rfl

@[simp] theorem State.loadA_a : (s.loadA v).a = v := rfl
@[simp] theorem State.loadA_x : (s.loadA v).x = s.x := rfl
@[simp] theorem State.loadA_y : (s.loadA v).y = s.y := rfl
@[simp] theorem State.loadA_sp : (s.loadA v).sp = s.sp := rfl
@[simp] theorem State.loadA_pc : (s.loadA v).pc = s.pc := rfl
@[simp] theorem State.loadA_ir : (s.loadA v).ir = s.ir := rfl
@[simp] theorem State.loadA_instAddr : (s.loadA v).instAddr = s.instAddr := rfl
@[simp] theorem State.loadA_flags : (s.loadA v).flags = s.flags.setNZ v := rfl
@[simp] theorem State.loadA_opTrap : (s.loadA v).opTrap = s.opTrap := rfl
@[simp] theorem State.loadA_irqPending : (s.loadA v).irqPending = s.irqPending := rfl
@[simp] theorem State.loadA_nmiPending : (s.loadA v).nmiPending = s.nmiPending := rfl
@[simp] theorem State.loadA_phase : (s.loadA v).phase = s.phase := rfl
@[simp] theorem State.loadA_busStart : (s.loadA v).busStart = s.busStart := rfl
@[simp] theorem State.loadA_busEnd : (s.loadA v).busEnd = s.busEnd := rfl
@[simp] theorem State.loadA_devices : (s.loadA v).devices = s.devices := rfl
@[simp] theorem State.loadA_mem : (s.loadA v).mem = s.mem := rfl
@[simp] theorem State.loadA_behaviour : (s.loadA v).behaviour = s.behaviour := rfl
@[simp] theorem State.loadA_undefLens : (s.loadA v).undefLens = s.undefLens := rfl
@[simp] theorem State.loadA_draws : (s.loadA v).draws = s.draws := rfl

@[simp] theorem State.loadX_a : (s.loadX v).a = s.a := rfl
@[simp] theorem State.loadX_x : (s.loadX v).x = v := rfl
@[simp] theorem State.loadX_y : (s.loadX v).y = s.y := rfl
@[simp] theorem State.loadX_sp : (s.loadX v).sp = s.sp := rfl
@[simp] theorem State.loadX_pc : (s.loadX v).pc = s.pc := rfl
@[simp] theorem State.loadX_ir : (s.loadX v).ir = s.ir := rfl
@[simp] theorem State.loadX_instAddr : (s.loadX v).instAddr = s.instAddr := rfl
@[simp] theorem State.loadX_flags : (s.loadX v).flags = s.flags.setNZ v := rfl
@[simp] theorem State.loadX_opTrap : (s.loadX v).opTrap = s.opTrap := rfl
@[simp] theorem State.loadX_irqPending : (s.loadX v).irqPending = s.irqPending := rfl
@[simp] theorem State.loadX_nmiPending : (s.loadX v).nmiPending = s.nmiPending := rfl
@[simp] theorem State.loadX_phase : (s.loadX v).phase = s.phase := rfl
@[simp] theorem State.loadX_busStart : (s.loadX v).busStart = s.busStart := rfl
@[simp] theorem State.loadX_busEnd : (s.loadX v).busEnd = s.busEnd := rfl
@[simp] theorem State.loadX_devices : (s.loadX v).devices = s.devices := rfl
@[simp] theorem State.loadX_mem : (s.loadX v).mem = s.mem := rfl
@[simp] theorem State.loadX_behaviour : (s.loadX v).behaviour = s.behaviour := rfl
@[simp] theorem State.loadX_undefLens : (s.loadX v).undefLens = s.undefLens := rfl
@[simp] theorem State.loadX_draws : (s.loadX v).draws = s.draws := rfl

@[simp] theorem State.loadY_a : (s.loadY v).a = s.a := rfl
@[simp] theorem State.loadY_x : (s.loadY v).x = s.x := rfl
@[simp] theorem State.loadY_y : (s.loadY v).y = v := rfl
@[simp] theorem State.loadY_sp : (s.loadY v).sp = s.sp := rfl
@[simp] theorem State.loadY_pc : (s.loadY v).pc = s.pc := rfl
@[simp] theorem State.loadY_ir : (s.loadY v).ir = s.ir := rfl
@[simp] theorem State.loadY_instAddr : (s.loadY v).instAddr = s.instAddr := rfl
@[simp] theorem State.loadY_flags : (s.loadY v).flags = s.flags.setNZ v := rfl
@[simp] theorem State.loadY_opTrap : (s.loadY v).opTrap = s.opTrap := rfl
@[simp] theorem State.loadY_irqPending : (s.loadY v).irqPending = s.irqPending := rfl
@[simp] theorem State.loadY_nmiPending : (s.loadY v).nmiPending = s.nmiPending := rfl
@[simp] theorem State.loadY_phase : (s.loadY v).phase = s.phase := rfl
@[simp] theorem State.loadY_busStart : (s.loadY v).busStart = s.busStart := rfl
@[simp] theorem State.loadY_busEnd : (s.loadY v).busEnd = s.busEnd := rfl
@[simp] theorem State.loadY_devices : (s.loadY v).devices = s.devices := rfl
@[simp] theorem State.loadY_mem : (s.loadY v).mem = s.mem := rfl
@[simp] theorem State.loadY_behaviour : (s.loadY v).behaviour = s.behaviour := rfl
@[simp] theorem State.loadY_undefLens : (s.loadY v).undefLens = s.undefLens := rfl
@[simp] theorem State.loadY_draws : (s.loadY v).draws = s.draws := rfl

@[simp] theorem illegal_a : (illegal s).a = s.a := rfl
@[simp] theorem illegal_x : (illegal s).x = s.x := rfl
@[simp] theorem illegal_y : (illegal s).y = s.y := rfl
@[simp] theorem illegal_sp : (illegal s).sp = s.sp := rfl
@[simp] theorem illegal_pc : (illegal s).pc = s.pc := rfl
@[simp] theorem illegal_ir : (illegal s).ir = s.ir := rfl
@[simp] theorem illegal_instAddr : (illegal s).instAddr = s.instAddr := rfl
@[simp] theorem illegal_flags : (illegal s).flags = s.flags := rfl
@[simp] theorem illegal_opTrap : (illegal s).opTrap = true := rfl
@[simp] theorem illegal_irqPending : (illegal s).irqPending = s.irqPending := rfl
@[simp] theorem illegal_nmiPending : (illegal s).nmiPending = s.nmiPending := rfl
@[simp] theorem illegal_phase : (illegal s).phase = s.phase := rfl
@[simp] theorem illegal_busStart : (illegal s).busStart = s.busStart := rfl
@[simp] theorem illegal_busEnd : (illegal s).busEnd = s.busEnd := rfl
@[simp] theorem illegal_devices : (illegal s).devices = s.devices := rfl
@[simp] theorem illegal_mem : (illegal s).mem = s.mem := rfl
@[simp] theorem illegal_behaviour : (illegal s).behaviour = s.behaviour := rfl
@[simp] theorem illegal_undefLens : (illegal s).undefLens = s.undefLens := rfl
@[simp] theorem illegal_draws : (illegal s).draws = s.draws := rfl

@[simp] theorem branch_a : (branch s c v).a = s.a := by
  cases c <;> rfl
@[simp] theorem branch_x : (branch s c v).x = s.x := by
  cases c <;> rfl
@[simp] theorem branch_y : (branch s c v).y = s.y := by
  cases c <;> rfl
@[simp] theorem branch_sp : (branch s c v).sp = s.sp := by
  cases c <;> rfl
@[simp] theorem branch_pc : (branch s c v).pc = if c then relAddress s.pc v else s.pc := by
  cases c <;> rfl
@[simp] theorem branch_ir : (branch s c v).ir = s.ir := by
  cases c <;> rfl
@[simp] theorem branch_instAddr : (branch s c v).instAddr = s.instAddr := by
  cases c <;> rfl
@[simp] theorem branch_flags : (branch s c v).flags = s.flags := by
  cases c <;> rfl
@[simp] theorem branch_opTrap : (branch s c v).opTrap = s.opTrap := by
  cases c <;> rfl
@[simp] theorem branch_irqPending : (branch s c v).irqPending = s.irqPending := by
  cases c <;> rfl
@[simp] theorem branch_nmiPending : (branch s c v).nmiPending = s.nmiPending := by
  cases c <;> rfl
@[simp] theorem branch_phase : (branch s c v).phase = s.phase := by
  cases c <;> rfl
@[simp] theorem branch_busStart : (branch s c v).busStart = s.busStart := by
  cases c <;> rfl
@[simp] theorem branch_busEnd : (branch s c v).busEnd = s.busEnd := by
  cases c <;> rfl
@[simp] theorem branch_devices : (branch s c v).devices = s.devices := by
  cases c <;> rfl
@[simp] theorem branch_mem : (branch s c v).mem = s.mem := by
  cases c <;> rfl
@[simp] theorem branch_behaviour : (branch s c v).behaviour = s.behaviour := by
  cases c <;> rfl
@[simp] theorem branch_undefLens : (branch s c v).undefLens = s.undefLens := by
  cases c <;> rfl
@[simp] theorem branch_draws : (branch s c v).draws = s.draws := by
  cases c <;> rfl

end Sys2Proof.Machine
end

