-- ==== Sys2Proof/Laws/Ops.lean ====
section
/-! SUPPORT. What the shared operations, every meaning and every step can do, said once: they are chains of bus reads, bus writes and changes
of CPU registers, so a relation that those keep is kept by all of them. -/

namespace Sys2Proof.Machine

/-- A relation between states that every access of the bus and every change of A, X, Y, SP, PC and the flags keeps. -/
structure AccessRel (R : State → State → Prop) : Prop where
  refl : ∀ s, R s s
  trans : ∀ {s t u}, R s t → R t u → R s u
  read : ∀ {s a r}, read8 s a = .ok r → R s r.st
  write : ∀ {s t a v}, write8 s a v = .ok t → R s t
  cpu : ∀ s a x y sp pc flags, R s { s with a := a, x := x, y := y, sp := sp, pc := pc, flags := flags }

/-! ### Outcomes -/

theorem finish_next {e : Except Fault State} {t : State} : finish e = .next t ↔ e = .ok t := by
  cases e <;> simp [finish]

/-- An instruction form that answers a next state: it is undefined under the behaviour and only traps, or its body completes. -/
theorem runForm_next {c : Bool} {s t : State} {e : Except Fault State} :
    runForm c s e = .next t ↔
      ((c && !s.behaviour.isCmos) = true ∧ t = illegal s) ∨ ((c && !s.behaviour.isCmos) = false ∧ e = .ok t) := by
  unfold runForm
  cases h : (c && !s.behaviour.isCmos)
  · simp [finish_next]
  · simp [eq_comm]

/-- A form defined under the behaviour runs its body. -/
theorem runForm_defined {c : Bool} {s : State} (e : Except Fault State) (h : (!c || s.behaviour.isCmos) = true) :
    runForm c s e = finish e := by
  unfold runForm
  cases c <;> simp_all

/-- A form defined under every behaviour runs its body. -/
theorem runForm_always (s : State) (e : Except Fault State) : runForm false s e = finish e := rfl

/-- A form undefined under the behaviour only traps. -/
theorem runForm_undefined {c : Bool} {s : State} (e : Except Fault State) (h : (!c || s.behaviour.isCmos) = false) :
    runForm c s e = .next (illegal s) := by
  unfold runForm
  cases c <;> simp_all

namespace AccessRel

variable {R : State → State → Prop} (hR : AccessRel R)
include hR

/-! ### The shared operations -/

theorem read16 {s : State} {a : Word} {r : Got Word} (h : Machine.read16 s a = .ok r) : R s r.st := by
  obtain ⟨lo, h1, h⟩ := bind_eq_ok.1 h
  obtain ⟨hi, h2, h⟩ := bind_eq_ok.1 h
  cases pure_eq_ok.1 h
  exact hR.trans (hR.read h1) (hR.read h2)

theorem read16zp {s : State} {z : Byte} {r : Got Word} (h : Machine.read16zp s z = .ok r) : R s r.st := by
  obtain ⟨lo, h1, h⟩ := bind_eq_ok.1 h
  obtain ⟨hi, h2, h⟩ := bind_eq_ok.1 h
  cases pure_eq_ok.1 h
  exact hR.trans (hR.read h1) (hR.read h2)

theorem ea {s : State} {m : MemOperand} {r : Got Word} (h : Machine.ea s m = .ok r) : R s r.st := by
  cases m with
  | zpi b1 | xin b1 => exact hR.read16zp h
  | iny b1 =>
    obtain ⟨p, h1, h⟩ := bind_eq_ok.1 h
    have h := pure_eq_ok.1 h
    subst h
    exact hR.read16zp (r := p) h1
  | _ => cases h; exact hR.refl s

theorem load {s : State} {m : Source} {r : Got Byte} (h : Machine.load s m = .ok r) : R s r.st := by
  cases m with
  | imm b1 => cases h; exact hR.refl s
  | mem m =>
    obtain ⟨e, h1, h⟩ := bind_eq_ok.1 h
    exact hR.trans (hR.ea h1) (hR.read h)

theorem store {s t : State} {m : MemOperand} {v : Byte} (h : Machine.store s m v = .ok t) : R s t := by
  obtain ⟨e, h1, h⟩ := bind_eq_ok.1 h
  exact hR.trans (hR.ea h1) (hR.write h)

theorem rmw {s t : State} {m : Target} {f : Flags → Byte → AluOut} (h : Machine.rmw s m f = .ok t) : R s t := by
  cases m with
  | acc => cases h; exact hR.cpu s _ s.x s.y s.sp s.pc _
  | mem m =>
    obtain ⟨e, h1, h⟩ := bind_eq_ok.1 h
    obtain ⟨r, h2, h⟩ := bind_eq_ok.1 h
    exact hR.trans (hR.trans (hR.ea h1) (hR.read h2))
      (hR.trans (hR.cpu r.st r.st.a r.st.x r.st.y r.st.sp r.st.pc _) (hR.write h))

theorem push {s t : State} {v : Byte} (h : Machine.push s v = .ok t) : R s t := by
  obtain ⟨u, h1, h⟩ := bind_eq_ok.1 h
  cases pure_eq_ok.1 h
  exact hR.trans (hR.write h1) (hR.cpu u u.a u.x u.y _ u.pc u.flags)

theorem pull {s : State} {r : Got Byte} (h : Machine.pull s = .ok r) : R s r.st :=
  hR.trans (hR.cpu s s.a s.x s.y (s.sp + 1) s.pc s.flags) (hR.read h)

theorem push16 {s t : State} {w : Word} (h : Machine.push16 s w = .ok t) : R s t := by
  obtain ⟨u, h1, h⟩ := bind_eq_ok.1 h
  exact hR.trans (hR.push h1) (hR.push h)

theorem pull16 {s : State} {r : Got Word} (h : Machine.pull16 s = .ok r) : R s r.st := by
  obtain ⟨lo, h1, h⟩ := bind_eq_ok.1 h
  obtain ⟨hi, h2, h⟩ := bind_eq_ok.1 h
  cases pure_eq_ok.1 h
  exact hR.trans (hR.pull h1) (hR.pull h2)

theorem enterVector {s t : State} {brk : Bool} {ret vec : Word} (h : Machine.enterVector s brk ret vec = .ok t) : R s t := by
  obtain ⟨u, h1, h⟩ := bind_eq_ok.1 h
  obtain ⟨w, h2, h⟩ := bind_eq_ok.1 h
  obtain ⟨v, h3, h⟩ := bind_eq_ok.1 h
  cases pure_eq_ok.1 h
  exact hR.trans (hR.cpu s s.a s.x s.y s.sp s.pc _) (hR.trans (hR.push16 h1) (hR.trans (hR.push h2)
    (hR.trans (hR.cpu w w.a w.x w.y w.sp w.pc _) (hR.trans (hR.read16 h3)
      (hR.cpu v.st v.st.a v.st.x v.st.y v.st.sp _ v.st.flags)))))

theorem returnFromInterrupt {s t : State} (h : Machine.returnFromInterrupt s = .ok t) : R s t := by
  obtain ⟨p, h1, h⟩ := bind_eq_ok.1 h
  obtain ⟨r, h2, h⟩ := bind_eq_ok.1 h
  cases pure_eq_ok.1 h
  exact hR.trans (hR.pull h1) (hR.trans (hR.cpu p.st p.st.a p.st.x p.st.y p.st.sp p.st.pc _)
    (hR.trans (hR.pull16 h2) (hR.cpu r.st r.st.a r.st.x r.st.y r.st.sp _ r.st.flags)))

theorem jmpTarget {s : State} {m : JmpMode} {r : Got Word} (h : Machine.jmpTarget s m = .ok r) : R s r.st := by
  cases m with
  | abs w => cases h; exact hR.refl s
  | ind p =>
    obtain ⟨lo, h1, h⟩ := bind_eq_ok.1 h
    obtain ⟨hi, h2, h⟩ := bind_eq_ok.1 h
    cases pure_eq_ok.1 h
    exact hR.trans (hR.read h1) (hR.read h2)
  | aix w => exact hR.read16 h

theorem loadA (s : State) (v : Byte) : R s (s.loadA v) := hR.cpu s v s.x s.y s.sp s.pc _
theorem loadX (s : State) (v : Byte) : R s (s.loadX v) := hR.cpu s s.a v s.y s.sp s.pc _
theorem loadY (s : State) (v : Byte) : R s (s.loadY v) := hR.cpu s s.a s.x v s.sp s.pc _

theorem branch (s : State) (c : Bool) (off : Byte) : R s (Machine.branch s c off) := by
  cases c
  · exact hR.refl s
  · exact hR.cpu s s.a s.x s.y s.sp _ s.flags

/-! ### The meanings: a defined instruction keeps the relation, an undefined one only traps -/

omit hR in
theorem runForm {c : Bool} {s t : State} {e : Except Fault State} (h : Machine.runForm c s e = .next t)
    (he : e = .ok t → R s t) :
    ((!c || s.behaviour.isCmos) = true ∧ R s t) ∨ ((!c || s.behaviour.isCmos) = false ∧ t = illegal s) := by
  have hn : (!c || s.behaviour.isCmos) = !(c && !s.behaviour.isCmos) := by cases c <;> simp
  rw [hn]
  exact (runForm_next.1 h).elim (fun h => .inr ⟨by rw [h.1]; rfl, h.2⟩) (fun h => .inl ⟨by rw [h.1]; rfl, he h.2⟩)

/-- A meaning that loads an operand and then changes CPU registers. -/
theorem loadThen {s t : State} {m : Source} {f : Got Byte → State}
    (hf : ∀ r, R r.st (f r)) (h : (do let v ← Machine.load s m; return f v : Except Fault State) = .ok t) : R s t := by
  obtain ⟨r, h1, h⟩ := bind_eq_ok.1 h
  cases pure_eq_ok.1 h
  exact hR.trans (hR.load h1) (hf r)

/-- A meaning that pulls a byte and then changes CPU registers. -/
theorem pullThen {s t : State} {f : Got Byte → State}
    (hf : ∀ r, R r.st (f r)) (h : (do let v ← Machine.pull s; return f v : Except Fault State) = .ok t) : R s t := by
  obtain ⟨r, h1, h⟩ := bind_eq_ok.1 h
  cases pure_eq_ok.1 h
  exact hR.trans (hR.pull h1) (hf r)

omit hR in
theorem okThen {s t u : State} (hu : R s u) (h : (.ok u : Except Fault State) = .ok t) : R s t := by
  cases h; exact hu

theorem branchOnBit {n : Nat} {value : Bool} {zp off : Byte} {s t : State}
    (h : Machine.branchOnBit n value zp off s = .next t) :
    (s.behaviour.isCmos = true ∧ R s t) ∨ (s.behaviour.isCmos = false ∧ t = illegal s) :=
  AccessRel.runForm h fun h => by
    obtain ⟨r, h1, h⟩ := bind_eq_ok.1 h
    cases pure_eq_ok.1 h
    exact hR.trans (hR.read h1) (hR.branch _ _ _)

/-- Every instruction defined under the behaviour keeps the relation, every other one only traps. -/
theorem exec {i : Instr} {s t : State} (h : Machine.exec i s = .next t) :
    (i.defined s.behaviour = true ∧ R s t) ∨ (i.defined s.behaviour = false ∧ t = illegal s) := by
  cases i with
  | lda m =>
    simp only [Machine.exec, execLda] at h
    exact AccessRel.runForm h (hR.loadThen fun r => hR.loadA _ _)
  | ldx m =>
    simp only [Machine.exec, execLdx] at h
    exact AccessRel.runForm h (hR.loadThen fun r => hR.loadX _ _)
  | ldy m =>
    simp only [Machine.exec, execLdy] at h
    exact AccessRel.runForm h (hR.loadThen fun r => hR.loadY _ _)
  | sta m =>
    simp only [Machine.exec, execSta] at h
    exact AccessRel.runForm h hR.store
  | stx m =>
    simp only [Machine.exec, execStx] at h
    exact AccessRel.runForm h hR.store
  | sty m =>
    simp only [Machine.exec, execSty] at h
    exact AccessRel.runForm h hR.store
  | stz m =>
    simp only [Machine.exec, execStz] at h
    exact AccessRel.runForm h hR.store
  | tax =>
    simp only [Machine.exec, execTax] at h
    exact AccessRel.runForm h (AccessRel.okThen (hR.loadX _ _))
  | tay =>
    simp only [Machine.exec, execTay] at h
    exact AccessRel.runForm h (AccessRel.okThen (hR.loadY _ _))
  | txa =>
    simp only [Machine.exec, execTxa] at h
    exact AccessRel.runForm h (AccessRel.okThen (hR.loadA _ _))
  | tya =>
    simp only [Machine.exec, execTya] at h
    exact AccessRel.runForm h (AccessRel.okThen (hR.loadA _ _))
  | tsx =>
    simp only [Machine.exec, execTsx] at h
    exact AccessRel.runForm h (AccessRel.okThen (hR.loadX _ _))
  | txs =>
    simp only [Machine.exec, execTxs] at h
    exact AccessRel.runForm h (AccessRel.okThen (hR.cpu s s.a s.x s.y _ s.pc s.flags))
  | pha =>
    simp only [Machine.exec, execPha] at h
    exact AccessRel.runForm h hR.push
  | php =>
    simp only [Machine.exec, execPhp] at h
    exact AccessRel.runForm h hR.push
  | pla =>
    simp only [Machine.exec, execPla] at h
    exact AccessRel.runForm h (hR.pullThen fun r => hR.loadA _ _)
  | plp =>
    simp only [Machine.exec, execPlp] at h
    exact AccessRel.runForm h (hR.pullThen fun r => hR.cpu r.st r.st.a r.st.x r.st.y r.st.sp r.st.pc _)
  | phx =>
    simp only [Machine.exec, execPhx] at h
    exact AccessRel.runForm h hR.push
  | phy =>
    simp only [Machine.exec, execPhy] at h
    exact AccessRel.runForm h hR.push
  | plx =>
    simp only [Machine.exec, execPlx] at h
    exact AccessRel.runForm h (hR.pullThen fun r => hR.loadX _ _)
  | ply =>
    simp only [Machine.exec, execPly] at h
    exact AccessRel.runForm h (hR.pullThen fun r => hR.loadY _ _)
  | adc m =>
    simp only [Machine.exec, execAdc] at h
    exact AccessRel.runForm h (hR.loadThen fun r => hR.cpu r.st _ r.st.x r.st.y r.st.sp r.st.pc _)
  | sbc m =>
    simp only [Machine.exec, execSbc] at h
    exact AccessRel.runForm h (hR.loadThen fun r => hR.cpu r.st _ r.st.x r.st.y r.st.sp r.st.pc _)
  | and m =>
    simp only [Machine.exec, execAnd] at h
    exact AccessRel.runForm h (hR.loadThen fun r => hR.loadA _ _)
  | ora m =>
    simp only [Machine.exec, execOra] at h
    exact AccessRel.runForm h (hR.loadThen fun r => hR.loadA _ _)
  | eor m =>
    simp only [Machine.exec, execEor] at h
    exact AccessRel.runForm h (hR.loadThen fun r => hR.loadA _ _)
  | cmp m =>
    simp only [Machine.exec, execCmp] at h
    exact AccessRel.runForm h (hR.loadThen fun r => hR.cpu r.st r.st.a r.st.x r.st.y r.st.sp r.st.pc _)
  | cpx m =>
    simp only [Machine.exec, execCpx] at h
    exact AccessRel.runForm h (hR.loadThen fun r => hR.cpu r.st r.st.a r.st.x r.st.y r.st.sp r.st.pc _)
  | cpy m =>
    simp only [Machine.exec, execCpy] at h
    exact AccessRel.runForm h (hR.loadThen fun r => hR.cpu r.st r.st.a r.st.x r.st.y r.st.sp r.st.pc _)
  | bit m =>
    simp only [Machine.exec, execBit] at h
    exact AccessRel.runForm h (hR.loadThen fun r => hR.cpu r.st r.st.a r.st.x r.st.y r.st.sp r.st.pc _)
  | inx =>
    simp only [Machine.exec, execInx] at h
    exact AccessRel.runForm h (AccessRel.okThen (hR.loadX _ _))
  | iny =>
    simp only [Machine.exec, execIny] at h
    exact AccessRel.runForm h (AccessRel.okThen (hR.loadY _ _))
  | dex =>
    simp only [Machine.exec, execDex] at h
    exact AccessRel.runForm h (AccessRel.okThen (hR.loadX _ _))
  | dey =>
    simp only [Machine.exec, execDey] at h
    exact AccessRel.runForm h (AccessRel.okThen (hR.loadY _ _))
  | asl m =>
    simp only [Machine.exec, execAsl] at h
    exact AccessRel.runForm h hR.rmw
  | lsr m =>
    simp only [Machine.exec, execLsr] at h
    exact AccessRel.runForm h hR.rmw
  | rol m =>
    simp only [Machine.exec, execRol] at h
    exact AccessRel.runForm h hR.rmw
  | ror m =>
    simp only [Machine.exec, execRor] at h
    exact AccessRel.runForm h hR.rmw
  | inc m =>
    simp only [Machine.exec, execInc] at h
    exact AccessRel.runForm h hR.rmw
  | dec m =>
    simp only [Machine.exec, execDec] at h
    exact AccessRel.runForm h hR.rmw
  | tsb m =>
    simp only [Machine.exec, execTsb] at h
    exact AccessRel.runForm h hR.rmw
  | trb m =>
    simp only [Machine.exec, execTrb] at h
    exact AccessRel.runForm h hR.rmw
  | rmb0 zp =>
    simp only [Machine.exec, execRmb0, rmbZeroPage] at h
    exact AccessRel.runForm h hR.rmw
  | rmb1 zp =>
    simp only [Machine.exec, execRmb1, rmbZeroPage] at h
    exact AccessRel.runForm h hR.rmw
  | rmb2 zp =>
    simp only [Machine.exec, execRmb2, rmbZeroPage] at h
    exact AccessRel.runForm h hR.rmw
  | rmb3 zp =>
    simp only [Machine.exec, execRmb3, rmbZeroPage] at h
    exact AccessRel.runForm h hR.rmw
  | rmb4 zp =>
    simp only [Machine.exec, execRmb4, rmbZeroPage] at h
    exact AccessRel.runForm h hR.rmw
  | rmb5 zp =>
    simp only [Machine.exec, execRmb5, rmbZeroPage] at h
    exact AccessRel.runForm h hR.rmw
  | rmb6 zp =>
    simp only [Machine.exec, execRmb6, rmbZeroPage] at h
    exact AccessRel.runForm h hR.rmw
  | rmb7 zp =>
    simp only [Machine.exec, execRmb7, rmbZeroPage] at h
    exact AccessRel.runForm h hR.rmw
  | smb0 zp =>
    simp only [Machine.exec, execSmb0, smbZeroPage] at h
    exact AccessRel.runForm h hR.rmw
  | smb1 zp =>
    simp only [Machine.exec, execSmb1, smbZeroPage] at h
    exact AccessRel.runForm h hR.rmw
  | smb2 zp =>
    simp only [Machine.exec, execSmb2, smbZeroPage] at h
    exact AccessRel.runForm h hR.rmw
  | smb3 zp =>
    simp only [Machine.exec, execSmb3, smbZeroPage] at h
    exact AccessRel.runForm h hR.rmw
  | smb4 zp =>
    simp only [Machine.exec, execSmb4, smbZeroPage] at h
    exact AccessRel.runForm h hR.rmw
  | smb5 zp =>
    simp only [Machine.exec, execSmb5, smbZeroPage] at h
    exact AccessRel.runForm h hR.rmw
  | smb6 zp =>
    simp only [Machine.exec, execSmb6, smbZeroPage] at h
    exact AccessRel.runForm h hR.rmw
  | smb7 zp =>
    simp only [Machine.exec, execSmb7, smbZeroPage] at h
    exact AccessRel.runForm h hR.rmw
  | bcc off =>
    simp only [Machine.exec, execBcc] at h
    exact AccessRel.runForm h (AccessRel.okThen (hR.branch _ _ _))
  | bcs off =>
    simp only [Machine.exec, execBcs] at h
    exact AccessRel.runForm h (AccessRel.okThen (hR.branch _ _ _))
  | beq off =>
    simp only [Machine.exec, execBeq] at h
    exact AccessRel.runForm h (AccessRel.okThen (hR.branch _ _ _))
  | bne off =>
    simp only [Machine.exec, execBne] at h
    exact AccessRel.runForm h (AccessRel.okThen (hR.branch _ _ _))
  | bmi off =>
    simp only [Machine.exec, execBmi] at h
    exact AccessRel.runForm h (AccessRel.okThen (hR.branch _ _ _))
  | bpl off =>
    simp only [Machine.exec, execBpl] at h
    exact AccessRel.runForm h (AccessRel.okThen (hR.branch _ _ _))
  | bvc off =>
    simp only [Machine.exec, execBvc] at h
    exact AccessRel.runForm h (AccessRel.okThen (hR.branch _ _ _))
  | bvs off =>
    simp only [Machine.exec, execBvs] at h
    exact AccessRel.runForm h (AccessRel.okThen (hR.branch _ _ _))
  | bra off =>
    simp only [Machine.exec, execBra] at h
    exact AccessRel.runForm h (AccessRel.okThen (hR.branch _ _ _))
  | bbr0 zp off =>
    simp only [Machine.exec, execBbr0] at h
    exact hR.branchOnBit h
  | bbr1 zp off =>
    simp only [Machine.exec, execBbr1] at h
    exact hR.branchOnBit h
  | bbr2 zp off =>
    simp only [Machine.exec, execBbr2] at h
    exact hR.branchOnBit h
  | bbr3 zp off =>
    simp only [Machine.exec, execBbr3] at h
    exact hR.branchOnBit h
  | bbr4 zp off =>
    simp only [Machine.exec, execBbr4] at h
    exact hR.branchOnBit h
  | bbr5 zp off =>
    simp only [Machine.exec, execBbr5] at h
    exact hR.branchOnBit h
  | bbr6 zp off =>
    simp only [Machine.exec, execBbr6] at h
    exact hR.branchOnBit h
  | bbr7 zp off =>
    simp only [Machine.exec, execBbr7] at h
    exact hR.branchOnBit h
  | bbs0 zp off =>
    simp only [Machine.exec, execBbs0] at h
    exact hR.branchOnBit h
  | bbs1 zp off =>
    simp only [Machine.exec, execBbs1] at h
    exact hR.branchOnBit h
  | bbs2 zp off =>
    simp only [Machine.exec, execBbs2] at h
    exact hR.branchOnBit h
  | bbs3 zp off =>
    simp only [Machine.exec, execBbs3] at h
    exact hR.branchOnBit h
  | bbs4 zp off =>
    simp only [Machine.exec, execBbs4] at h
    exact hR.branchOnBit h
  | bbs5 zp off =>
    simp only [Machine.exec, execBbs5] at h
    exact hR.branchOnBit h
  | bbs6 zp off =>
    simp only [Machine.exec, execBbs6] at h
    exact hR.branchOnBit h
  | bbs7 zp off =>
    simp only [Machine.exec, execBbs7] at h
    exact hR.branchOnBit h
  | jmp m =>
    simp only [Machine.exec, execJmp] at h
    exact AccessRel.runForm h fun h => by
      obtain ⟨r, h1, h⟩ := bind_eq_ok.1 h
      cases pure_eq_ok.1 h
      exact hR.trans (hR.jmpTarget h1) (hR.cpu r.st r.st.a r.st.x r.st.y r.st.sp _ r.st.flags)
  | jsr target =>
    simp only [Machine.exec, execJsr] at h
    exact AccessRel.runForm h fun h => by
      obtain ⟨r, h1, h⟩ := bind_eq_ok.1 h
      cases pure_eq_ok.1 h
      exact hR.trans (hR.push16 h1) (hR.cpu r r.a r.x r.y r.sp _ r.flags)
  | rts =>
    simp only [Machine.exec, execRts] at h
    exact AccessRel.runForm h fun h => by
      obtain ⟨r, h1, h⟩ := bind_eq_ok.1 h
      cases pure_eq_ok.1 h
      exact hR.trans (hR.pull16 h1) (hR.cpu r.st r.st.a r.st.x r.st.y r.st.sp _ r.st.flags)
  | brk =>
    simp only [Machine.exec, execBrk] at h
    exact AccessRel.runForm h fun h => by
      split at h
      · exact AccessRel.okThen (hR.refl s) h
      · exact hR.enterVector h
  | rti =>
    simp only [Machine.exec, execRti] at h
    exact AccessRel.runForm h hR.returnFromInterrupt
  | clc =>
    simp only [Machine.exec, execClc] at h
    exact AccessRel.runForm h (AccessRel.okThen (hR.cpu s s.a s.x s.y s.sp s.pc _))
  | sec =>
    simp only [Machine.exec, execSec] at h
    exact AccessRel.runForm h (AccessRel.okThen (hR.cpu s s.a s.x s.y s.sp s.pc _))
  | cli =>
    simp only [Machine.exec, execCli] at h
    exact AccessRel.runForm h (AccessRel.okThen (hR.cpu s s.a s.x s.y s.sp s.pc _))
  | sei =>
    simp only [Machine.exec, execSei] at h
    exact AccessRel.runForm h (AccessRel.okThen (hR.cpu s s.a s.x s.y s.sp s.pc _))
  | cld =>
    simp only [Machine.exec, execCld] at h
    exact AccessRel.runForm h (AccessRel.okThen (hR.cpu s s.a s.x s.y s.sp s.pc _))
  | sed =>
    simp only [Machine.exec, execSed] at h
    exact AccessRel.runForm h (AccessRel.okThen (hR.cpu s s.a s.x s.y s.sp s.pc _))
  | clv =>
    simp only [Machine.exec, execClv] at h
    exact AccessRel.runForm h (AccessRel.okThen (hR.cpu s s.a s.x s.y s.sp s.pc _))
  | nop =>
    simp only [Machine.exec, execNop] at h
    exact AccessRel.runForm h (AccessRel.okThen (hR.refl s))
  | undefined _ =>
    cases h; exact .inr ⟨rfl, rfl⟩

/-! ### The step -/

/-- Fetching keeps a relation that a change of IR and instAddr keeps too. -/
theorem fetch (hI : ∀ s ir ia, R s { s with ir := ir, instAddr := ia }) {s : State} {r : Got Instr}
    (h : Machine.fetch s = .ok r) : R s r.st := by
  have hB : ∀ {s : State} {r : Got Byte}, Machine.fetchByte s = .ok r → R s r.st := by
    intro s r h
    obtain ⟨b, h1, h⟩ := bind_eq_ok.1 h
    cases pure_eq_ok.1 h
    exact hR.trans (hR.read h1) (hR.cpu b.st b.st.a b.st.x b.st.y b.st.sp _ b.st.flags)
  obtain ⟨op, h1, h⟩ := bind_eq_ok.1 h
  obtain ⟨o, h2, h⟩ := bind_eq_ok.1 h
  cases pure_eq_ok.1 h
  obtain ⟨b, h3, h1⟩ := bind_eq_ok.1 h1
  cases pure_eq_ok.1 h1
  refine hR.trans (hR.trans (hI s s.ir s.pc) (hR.trans (hB h3) (hI b.st b.val b.st.instAddr))) ?_
  unfold fetchOperands at h2
  split at h2
  · cases h2; exact hR.refl _
  · obtain ⟨b1, h4, h2⟩ := bind_eq_ok.1 h2
    cases pure_eq_ok.1 h2
    exact hB h4
  · obtain ⟨b1, h4, h2⟩ := bind_eq_ok.1 h2
    obtain ⟨b2, h5, h2⟩ := bind_eq_ok.1 h2
    cases pure_eq_ok.1 h2
    exact hR.trans (hB h4) (hB h5)

/-- A step keeps a relation that changes of IR, instAddr, opTrap and the interrupt latches keep too. -/
theorem step (hI : ∀ s ir ia, R s { s with ir := ir, instAddr := ia })
    (hL : ∀ s trap irq nmi, R s { s with opTrap := trap, irqPending := irq, nmiPending := nmi })
    {s t : State} (h : Machine.step s = .next t) : R s t := by
  unfold Machine.step at h
  split at h
  · refine hR.trans (hL s false s.irqPending s.nmiPending) ?_
    generalize ({ s with opTrap := false } : State) = u at h ⊢
    unfold stepRunning at h
    split at h
    · exact hR.trans (hL u u.opTrap u.irqPending false) (hR.enterVector (finish_next.1 h))
    · exact hR.trans (hL u u.opTrap false u.nmiPending) (hR.enterVector (finish_next.1 h))
    · split at h
      · next f hf =>
        refine hR.trans (hR.fetch hI hf) ?_
        rcases hR.exec h with ⟨_, h⟩ | ⟨_, rfl⟩
        · exact h
        · exact hL f.st true f.st.irqPending f.st.nmiPending
      · cases h
  · cases h
  · cases h

end AccessRel

end Sys2Proof.Machine
end

