-- ==== Sys2Proof/Laws/Wf.lean ====
section
/-! SUPPORT. The invariant `State.wf`: what it says as a proposition, and that both accesses of the bus keep it. -/

namespace Sys2Proof.Machine

/-! ### What the invariant says -/

theorem Acia.wf_iff (k : Acia) :
    k.wf = true ↔ 1 ≤ k.rxCap ∧ 1 ≤ k.txCap ∧ k.rx.length ≤ k.rxCap ∧ k.tx.length ≤ k.txCap := by
  simp [Acia.wf, and_assoc]

theorem Device.wf_iff (d : Device) :
    d.wf = true ↔ d.start ≤ d.stop ∧ d.stop ≤ 0xFFFF ∧ ∀ k, d.kind = .acia k → k.wf = true := by
  cases h : d.kind <;> simp [Device.wf, h, and_assoc]

theorem devicesWf_iff (lo hi : Nat) (ds : List Device) :
    devicesWf lo hi ds = true ↔
      (∀ d ∈ ds, d.wf = true ∧ lo ≤ d.start ∧ d.stop ≤ hi) ∧ ds.Pairwise fun d e => d.stop < e.start := by
  simp [devicesWf, and_assoc]

theorem State.wf_iff (s : State) :
    s.wf = true ↔
      s.mem.wf = true ∧ (∀ c ∈ s.mem, s.isMemory (BitVec.ofNat 16 c.1) = true) ∧ s.busStart ≤ s.busEnd ∧
        s.busEnd ≤ 0xFFFF ∧ devicesWf s.busStart s.busEnd s.devices = true := by
  simp [State.wf, cellOwned, and_assoc]

/-- The invariant of a state whose bus is another one's up to the contents of ACIAs. -/
theorem State.wf_of {s t : State} (hs : s.wf = true) (hp : SamePlatform s t) (hm : t.mem.wf = true)
    (hc : ∀ c ∈ t.mem, c ∈ s.mem ∨ s.isMemory (BitVec.ofNat 16 c.1) = true)
    (hd : devicesWf s.busStart s.busEnd t.devices = true) : t.wf = true := by
  rw [State.wf_iff] at hs ⊢
  refine ⟨hm, fun c hx => ?_, by rw [hp.2.1, hp.2.2.1]; exact hs.2.2.1, by rw [hp.2.2.1]; exact hs.2.2.2.1, ?_⟩
  · rw [hp.isMemory]
    exact (hc c hx).elim (hs.2.1 c) id
  · rw [hp.2.1, hp.2.2.1]; exact hd

/-! ### Replacing an ACIA -/

theorem mem_setAcia {k : Acia} {a : Word} {e : Device} : ∀ {ds : List Device}, e ∈ setAcia ds a k →
    e ∈ ds ∨ ∃ d ∈ ds, e = { d with kind := .acia k }
  | [], h => by simp [setAcia] at h
  | d :: ds, h => by
    rw [setAcia] at h
    split at h
    · rcases List.mem_cons.1 h with rfl | h
      · exact .inr ⟨d, List.mem_cons_self, rfl⟩
      · exact .inl (List.mem_cons_of_mem _ h)
    · rcases List.mem_cons.1 h with rfl | h
      · exact .inl List.mem_cons_self
      · rcases mem_setAcia h with h | ⟨d', hd', rfl⟩
        · exact .inl (List.mem_cons_of_mem _ h)
        · exact .inr ⟨d', List.mem_cons_of_mem _ hd', rfl⟩

theorem pairwise_setAcia {k : Acia} {a : Word} : ∀ {ds : List Device}, (ds.Pairwise fun d e => d.stop < e.start) →
    (setAcia ds a k).Pairwise fun d e => d.stop < e.start
  | [], _ => by simp [setAcia]
  | d :: ds, h => by
    obtain ⟨h1, h2⟩ := List.pairwise_cons.1 h
    rw [setAcia]
    split
    · exact List.pairwise_cons.2 ⟨h1, h2⟩
    · refine List.pairwise_cons.2 ⟨fun e he => ?_, pairwise_setAcia h2⟩
      rcases mem_setAcia he with he | ⟨d', hd', rfl⟩
      · exact h1 e he
      · exact h1 d' hd'

theorem devicesWf_setAcia {lo hi : Nat} {ds : List Device} {a : Word} {k : Acia} (h : devicesWf lo hi ds = true)
    (hk : k.wf = true) : devicesWf lo hi (setAcia ds a k) = true := by
  rw [devicesWf_iff] at h ⊢
  refine ⟨fun e he => ?_, pairwise_setAcia h.2⟩
  rcases mem_setAcia he with he | ⟨d, hd, rfl⟩
  · exact h.1 e he
  · obtain ⟨h1, h2, h3⟩ := h.1 d hd
    rw [Device.wf_iff] at h1 ⊢
    exact ⟨⟨h1.1, h1.2.1, by rintro _ ⟨⟩; exact hk⟩, h2, h3⟩

/-- An ACIA on a bus that meets the invariant is within its parameters. -/
theorem acia_wf {lo hi : Nat} {ds : List Device} {a : Word} {d : Device} {k : Acia} (h : devicesWf lo hi ds = true)
    (ho : owner ds a = some d) (hk : d.kind = .acia k) : k.wf = true :=
  ((Device.wf_iff d).1 ((devicesWf_iff lo hi ds).1 h |>.1 d (owner_mem ho)).1).2.2 k hk

/-! ### The ACIA's accesses keep its FIFOs bounded -/

theorem enqueue_length {cap : Nat} {q : List Byte} (v : Byte) (hc : 1 ≤ cap) (hq : q.length ≤ cap) :
    (enqueue cap q v).length ≤ cap := by
  unfold enqueue
  split <;> simp <;> omega

theorem cpuRead_wf {k : Acia} (base draws : Nat) (r : AciaReg) (h : k.wf = true) :
    (k.cpuRead base draws r).acia.wf = true := by
  rw [Acia.wf_iff] at *
  cases r <;> simp only [Acia.cpuRead, Acia.readStatus, Acia.readData] <;> try exact h
  cases hx : k.rx <;> simp_all
  omega

theorem windowRead_wf {k : Acia} (base draws : Nat) (r : AciaReg) (h : k.wf = true) :
    (k.windowRead base draws r).acia.wf = true := by
  rw [Acia.wf_iff] at *
  cases r <;> simp only [Acia.windowRead] <;> try exact h
  cases hx : k.rx <;> simp_all

theorem raiseIfEnabled_wf {k : Acia} (h : k.wf = true) : k.raiseIfEnabled.acia.wf = true := by
  unfold Acia.raiseIfEnabled
  split <;> exact h

theorem programmedReset_wf {k : Acia} (h : k.wf = true) : k.programmedReset.wf = true := by
  rw [Acia.wf_iff] at *
  simp [Acia.programmedReset, h.1, h.2.1]

theorem aciaWrite_wf {k : Acia} (v : Byte) (r : AciaReg) (h : k.wf = true) : (k.write v r).acia.wf = true := by
  cases r with
  | data =>
    rw [Acia.wf_iff] at *
    exact ⟨h.1, h.2.1, h.2.2.1, enqueue_length v h.2.1 h.2.2.2⟩
  | status => exact programmedReset_wf h
  | command => exact raiseIfEnabled_wf h
  | control6551 => exact h
  | control6850 =>
    simp only [Acia.write, Acia.writeControl6850]
    split
    · exact programmedReset_wf h
    · exact raiseIfEnabled_wf h

theorem rxWrite_wf {k : Acia} (v : Byte) (h : k.wf = true) : (k.rxWrite v).acia.wf = true := by
  rw [Acia.wf_iff] at *
  exact ⟨h.1, h.2.1, enqueue_length v h.1 h.2.2.1, h.2.2.2⟩

theorem txRead_wf {k : Acia} {b : Byte} {o : AciaEvent} (h : k.wf = true) (ho : k.txRead = some (b, o)) :
    o.acia.wf = true := by
  unfold Acia.txRead at ho
  split at ho
  · cases ho
  · next v tx hx =>
    cases ho
    rw [Acia.wf_iff] at *
    rw [hx, List.length_cons] at h
    exact ⟨h.1, h.2.1, h.2.2.1, by simp only; omega⟩

/-! ### The accesses of the bus keep the invariant -/

theorem read8_wf {s : State} {a : Word} {r : Got Byte} (h : read8 s a = .ok r) (hs : s.wf = true) : r.st.wf = true := by
  have hw := (State.wf_iff s).1 hs
  have hp := read8_platform h
  rcases read8_cases h with ⟨_, rfl⟩ | ⟨d, k, reg, ho, hk, _, rfl⟩
  · exact hs
  · exact State.wf_of hs hp hw.1 (fun c hc => .inl hc)
      (devicesWf_setAcia hw.2.2.2.2 (cpuRead_wf _ _ _ (acia_wf hw.2.2.2.2 ho hk)))

theorem write8_wf {s t : State} {a : Word} {v : Byte} (h : write8 s a v = .ok t) (hs : s.wf = true) : t.wf = true := by
  have hw := (State.wf_iff s).1 hs
  have hp := write8_platform h
  rcases write8_cases h with ⟨hr, rfl⟩ | ⟨d, k, reg, ho, hk, _, rfl⟩
  · refine State.wf_of hs hp (Memory.wf_write a.isLt hw.1) (fun c hc => ?_) hw.2.2.2.2
    rcases Memory.mem_write hc with hc | rfl
    · exact .inl hc
    · exact .inr (by simpa using isMemory_of_isRam hr)
  · exact State.wf_of hs hp hw.1 (fun c hc => .inl hc)
      (devicesWf_setAcia hw.2.2.2.2 (aciaWrite_wf _ _ (acia_wf hw.2.2.2.2 ho hk)))

end Sys2Proof.Machine
end

