-- ==== Sys2Proof/Laws/Stack.lean ====
section
/-! SUPPORT. The stack and the 16-bit accesses, where every byte they touch is memory: one equation per operation. -/

namespace Sys2Proof.Machine

/-! ### Stack addresses -/

theorem stackAddr_eq (sp : Byte) : stackAddr sp = 0x0100 + sp.setWidth 16 := by
  apply BitVec.eq_of_toNat_eq
  have := sp.isLt
  rw [stackAddr, joinBytes_toNat, BitVec.toNat_add, BitVec.toNat_setWidth]
  simp
  omega

theorem stackAddr_inj {a b : Byte} : stackAddr a = stackAddr b ↔ a = b := by
  refine ⟨fun h => ?_, fun h => h ▸ rfl⟩
  rw [← lowByte_joinBytes a 0x01, ← lowByte_joinBytes b 0x01]
  exact congrArg lowByte h

/-- Which device kind owns an address depends on the devices alone. -/
theorem isMemory_of_devices {s t : State} (h : t.devices = s.devices) (a : Word) : t.isMemory a = s.isMemory a := by
  unfold State.isMemory; rw [h]

theorem isRam_of_devices {s t : State} (h : t.devices = s.devices) (a : Word) : t.isRam a = s.isRam a := by
  unfold State.isRam; rw [h]

/-! ### Pushes and pulls -/

theorem push_ram {s : State} (v : Byte) (h : s.isRam (stackAddr s.sp) = true) :
    push s v = .ok { s with mem := s.mem.write (stackAddr s.sp).toNat v, sp := s.sp - 1 } := by
  rw [push, write8_ram v h]; rfl

theorem pull_memory {s : State} (h : s.isMemory (stackAddr (s.sp + 1)) = true) :
    pull s = .ok { val := s.memByte (stackAddr (s.sp + 1)), st := { s with sp := s.sp + 1 } } :=
  read8_memory (s := { s with sp := s.sp + 1 }) h

theorem push16_ram {s : State} (w : Word) (h : s.isRam (stackAddr s.sp) = true)
    (h' : s.isRam (stackAddr (s.sp - 1)) = true) :
    push16 s w = .ok
      { s with
        mem := (s.mem.write (stackAddr s.sp).toNat (highByte w)).write (stackAddr (s.sp - 1)).toNat (lowByte w)
        sp := s.sp - 2 } := by
  have e : s.sp - 1 - 1 = s.sp - 2 := by rw [BitVec.sub_sub]; rfl
  rw [push16, push_ram _ h]
  show push { s with mem := s.mem.write (stackAddr s.sp).toNat (highByte w), sp := s.sp - 1 } (lowByte w) = _
  rw [push_ram (s := { s with mem := s.mem.write (stackAddr s.sp).toNat (highByte w), sp := s.sp - 1 }) _ h']
  simp only [e]

theorem pull16_memory {s : State} (h : s.isMemory (stackAddr (s.sp + 1)) = true)
    (h' : s.isMemory (stackAddr (s.sp + 2)) = true) :
    pull16 s = .ok
      { val := joinBytes (s.memByte (stackAddr (s.sp + 1))) (s.memByte (stackAddr (s.sp + 2)))
        st := { s with sp := s.sp + 2 } } := by
  have e : s.sp + 1 + 1 = s.sp + 2 := by rw [BitVec.add_assoc]; rfl
  rw [pull16, pull_memory h]
  show (pull { s with sp := s.sp + 1 } >>= _) = _
  rw [pull_memory (s := { s with sp := s.sp + 1 }) (e.symm ▸ h')]
  simp only [e]
  rfl

/-! ### Pairs of bytes -/

theorem read16_memory {s : State} {a : Word} (h : s.isMemory a = true) (h' : s.isMemory (a + 1) = true) :
    read16 s a = .ok { val := joinBytes (s.memByte a) (s.memByte (a + 1)), st := s } := by
  rw [read16, read8_memory h]
  show (read8 s (a + 1) >>= _) = _
  rw [read8_memory h']
  rfl

theorem read16zp_memory {s : State} {z : Byte} (h : s.isMemory (z.setWidth 16) = true)
    (h' : s.isMemory ((z + 1).setWidth 16) = true) :
    read16zp s z = .ok { val := joinBytes (s.memByte (z.setWidth 16)) (s.memByte ((z + 1).setWidth 16)), st := s } := by
  rw [read16zp, read8_memory h]
  show (read8 s ((z + 1).setWidth 16) >>= _) = _
  rw [read8_memory h']
  rfl

/-! ### Memory bytes after writes -/

theorem memByte_write {s : State} (hs : s.mem.wf = true) (a b : Word) (v : Byte) :
    State.memByte { s with mem := s.mem.write a.toNat v } b = if b = a then v else s.memByte b := by
  rw [State.memByte, Memory.read_write _ _ _ _ hs]
  simp only [BitVec.toNat_inj, State.memByte]

end Sys2Proof.Machine
end

