-- ==== Sys2Proof/Laws/Environment.lean ====
section
/-! SUPPORT. The pieces of the host's actions: what each leaves of the invariant and of the platform. -/

namespace Sys2Proof.Machine

/-! ### After a fault -/

/-- The devices after a fault are the same devices up to what their ACIAs hold. -/
theorem anyDevices_plans : ∀ (n : Nat) (ds : List Device), (anyDevices n ds).map Device.plan = ds.map Device.plan
  | _, [] => rfl
  | n, d :: ds => by
    unfold anyDevices
    split
    · simp [anyDevices_plans]
    · next k hk => simp [anyDevices_plans, plan_kind hk (k' := anyAcia n k) rfl rfl rfl]

theorem mem_anyDevices : ∀ {n : Nat} {ds : List Device} {e : Device}, e ∈ anyDevices n ds → e ∈ ds ∨ ∃ d ∈ ds, ∃ k m, d.kind = .acia k ∧ e = { d with kind := .acia (anyAcia m k) }
  | _, [], _, h => by simp [anyDevices] at h
  | n, d :: ds, e, h => by
    unfold anyDevices at h
    split at h
    · rcases List.mem_cons.1 h with rfl | h
      · exact .inl List.mem_cons_self
      · rcases mem_anyDevices h with h | ⟨d', hd', k, m, h⟩
        · exact .inl (List.mem_cons_of_mem _ h)
        · exact .inr ⟨d', List.mem_cons_of_mem _ hd', k, m, h⟩
    · next k hk =>
      rcases List.mem_cons.1 h with rfl | h
      · exact .inr ⟨d, List.mem_cons_self, k, n, hk, rfl⟩
      · rcases mem_anyDevices h with h | ⟨d', hd', k, m, h⟩
        · exact .inl (List.mem_cons_of_mem _ h)
        · exact .inr ⟨d', List.mem_cons_of_mem _ hd', k, m, h⟩

theorem anyDevices_pairwise : ∀ {n : Nat} {ds : List Device}, (ds.Pairwise fun d e => d.stop < e.start) → (anyDevices n ds).Pairwise fun d e => d.stop < e.start
  | _, [], _ => by simp [anyDevices]
  | n, d :: ds, h => by
    obtain ⟨h1, h2⟩ := List.pairwise_cons.1 h
    have aux : ∀ m, ∀ e ∈ anyDevices m ds, d.stop < e.start := by
      intro m e he
      rcases mem_anyDevices he with h | ⟨d', hd', k, m, _, rfl⟩
      · exact h1 _ h
      · exact h1 d' hd'
    unfold anyDevices
    split
    · exact List.pairwise_cons.2 ⟨aux _, anyDevices_pairwise h2⟩
    · exact List.pairwise_cons.2 ⟨aux _, anyDevices_pairwise h2⟩

theorem anyDevices_wf {lo hi n : Nat} {ds : List Device} (h : devicesWf lo hi ds = true) : devicesWf lo hi (anyDevices n ds) = true := by
  rw [devicesWf_iff] at h ⊢
  refine ⟨fun e he => ?_, anyDevices_pairwise h.2⟩
  rcases mem_anyDevices he with he | ⟨d, hd, k, m, hk, rfl⟩
  · exact h.1 e he
  · obtain ⟨h1, h2, h3⟩ := h.1 d hd
    rw [Device.wf_iff] at h1 ⊢
    refine ⟨⟨h1.1, h1.2.1, ?_⟩, h2, h3⟩
    rintro _ ⟨⟩
    have := h1.2.2 k hk
    rw [Acia.wf_iff] at this ⊢
    simp [anyAcia, this.1, this.2.1]

/-- Drawn memory is in canonical form and lies in Memory devices. -/
theorem anyMemory_wf (s : State) (n : Nat) : (anyMemory s n).wf = true ∧ ∀ c ∈ anyMemory s n, s.isMemory (BitVec.ofNat 16 c.1) = true := by
  unfold anyMemory
  have : ∀ (l : List (Nat × Byte)) (m : Memory), m.wf = true → (∀ c ∈ m, s.isMemory (BitVec.ofNat 16 c.1) = true) →
     (l.foldl (fun m c => if decide (c.1 < 0x10000) && s.isMemory (BitVec.ofNat 16 c.1) then m.write c.1 c.2 else m) m).wf = true ∧ 
     ∀ c ∈ (l.foldl (fun m c => if decide (c.1 < 0x10000) && s.isMemory (BitVec.ofNat 16 c.1) then m.write c.1 c.2 else m) m), s.isMemory (BitVec.ofNat 16 c.1) = true := by
    intro l
    induction l with
    | nil => intro m h1 h2; exact ⟨h1, h2⟩
    | cons c l ih =>
      intro m h1 h2
      rw [List.foldl_cons]
      split
      · next h =>
        simp only [Bool.and_eq_true, decide_eq_true_eq] at h
        refine ih _ (Memory.wf_write h.1 h1) (fun e he => ?_)
        rcases Memory.mem_write he with he | rfl
        · exact h2 e he
        · exact h.2
      · exact ih _ h1 h2
  exact this _ [] rfl (by simp)

/-- A fault leaves the platform as it is. -/
theorem afterFault_platform (s : State) (k a) : SamePlatform s (afterFault s k a) :=
  ⟨rfl, rfl, rfl, rfl, anyDevices_plans _ _⟩

theorem afterFault_wf {s : State} (hs : s.wf = true) (k a) : (afterFault s k a).wf = true := by
  have hw := (State.wf_iff s).1 hs
  exact State.wf_of hs (afterFault_platform s k a) (anyMemory_wf s _).1 (fun c hc => .inr ((anyMemory_wf s _).2 c hc)) (anyDevices_wf hw.2.2.2.2)

theorem orFaulted_wf {s : State} {r e} (hs : s.wf = true) (h : ∀ t, e = .ok t → t.wf = true) : (orFaulted s r e).st.wf = true := by
  unfold orFaulted
  split
  · exact h _ rfl
  · exact afterFault_wf hs _ _
  · exact hs
  · exact hs

theorem loadFrom_wf : ∀ (vs : List Byte) {s : State} (a : Word), s.wf = true → (loadFrom s a vs).st.wf = true
  | [], _, _, hs => hs
  | v :: vs, s, a, hs => by
    unfold loadFrom
    split
    · next t h => exact loadFrom_wf vs _ (write8_wf h hs)
    · exact hs
    · exact hs
    · exact hs

theorem aciaAt_some {s : State} {a : Word} {k : Acia} (h : s.aciaAt a = some k) : ∃ d, owner s.devices a = some d ∧ d.kind = .acia k := by
  unfold State.aciaAt at h
  split at h
  · next n st sp k' ho => cases h; exact ⟨_, ho, rfl⟩
  · cases h

/-- An event at the serial side of an ACIA keeps the invariant. -/
theorem afterEvent_wf {s : State} {a : Word} {k : Acia} {o : AciaEvent} (hs : s.wf = true) (h : s.aciaAt a = some k)
   (hl : o.acia.layout = k.layout) (hr : o.acia.rxCap = k.rxCap) (ht : o.acia.txCap = k.txCap) (hw : o.acia.wf = true) : (s.afterEvent a o).wf = true := by
  obtain ⟨d, ho, hk⟩ := aciaAt_some h
  have hv := (State.wf_iff s).1 hs
  exact State.wf_of hs (t := s.afterEvent a o) ⟨rfl, rfl, rfl, rfl, plans_setAcia hl hr ht ho hk⟩ hv.1 (fun c hc => .inl hc) (devicesWf_setAcia hv.2.2.2.2 hw)

theorem aciaAt_wf {s : State} {a : Word} {k : Acia} (hs : s.wf = true) (h : s.aciaAt a = some k) : k.wf = true := by
  obtain ⟨d, ho, hk⟩ := aciaAt_some h
  exact acia_wf ((State.wf_iff s).1 hs).2.2.2.2 ho hk

/-! ### Adding a device -/
theorem mem_insertDevice {d e : Device} : ∀ {ds : List Device}, e ∈ insertDevice d ds ↔ e = d ∨ e ∈ ds
  | [] => by simp [insertDevice]
  | x :: ds => by
    unfold insertDevice
    split
    · simp
    · simp only [List.mem_cons, mem_insertDevice (ds := ds)]; tauto

/-- Insertion adds the device and nothing else. -/
theorem insertDevice_perm (d : Device) : ∀ (ds : List Device), (insertDevice d ds).Perm (d :: ds)
  | [] => .refl _
  | x :: ds => by
    unfold insertDevice
    split
    · exact .refl _
    · exact (List.Perm.cons x (insertDevice_perm d ds)).trans (.swap ..)

/-- Insertion of a device that overlaps none keeps the order and the disjointness. -/
theorem insertDevice_pairwise {d : Device} (hd : d.start ≤ d.stop) : ∀ {ds : List Device}, (∀ e ∈ ds, e.start ≤ e.stop) → (∀ e ∈ ds, ¬ (e.start ≤ d.stop ∧ d.start ≤ e.stop)) → (ds.Pairwise fun d e => d.stop < e.start) →
    (insertDevice d ds).Pairwise fun d e => d.stop < e.start
  | [], _, _, _ => by simp [insertDevice]
  | x :: ds, hw, hn, h => by
    obtain ⟨h1, h2⟩ := List.pairwise_cons.1 h
    have hx := hn x List.mem_cons_self
    have hxw := hw x List.mem_cons_self
    unfold insertDevice
    split
    · next hlt =>
      refine List.pairwise_cons.2 ⟨fun e he => ?_, h⟩
      rcases List.mem_cons.1 he with rfl | he
      · omega
      · have := h1 e he; omega
    · next hlt =>
      refine List.pairwise_cons.2 ⟨fun e he => ?_, insertDevice_pairwise hd (fun e he => hw e (List.mem_cons_of_mem _ he)) (fun e he => hn e (List.mem_cons_of_mem _ he)) h2⟩
      rcases mem_insertDevice.1 he with rfl | he
      · omega
      · exact h1 e he

/-- On a bus of disjoint devices the device that contains an address owns it. -/
theorem owner_unique {ds : List Device} (h : ds.Pairwise fun d e => d.stop < e.start) {d : Device} {a : Word} (hd : d ∈ ds) (hc : d.contains a = true) : owner ds a = some d := by
  induction ds with
  | nil => simp at hd
  | cons x ds ih =>
    obtain ⟨h1, h2⟩ := List.pairwise_cons.1 h
    rw [owner_cons]
    split
    · next hx =>
      rcases List.mem_cons.1 hd with rfl | hd
      · rfl
      · have := h1 d hd
        simp only [Device.contains, Bool.and_eq_true, decide_eq_true_eq] at hx hc
        omega
    · next hx =>
      rcases List.mem_cons.1 hd with rfl | hd
      · exact absurd hc hx
      · exact ih h2 hd

theorem Memory.wf_filter (p : Host.Cell → Bool) : ∀ {m : Memory}, m.wf = true → Memory.wf (m.filter p) = true ∧ ∀ a, (∀ c ∈ m.head?, a < c.1) → ∀ c ∈ (m.filter p).head?, a < c.1
  | [], _ => ⟨rfl, by simp⟩
  | c :: m, h => by
    obtain ⟨h1, h2⟩ := Memory.wf_filter p (Memory.wf_tail h)
    rw [List.filter_cons]
    split
    · exact ⟨Memory.wf_cons (Memory.wf_addr_lt h) (Memory.wf_value_ne h) h1 (h2 c.1 (Memory.wf_head_lt h)), by simp⟩
    · refine ⟨h1, fun a ha => h2 a fun e he => ?_⟩
      have := Memory.wf_head_lt h e he
      have := ha c (by simp)
      omega

theorem storeBytes_wf : ∀ (vs : List Byte) {m : Memory} {a : Nat}, m.wf = true → a + vs.length ≤ 0x10000 → (storeBytes m a vs).wf = true
  | [], _, _, h, _ => h
  | v :: vs, m, a, h, hl => by
    rw [List.length_cons] at hl
    exact storeBytes_wf vs (Memory.wf_write (by omega) h) (by omega)

theorem mem_storeBytes : ∀ (vs : List Byte) {m : Memory} {a : Nat} {c : Host.Cell}, c ∈ storeBytes m a vs → c ∈ m ∨ (a ≤ c.1 ∧ c.1 < a + vs.length)
  | [], _, _, _, h => .inl h
  | v :: vs, m, a, c, h => by
    rcases mem_storeBytes vs h with h | h
    · rcases Memory.mem_write h with h | rfl
      · exact .inl h
      · exact .inr ⟨by simp, by simp⟩
    · exact .inr ⟨by omega, by rw [List.length_cons]; omega⟩

/-- A filter that keeps every entry of an address leaves what it reads as. -/
theorem Memory.read_filter {p : Host.Cell → Bool} {a : Nat} (h : ∀ v, p (a, v) = true) : ∀ m : Memory, Memory.read (m.filter p) a = m.read a
  | [] => rfl
  | (b, v) :: m => by
    by_cases hb : a = b
    · subst hb; simp [h v, Memory.read]
    · rw [List.filter_cons]
      split <;> simp [Memory.read, hb, Memory.read_filter h m]

/-- Bytes stored outside an address leave what it reads as. -/
theorem read_storeBytes_outside {x : Nat} : ∀ (vs : List Byte) {m : Memory} {a : Nat}, (x < a ∨ a + vs.length ≤ x) → (storeBytes m a vs).read x = m.read x
  | [], _, _, _ => rfl
  | v :: vs, m, a, h => by
    rw [List.length_cons] at h
    exact (read_storeBytes_outside vs (by omega)).trans (Memory.read_write_ne v (by omega) m)

/-- Bytes stored from an address on read back in order. -/
theorem read_storeBytes {i : Nat} : ∀ (vs : List Byte) {m : Memory} {a : Nat}, m.wf = true → a + vs.length ≤ 0x10000 → i < vs.length →
    (storeBytes m a vs).read (a + i) = vs.getD i unlistedByte
  | [], _, _, _, _, hi => by simp at hi
  | v :: vs, m, a, h, hl, hi => by
    rw [List.length_cons] at hl hi
    have hw := Memory.wf_write (v := v) (by omega : a < 0x10000) h
    match i, hi with
    | 0, _ =>
      refine (read_storeBytes_outside vs (by omega)).trans ?_
      rw [Memory.read_write _ _ _ _ h]; simp
    | i + 1, hi =>
      have := read_storeBytes vs hw (a := a + 1) (i := i) (by omega) (by omega)
      rw [Nat.add_right_comm, Nat.add_assoc] at this
      exact this

/-- A filter that drops every entry of an address leaves it unlisted. -/
theorem Memory.read_filter_out {p : Host.Cell → Bool} {a : Nat} (h : ∀ v, p (a, v) = false) : ∀ m : Memory, Memory.read (m.filter p) a = unlistedByte
  | [] => rfl
  | (b, v) :: m => by
    by_cases hb : a = b
    · subst hb; simp [h v, Memory.read_filter_out h m]
    · rw [List.filter_cons]
      split <;> simp [Memory.read, hb, Memory.read_filter_out h m]

theorem MemInit.bytes_length (size : Nat) (i : MemInit) : (i.bytes size).length ≤ size := by
  cases i <;> simp only [MemInit.bytes]
  · split <;> simp
  · simp

/-- What device construction lets through. -/
theorem construct_ok {name base size spec n} (h : construct name base size spec = .ok n) : n.device.wf = true ∧ (n.contents = [] ∨ ((∃ r, n.device.kind = .memory r) ∧ n.device.start + n.contents.length ≤ n.device.stop + 1)) := by
  unfold construct at h
  split at h
  · cases h
  · next hc =>
    simp only [not_or, not_lt] at hc
    simp only at h
    split at h
    · next ro init =>
      cases h
      refine ⟨(Device.wf_iff _).2 ⟨by simp only; omega, by simp only; omega, by simp⟩, .inr ⟨⟨_, rfl⟩, ?_⟩⟩
      have := MemInit.bytes_length size.toNat init
      simp only; omega
    · split at h
      · cases h
      · next hh =>
        cases h
        refine ⟨(Device.wf_iff _).2 ⟨by simp only; omega, by simp only; omega, ?_⟩, .inl rfl⟩
        rintro _ ⟨⟩
        rw [Acia.wf_iff]; simp [Acia.powerOn]; omega
    · cases h
    · cases h
    · cases h

/-- An address is memory when a Memory device owns it. -/
theorem isMemory_iff (s : State) (a : Word) : s.isMemory a = true ↔ ∃ d r, owner s.devices a = some d ∧ d.kind = .memory r := by
  unfold State.isMemory
  cases owner s.devices a with
  | none => simp
  | some d => obtain ⟨_, _, _, k⟩ := d; cases k <;> simp

/-- Adding a constructed device keeps the invariant. -/
theorem addDevice_wf {s : State} {n : NewDevice} (hs : s.wf = true) (hn : n.device.wf = true) (hc : n.contents = [] ∨ ((∃ r, n.device.kind = .memory r) ∧ n.device.start + n.contents.length ≤ n.device.stop + 1)) : (addDevice s n).st.wf = true := by
  unfold addDevice
  split
  · exact hs
  · next ho =>
    split
    · exact hs
    · next hwin =>
      simp only [not_or, not_lt] at hwin
      have ho' : ∀ e ∈ s.devices, ¬ (e.start ≤ n.device.stop ∧ n.device.start ≤ e.stop) := by
        intro e he h
        apply ho
        rw [List.any_eq_true]
        exact ⟨e, he, by simp [Device.overlaps, h.1, h.2]⟩
      obtain ⟨h1, h2, h3, h4, h5⟩ := (State.wf_iff s).1 hs
      obtain ⟨h6, h7⟩ := (devicesWf_iff _ _ _).1 h5
      obtain ⟨hn1, hn2, hn3⟩ := (Device.wf_iff _).1 hn
      have hpw := insertDevice_pairwise hn1 (fun e he => ((Device.wf_iff e).1 (h6 e he).1).1) ho' h7
      rw [State.wf_iff]
      refine ⟨?_, ?_, h3, h4, ?_⟩
      · apply storeBytes_wf _ (Memory.wf_filter _ h1).1
        rcases hc with hc | ⟨_, hc⟩
        · rw [hc]; simp; omega
        · omega
      · intro c hc'
        show State.isMemory { s with devices := _, mem := _ } _ = true
        rw [isMemory_iff]
        rcases mem_storeBytes _ hc' with hm | hm
        · rw [List.mem_filter] at hm
          obtain ⟨d, r, hd, hk⟩ := (isMemory_iff s _).1 (h2 c hm.1)
          exact ⟨d, r, owner_unique hpw (mem_insertDevice.2 (.inr (owner_mem hd))) (owner_contains hd), hk⟩
        · rcases hc with hc | ⟨⟨r, hk⟩, hc⟩
          · rw [hc] at hm; simp at hm; omega
          · refine ⟨n.device, r, owner_unique hpw (mem_insertDevice.2 (.inl rfl)) ?_, hk⟩
            simp only [Device.contains, BitVec.toNat_ofNat, Bool.and_eq_true, decide_eq_true_eq]
            omega
      · rw [devicesWf_iff]
        refine ⟨fun e he => ?_, hpw⟩
        rcases mem_insertDevice.1 he with rfl | he
        · exact ⟨hn, hwin.1, hwin.2⟩
        · exact h6 e he

theorem resetAcias_wf {s : State} (hs : s.wf = true) : State.wf { s with devices := resetAcias s.devices } = true := by
  have hv := (State.wf_iff s).1 hs
  refine State.wf_of hs ⟨rfl, rfl, rfl, rfl, ?_⟩ hv.1 (fun c hc => .inl hc) ?_
  · simp only [resetAcias, List.map_map]
    apply List.map_congr_left
    intro d _
    simp only [Function.comp]
    split
    · rfl
    · next k hk => exact plan_kind hk rfl rfl rfl
  · have h := (devicesWf_iff _ _ _).1 hv.2.2.2.2
    rw [devicesWf_iff]
    constructor
    · intro e he
      simp only [resetAcias, List.mem_map] at he
      obtain ⟨d, hd, rfl⟩ := he
      have := h.1 d hd
      split
      · exact this
      · next k hk =>
        obtain ⟨h1, h2, h3⟩ := this
        rw [Device.wf_iff] at h1 ⊢
        exact ⟨⟨h1.1, h1.2.1, by rintro _ ⟨⟩; exact programmedReset_wf (h1.2.2 k hk)⟩, h2, h3⟩
    · simp only [resetAcias]
      rw [List.pairwise_map]
      refine h.2.imp ?_
      intro a b hab
      split <;> split <;> exact hab

/-- A window read keeps the invariant. -/
theorem windowRead8_wf {s : State} {a : Word} {r : Got Byte} (hs : s.wf = true) (h : windowRead8 s a = .ok r) : r.st.wf = true := by
  have hv := (State.wf_iff s).1 hs
  unfold windowRead8 at h
  split at h
  · cases h
  · next d ho =>
    split at h
    · cases h; exact hs
    · next k hk =>
      split at h
      · cases h
      · next reg hr =>
        simp only [Except.ok.injEq] at h
        subst h
        have hp : (k.windowRead d.start s.draws reg).acia.layout = k.layout ∧ (k.windowRead d.start s.draws reg).acia.rxCap = k.rxCap ∧ (k.windowRead d.start s.draws reg).acia.txCap = k.txCap := by
          cases reg <;> simp only [Acia.windowRead, and_self]
          cases k.rx <;> simp
        exact State.wf_of hs ⟨rfl, rfl, rfl, rfl, plans_setAcia hp.1 hp.2.1 hp.2.2 ho hk⟩ hv.1 (fun c hc => .inl hc) (devicesWf_setAcia hv.2.2.2.2 (windowRead_wf _ _ _ (acia_wf hv.2.2.2.2 ho hk)))

theorem hostRead_wf {s : State} {a : Word} (hs : s.wf = true) : (hostRead s a).st.wf = true := by
  unfold hostRead reportRead
  split
  · next v h => exact windowRead8_wf hs h
  · exact hs
  · exact hs
  · exact hs

theorem txRead_params {k : Acia} {b o} (h : k.txRead = some (b, o)) : o.acia.layout = k.layout ∧ o.acia.rxCap = k.rxCap ∧ o.acia.txCap = k.txCap := by
  unfold Acia.txRead at h
  split at h
  · cases h
  · cases h; exact ⟨rfl, rfl, rfl⟩

end Sys2Proof.Machine
end

