-- ==== Sys2Proof/Laws/Flags.lean ====
section
/-! SUPPORT. The sign bit of a byte, and N and Z written out. -/

namespace Sys2Proof.Machine

theorem getLsbD_seven (v : Byte) : v.getLsbD 7 = decide (0x80 ≤ v.toNat) := by
  revert v; decide +kernel

theorem Flags.setNZ_eq (f : Flags) (v : Byte) : f.setNZ v = nzOf f v := by
  unfold Flags.setNZ nzOf
  congr 1
  · rw [Bool.eq_iff_iff]; simp [BitVec.toNat_eq]
  · exact getLsbD_seven v

end Sys2Proof.Machine
end

