-- ==== Sys2Proof/Laws/Operands.lean ====
section
/-! SUPPORT. What the operand forms can do: an effective address and a load change ACIAs and draw counters only; a store and a
read-modify-write change memory, ACIAs, the IRQ latch and draw counters, and of memory only the byte at the effective address. -/

namespace Sys2Proof.Machine

/-- The relation of reads: everything but ACIAs and draw counters is the same, and the platform is. -/
structure ReadRel (s t : State) : Prop where
  frame : t = { s with devices := t.devices, draws := t.draws }
  platform : SamePlatform s t

theorem ReadRel.refl (s : State) : ReadRel s s := ⟨rfl, .refl s⟩

theorem ReadRel.trans {s t u : State} (h : ReadRel s t) (h' : ReadRel t u) : ReadRel s u :=
  ⟨by rw [h'.frame, h.frame], h.platform.trans h'.platform⟩

theorem ReadRel.memByte {s t : State} (h : ReadRel s t) (a : Word) : t.memByte a = s.memByte a := by
  rw [h.frame]; rfl

theorem read8_rel {s : State} {a : Word} {r : Got Byte} (h : read8 s a = .ok r) : ReadRel s r.st :=
  ⟨read8_frame h, read8_platform h⟩

theorem read16zp_rel {s : State} {z : Byte} {r : Got Word} (h : read16zp s z = .ok r) : ReadRel s r.st := by
  obtain ⟨lo, h1, h⟩ := bind_eq_ok.1 h
  obtain ⟨hi, h2, h⟩ := bind_eq_ok.1 h
  cases pure_eq_ok.1 h
  exact (read8_rel h1).trans (read8_rel h2)

/-- An effective address reads at most its pointer. -/
theorem ea_rel {s : State} {m : MemOperand} {r : Got Word} (h : ea s m = .ok r) : ReadRel s r.st := by
  cases m with
  | zpi b1 | xin b1 => exact read16zp_rel h
  | iny b1 =>
    obtain ⟨p, h1, h⟩ := bind_eq_ok.1 h
    have h := pure_eq_ok.1 h
    subst h
    exact read16zp_rel (r := p) h1
  | _ => cases h; exact .refl s

/-- A load reads at most its pointer and its operand. -/
theorem load_rel {s : State} {m : Source} {r : Got Byte} (h : load s m = .ok r) : ReadRel s r.st := by
  cases m with
  | imm b1 => cases h; exact .refl s
  | mem m =>
    obtain ⟨e, h1, h⟩ := bind_eq_ok.1 h
    exact (ea_rel h1).trans (read8_rel h)

/-- A byte a write leaves at its own address, where that is RAM. -/
theorem write8_memByte_self {s t : State} {a : Word} {v : Byte} (h : write8 s a v = .ok t) (hs : s.mem.wf = true)
    (hr : s.isRam a = true) : t.memByte a = v := by
  rw [write8_ram v hr] at h
  cases h
  rw [memByte_write hs, if_pos rfl]

/-- What a write after reads, of a state with other flags, leaves: the shape of a store and of a read-modify-write. -/
theorem write8_after {s u t : State} {a : Word} {v : Byte} (hu : ReadRel s u) (f : Flags)
    (h : write8 { u with flags := f } a v = .ok t) (hs : s.mem.wf = true) :
    t = { s with flags := f, devices := t.devices, mem := t.mem, irqPending := t.irqPending, draws := t.draws } ∧
      Stored s t a v := by
  have hf := write8_frame h
  refine ⟨?_, fun b hb => ?_, fun hr => ?_⟩
  · rw [hf, hu.frame]
  · rw [write8_memByte_ne h hb]; exact hu.memByte b
  · refine write8_memByte_self h ?_ ?_
    · show u.mem.wf = true
      rw [hu.frame]; exact hs
    · show u.isRam a = true
      rw [hu.platform.isRam]; exact hr

end Sys2Proof.Machine
end

