-- ==== Sys2Proof/Laws/PerInstr.lean ====
section
/-! SUPPORT. The family Length, one lemma per constructor: an instruction's encoding is as long as the instruction (30_encoding.md R120,
R121). -/

/-- The statement of the family, about the instruction as syntax. -/
def Sys2Proof.Laws.Length.Statement (i : Sys2Proof.Instr) : Prop :=
  ∀ l : Sys2Proof.UndefLens, (Sys2Proof.encode l i).length = (i.length l).toNat

namespace Sys2Proof

theorem Laws.Length.lda (m : AluMode) : Laws.Length.Statement (.lda m) := by
  intro l; cases m <;> exact rfl

theorem Laws.Length.ldx (m : LdxMode) : Laws.Length.Statement (.ldx m) := by
  intro l; cases m <;> exact rfl

theorem Laws.Length.ldy (m : LdyMode) : Laws.Length.Statement (.ldy m) := by
  intro l; cases m <;> exact rfl

theorem Laws.Length.sta (m : StaMode) : Laws.Length.Statement (.sta m) := by
  intro l; cases m <;> exact rfl

theorem Laws.Length.stx (m : StxMode) : Laws.Length.Statement (.stx m) := by
  intro l; cases m <;> exact rfl

theorem Laws.Length.sty (m : StyMode) : Laws.Length.Statement (.sty m) := by
  intro l; cases m <;> exact rfl

theorem Laws.Length.stz (m : StzMode) : Laws.Length.Statement (.stz m) := by
  intro l; cases m <;> exact rfl

theorem Laws.Length.tax : Laws.Length.Statement .tax :=
  fun _ => rfl

theorem Laws.Length.tay : Laws.Length.Statement .tay :=
  fun _ => rfl

theorem Laws.Length.txa : Laws.Length.Statement .txa :=
  fun _ => rfl

theorem Laws.Length.tya : Laws.Length.Statement .tya :=
  fun _ => rfl

theorem Laws.Length.tsx : Laws.Length.Statement .tsx :=
  fun _ => rfl

theorem Laws.Length.txs : Laws.Length.Statement .txs :=
  fun _ => rfl

theorem Laws.Length.pha : Laws.Length.Statement .pha :=
  fun _ => rfl

theorem Laws.Length.php : Laws.Length.Statement .php :=
  fun _ => rfl

theorem Laws.Length.pla : Laws.Length.Statement .pla :=
  fun _ => rfl

theorem Laws.Length.plp : Laws.Length.Statement .plp :=
  fun _ => rfl

theorem Laws.Length.phx : Laws.Length.Statement .phx :=
  fun _ => rfl

theorem Laws.Length.phy : Laws.Length.Statement .phy :=
  fun _ => rfl

theorem Laws.Length.plx : Laws.Length.Statement .plx :=
  fun _ => rfl

theorem Laws.Length.ply : Laws.Length.Statement .ply :=
  fun _ => rfl

theorem Laws.Length.adc (m : AluMode) : Laws.Length.Statement (.adc m) := by
  intro l; cases m <;> exact rfl

theorem Laws.Length.sbc (m : AluMode) : Laws.Length.Statement (.sbc m) := by
  intro l; cases m <;> exact rfl

theorem Laws.Length.and (m : AluMode) : Laws.Length.Statement (.and m) := by
  intro l; cases m <;> exact rfl

theorem Laws.Length.ora (m : AluMode) : Laws.Length.Statement (.ora m) := by
  intro l; cases m <;> exact rfl

theorem Laws.Length.eor (m : AluMode) : Laws.Length.Statement (.eor m) := by
  intro l; cases m <;> exact rfl

theorem Laws.Length.cmp (m : AluMode) : Laws.Length.Statement (.cmp m) := by
  intro l; cases m <;> exact rfl

theorem Laws.Length.cpx (m : CpxMode) : Laws.Length.Statement (.cpx m) := by
  intro l; cases m <;> exact rfl

theorem Laws.Length.cpy (m : CpxMode) : Laws.Length.Statement (.cpy m) := by
  intro l; cases m <;> exact rfl

theorem Laws.Length.bit (m : BitMode) : Laws.Length.Statement (.bit m) := by
  intro l; cases m <;> exact rfl

theorem Laws.Length.inx : Laws.Length.Statement .inx :=
  fun _ => rfl

theorem Laws.Length.iny : Laws.Length.Statement .iny :=
  fun _ => rfl

theorem Laws.Length.dex : Laws.Length.Statement .dex :=
  fun _ => rfl

theorem Laws.Length.dey : Laws.Length.Statement .dey :=
  fun _ => rfl

theorem Laws.Length.asl (m : ShiftMode) : Laws.Length.Statement (.asl m) := by
  intro l; cases m <;> exact rfl

theorem Laws.Length.lsr (m : ShiftMode) : Laws.Length.Statement (.lsr m) := by
  intro l; cases m <;> exact rfl

theorem Laws.Length.rol (m : ShiftMode) : Laws.Length.Statement (.rol m) := by
  intro l; cases m <;> exact rfl

theorem Laws.Length.ror (m : ShiftMode) : Laws.Length.Statement (.ror m) := by
  intro l; cases m <;> exact rfl

theorem Laws.Length.inc (m : ShiftMode) : Laws.Length.Statement (.inc m) := by
  intro l; cases m <;> exact rfl

theorem Laws.Length.dec (m : ShiftMode) : Laws.Length.Statement (.dec m) := by
  intro l; cases m <;> exact rfl

theorem Laws.Length.tsb (m : TsbMode) : Laws.Length.Statement (.tsb m) := by
  intro l; cases m <;> exact rfl

theorem Laws.Length.trb (m : TsbMode) : Laws.Length.Statement (.trb m) := by
  intro l; cases m <;> exact rfl

theorem Laws.Length.rmb0 (zp : Byte) : Laws.Length.Statement (.rmb0 zp) :=
  fun _ => rfl

theorem Laws.Length.rmb1 (zp : Byte) : Laws.Length.Statement (.rmb1 zp) :=
  fun _ => rfl

theorem Laws.Length.rmb2 (zp : Byte) : Laws.Length.Statement (.rmb2 zp) :=
  fun _ => rfl

theorem Laws.Length.rmb3 (zp : Byte) : Laws.Length.Statement (.rmb3 zp) :=
  fun _ => rfl

theorem Laws.Length.rmb4 (zp : Byte) : Laws.Length.Statement (.rmb4 zp) :=
  fun _ => rfl

theorem Laws.Length.rmb5 (zp : Byte) : Laws.Length.Statement (.rmb5 zp) :=
  fun _ => rfl

theorem Laws.Length.rmb6 (zp : Byte) : Laws.Length.Statement (.rmb6 zp) :=
  fun _ => rfl

theorem Laws.Length.rmb7 (zp : Byte) : Laws.Length.Statement (.rmb7 zp) :=
  fun _ => rfl

theorem Laws.Length.smb0 (zp : Byte) : Laws.Length.Statement (.smb0 zp) :=
  fun _ => rfl

theorem Laws.Length.smb1 (zp : Byte) : Laws.Length.Statement (.smb1 zp) :=
  fun _ => rfl

theorem Laws.Length.smb2 (zp : Byte) : Laws.Length.Statement (.smb2 zp) :=
  fun _ => rfl

theorem Laws.Length.smb3 (zp : Byte) : Laws.Length.Statement (.smb3 zp) :=
  fun _ => rfl

theorem Laws.Length.smb4 (zp : Byte) : Laws.Length.Statement (.smb4 zp) :=
  fun _ => rfl

theorem Laws.Length.smb5 (zp : Byte) : Laws.Length.Statement (.smb5 zp) :=
  fun _ => rfl

theorem Laws.Length.smb6 (zp : Byte) : Laws.Length.Statement (.smb6 zp) :=
  fun _ => rfl

theorem Laws.Length.smb7 (zp : Byte) : Laws.Length.Statement (.smb7 zp) :=
  fun _ => rfl

theorem Laws.Length.bcc (off : Byte) : Laws.Length.Statement (.bcc off) :=
  fun _ => rfl

theorem Laws.Length.bcs (off : Byte) : Laws.Length.Statement (.bcs off) :=
  fun _ => rfl

theorem Laws.Length.beq (off : Byte) : Laws.Length.Statement (.beq off) :=
  fun _ => rfl

theorem Laws.Length.bne (off : Byte) : Laws.Length.Statement (.bne off) :=
  fun _ => rfl

theorem Laws.Length.bmi (off : Byte) : Laws.Length.Statement (.bmi off) :=
  fun _ => rfl

theorem Laws.Length.bpl (off : Byte) : Laws.Length.Statement (.bpl off) :=
  fun _ => rfl

theorem Laws.Length.bvc (off : Byte) : Laws.Length.Statement (.bvc off) :=
  fun _ => rfl

theorem Laws.Length.bvs (off : Byte) : Laws.Length.Statement (.bvs off) :=
  fun _ => rfl

theorem Laws.Length.bra (off : Byte) : Laws.Length.Statement (.bra off) :=
  fun _ => rfl

theorem Laws.Length.bbr0 (zp off : Byte) : Laws.Length.Statement (.bbr0 zp off) :=
  fun _ => rfl

theorem Laws.Length.bbr1 (zp off : Byte) : Laws.Length.Statement (.bbr1 zp off) :=
  fun _ => rfl

theorem Laws.Length.bbr2 (zp off : Byte) : Laws.Length.Statement (.bbr2 zp off) :=
  fun _ => rfl

theorem Laws.Length.bbr3 (zp off : Byte) : Laws.Length.Statement (.bbr3 zp off) :=
  fun _ => rfl

theorem Laws.Length.bbr4 (zp off : Byte) : Laws.Length.Statement (.bbr4 zp off) :=
  fun _ => rfl

theorem Laws.Length.bbr5 (zp off : Byte) : Laws.Length.Statement (.bbr5 zp off) :=
  fun _ => rfl

theorem Laws.Length.bbr6 (zp off : Byte) : Laws.Length.Statement (.bbr6 zp off) :=
  fun _ => rfl

theorem Laws.Length.bbr7 (zp off : Byte) : Laws.Length.Statement (.bbr7 zp off) :=
  fun _ => rfl

theorem Laws.Length.bbs0 (zp off : Byte) : Laws.Length.Statement (.bbs0 zp off) :=
  fun _ => rfl

theorem Laws.Length.bbs1 (zp off : Byte) : Laws.Length.Statement (.bbs1 zp off) :=
  fun _ => rfl

theorem Laws.Length.bbs2 (zp off : Byte) : Laws.Length.Statement (.bbs2 zp off) :=
  fun _ => rfl

theorem Laws.Length.bbs3 (zp off : Byte) : Laws.Length.Statement (.bbs3 zp off) :=
  fun _ => rfl

theorem Laws.Length.bbs4 (zp off : Byte) : Laws.Length.Statement (.bbs4 zp off) :=
  fun _ => rfl

theorem Laws.Length.bbs5 (zp off : Byte) : Laws.Length.Statement (.bbs5 zp off) :=
  fun _ => rfl

theorem Laws.Length.bbs6 (zp off : Byte) : Laws.Length.Statement (.bbs6 zp off) :=
  fun _ => rfl

theorem Laws.Length.bbs7 (zp off : Byte) : Laws.Length.Statement (.bbs7 zp off) :=
  fun _ => rfl

theorem Laws.Length.jmp (m : JmpMode) : Laws.Length.Statement (.jmp m) := by
  intro l; cases m <;> exact rfl

theorem Laws.Length.jsr (target : Word) : Laws.Length.Statement (.jsr target) :=
  fun _ => rfl

theorem Laws.Length.rts : Laws.Length.Statement .rts :=
  fun _ => rfl

theorem Laws.Length.brk : Laws.Length.Statement .brk :=
  fun _ => rfl

theorem Laws.Length.rti : Laws.Length.Statement .rti :=
  fun _ => rfl

theorem Laws.Length.clc : Laws.Length.Statement .clc :=
  fun _ => rfl

theorem Laws.Length.sec : Laws.Length.Statement .sec :=
  fun _ => rfl

theorem Laws.Length.cli : Laws.Length.Statement .cli :=
  fun _ => rfl

theorem Laws.Length.sei : Laws.Length.Statement .sei :=
  fun _ => rfl

theorem Laws.Length.cld : Laws.Length.Statement .cld :=
  fun _ => rfl

theorem Laws.Length.sed : Laws.Length.Statement .sed :=
  fun _ => rfl

theorem Laws.Length.clv : Laws.Length.Statement .clv :=
  fun _ => rfl

theorem Laws.Length.nop : Laws.Length.Statement .nop :=
  fun _ => rfl

theorem Laws.Length.undefined (op : Byte) : Laws.Length.Statement (.undefined op) := by
  intro l
  show (List.replicate ((l.length op).toNat - 1) (0 : Byte)).length + 1 = (l.length op).toNat
  cases l.length op <;> rfl

end Sys2Proof
end

