-- ==== Sys2Proof/Tests/Slice0.lean ====
section
/-! SUPPORT. The model's own tests: the well-formedness smoke test, the opcode table decoded word by word, one-step vectors of
95_test_vectors.md (the number in a test's name is the vector's), and for each statement a witness that meets its hypotheses. -/

namespace Sys2Proof.Tests

open Sys2Proof.Machine

set_option maxRecDepth 20000

/-! ### Well-formedness -/

theorem test_wf_refuses_a_defined_opcode : (Instr.undefined 0xA9).wf = false := by decide

theorem test_wf_accepts_an_undefined_opcode : (Instr.undefined 0xFC).wf = true ∧ (Instr.lda (.zpi 0xFF)).wf = true := by
  decide

/-! ### Decoding: every row of opcode_table.json, its encoding's opcode bits with the operand bytes 0x4B and 0xA3 -/

/-- Whether each word, first byte lowest, decodes to the instruction beside it. -/
def decodes (rows : List (Nat × Instr)) : Bool := rows.all fun r => decodeTableWord 24 r.1 == some r.2

theorem test_decode_loads_and_stores : decodes [
  (0b10100011_01001011_01100100, .stz (.zpg 0x4B)), (0b10100011_01001011_01110100, .stz (.zpx 0x4B)),
  (0b10100011_01001011_10000001, .sta (.xin 0x4B)), (0b10100011_01001011_10000100, .sty (.zpg 0x4B)),
  (0b10100011_01001011_10000101, .sta (.zpg 0x4B)), (0b10100011_01001011_10000110, .stx (.zpg 0x4B)),
  (0b10100011_01001011_10001100, .sty (.abs 0xA34B)), (0b10100011_01001011_10001101, .sta (.abs 0xA34B)),
  (0b10100011_01001011_10001110, .stx (.abs 0xA34B)), (0b10100011_01001011_10010001, .sta (.iny 0x4B)),
  (0b10100011_01001011_10010010, .sta (.zpi 0x4B)), (0b10100011_01001011_10010100, .sty (.zpx 0x4B)),
  (0b10100011_01001011_10010101, .sta (.zpx 0x4B)), (0b10100011_01001011_10010110, .stx (.zpy 0x4B)),
  (0b10100011_01001011_10011001, .sta (.aby 0xA34B)), (0b10100011_01001011_10011100, .stz (.abs 0xA34B)),
  (0b10100011_01001011_10011101, .sta (.abx 0xA34B)), (0b10100011_01001011_10011110, .stz (.abx 0xA34B)),
  (0b10100011_01001011_10100000, .ldy (.imm 0x4B)), (0b10100011_01001011_10100001, .lda (.xin 0x4B)),
  (0b10100011_01001011_10100010, .ldx (.imm 0x4B)), (0b10100011_01001011_10100100, .ldy (.zpg 0x4B)),
  (0b10100011_01001011_10100101, .lda (.zpg 0x4B)), (0b10100011_01001011_10100110, .ldx (.zpg 0x4B)),
  (0b10100011_01001011_10101001, .lda (.imm 0x4B)), (0b10100011_01001011_10101100, .ldy (.abs 0xA34B)),
  (0b10100011_01001011_10101101, .lda (.abs 0xA34B)), (0b10100011_01001011_10101110, .ldx (.abs 0xA34B)),
  (0b10100011_01001011_10110001, .lda (.iny 0x4B)), (0b10100011_01001011_10110010, .lda (.zpi 0x4B)),
  (0b10100011_01001011_10110100, .ldy (.zpx 0x4B)), (0b10100011_01001011_10110101, .lda (.zpx 0x4B)),
  (0b10100011_01001011_10110110, .ldx (.zpy 0x4B)), (0b10100011_01001011_10111001, .lda (.aby 0xA34B)),
  (0b10100011_01001011_10111100, .ldy (.abx 0xA34B)), (0b10100011_01001011_10111101, .lda (.abx 0xA34B)),
  (0b10100011_01001011_10111110, .ldx (.aby 0xA34B))] = true := by decide

theorem test_decode_transfers_and_stack : decodes [
  (0b10100011_01001011_00001000, .php), (0b10100011_01001011_00101000, .plp),
  (0b10100011_01001011_01001000, .pha), (0b10100011_01001011_01011010, .phy),
  (0b10100011_01001011_01101000, .pla), (0b10100011_01001011_01111010, .ply),
  (0b10100011_01001011_10001010, .txa), (0b10100011_01001011_10011000, .tya),
  (0b10100011_01001011_10011010, .txs), (0b10100011_01001011_10101000, .tay),
  (0b10100011_01001011_10101010, .tax), (0b10100011_01001011_10111010, .tsx),
  (0b10100011_01001011_11011010, .phx), (0b10100011_01001011_11111010, .plx)] = true := by decide

theorem test_decode_adc_and_sbc : decodes [
  (0b10100011_01001011_01100001, .adc (.xin 0x4B)), (0b10100011_01001011_01100101, .adc (.zpg 0x4B)),
  (0b10100011_01001011_01101001, .adc (.imm 0x4B)), (0b10100011_01001011_01101101, .adc (.abs 0xA34B)),
  (0b10100011_01001011_01110001, .adc (.iny 0x4B)), (0b10100011_01001011_01110010, .adc (.zpi 0x4B)),
  (0b10100011_01001011_01110101, .adc (.zpx 0x4B)), (0b10100011_01001011_01111001, .adc (.aby 0xA34B)),
  (0b10100011_01001011_01111101, .adc (.abx 0xA34B)), (0b10100011_01001011_11100001, .sbc (.xin 0x4B)),
  (0b10100011_01001011_11100101, .sbc (.zpg 0x4B)), (0b10100011_01001011_11101001, .sbc (.imm 0x4B)),
  (0b10100011_01001011_11101101, .sbc (.abs 0xA34B)), (0b10100011_01001011_11110001, .sbc (.iny 0x4B)),
  (0b10100011_01001011_11110010, .sbc (.zpi 0x4B)), (0b10100011_01001011_11110101, .sbc (.zpx 0x4B)),
  (0b10100011_01001011_11111001, .sbc (.aby 0xA34B)), (0b10100011_01001011_11111101, .sbc (.abx 0xA34B))] = true := by decide

theorem test_decode_logic : decodes [
  (0b10100011_01001011_00000001, .ora (.xin 0x4B)), (0b10100011_01001011_00000101, .ora (.zpg 0x4B)),
  (0b10100011_01001011_00001001, .ora (.imm 0x4B)), (0b10100011_01001011_00001101, .ora (.abs 0xA34B)),
  (0b10100011_01001011_00010001, .ora (.iny 0x4B)), (0b10100011_01001011_00010010, .ora (.zpi 0x4B)),
  (0b10100011_01001011_00010101, .ora (.zpx 0x4B)), (0b10100011_01001011_00011001, .ora (.aby 0xA34B)),
  (0b10100011_01001011_00011101, .ora (.abx 0xA34B)), (0b10100011_01001011_00100001, .and (.xin 0x4B)),
  (0b10100011_01001011_00100101, .and (.zpg 0x4B)), (0b10100011_01001011_00101001, .and (.imm 0x4B)),
  (0b10100011_01001011_00101101, .and (.abs 0xA34B)), (0b10100011_01001011_00110001, .and (.iny 0x4B)),
  (0b10100011_01001011_00110010, .and (.zpi 0x4B)), (0b10100011_01001011_00110101, .and (.zpx 0x4B)),
  (0b10100011_01001011_00111001, .and (.aby 0xA34B)), (0b10100011_01001011_00111101, .and (.abx 0xA34B)),
  (0b10100011_01001011_01000001, .eor (.xin 0x4B)), (0b10100011_01001011_01000101, .eor (.zpg 0x4B)),
  (0b10100011_01001011_01001001, .eor (.imm 0x4B)), (0b10100011_01001011_01001101, .eor (.abs 0xA34B)),
  (0b10100011_01001011_01010001, .eor (.iny 0x4B)), (0b10100011_01001011_01010010, .eor (.zpi 0x4B)),
  (0b10100011_01001011_01010101, .eor (.zpx 0x4B)), (0b10100011_01001011_01011001, .eor (.aby 0xA34B)),
  (0b10100011_01001011_01011101, .eor (.abx 0xA34B))] = true := by decide

theorem test_decode_compare_and_bit : decodes [
  (0b10100011_01001011_00100100, .bit (.zpg 0x4B)), (0b10100011_01001011_00101100, .bit (.abs 0xA34B)),
  (0b10100011_01001011_00110100, .bit (.zpx 0x4B)), (0b10100011_01001011_00111100, .bit (.abx 0xA34B)),
  (0b10100011_01001011_10001001, .bit (.imm 0x4B)), (0b10100011_01001011_11000000, .cpy (.imm 0x4B)),
  (0b10100011_01001011_11000001, .cmp (.xin 0x4B)), (0b10100011_01001011_11000100, .cpy (.zpg 0x4B)),
  (0b10100011_01001011_11000101, .cmp (.zpg 0x4B)), (0b10100011_01001011_11001001, .cmp (.imm 0x4B)),
  (0b10100011_01001011_11001100, .cpy (.abs 0xA34B)), (0b10100011_01001011_11001101, .cmp (.abs 0xA34B)),
  (0b10100011_01001011_11010001, .cmp (.iny 0x4B)), (0b10100011_01001011_11010010, .cmp (.zpi 0x4B)),
  (0b10100011_01001011_11010101, .cmp (.zpx 0x4B)), (0b10100011_01001011_11011001, .cmp (.aby 0xA34B)),
  (0b10100011_01001011_11011101, .cmp (.abx 0xA34B)), (0b10100011_01001011_11100000, .cpx (.imm 0x4B)),
  (0b10100011_01001011_11100100, .cpx (.zpg 0x4B)), (0b10100011_01001011_11101100, .cpx (.abs 0xA34B))] = true := by decide

theorem test_decode_register_increment : decodes [
  (0b10100011_01001011_10001000, .dey), (0b10100011_01001011_11001000, .iny),
  (0b10100011_01001011_11001010, .dex), (0b10100011_01001011_11101000, .inx)] = true := by decide

theorem test_decode_shifts : decodes [
  (0b10100011_01001011_00000110, .asl (.zpg 0x4B)), (0b10100011_01001011_00001010, .asl .acc),
  (0b10100011_01001011_00001110, .asl (.abs 0xA34B)), (0b10100011_01001011_00010110, .asl (.zpx 0x4B)),
  (0b10100011_01001011_00011110, .asl (.abx 0xA34B)), (0b10100011_01001011_00100110, .rol (.zpg 0x4B)),
  (0b10100011_01001011_00101010, .rol .acc), (0b10100011_01001011_00101110, .rol (.abs 0xA34B)),
  (0b10100011_01001011_00110110, .rol (.zpx 0x4B)), (0b10100011_01001011_00111110, .rol (.abx 0xA34B)),
  (0b10100011_01001011_01000110, .lsr (.zpg 0x4B)), (0b10100011_01001011_01001010, .lsr .acc),
  (0b10100011_01001011_01001110, .lsr (.abs 0xA34B)), (0b10100011_01001011_01010110, .lsr (.zpx 0x4B)),
  (0b10100011_01001011_01011110, .lsr (.abx 0xA34B)), (0b10100011_01001011_01100110, .ror (.zpg 0x4B)),
  (0b10100011_01001011_01101010, .ror .acc), (0b10100011_01001011_01101110, .ror (.abs 0xA34B)),
  (0b10100011_01001011_01110110, .ror (.zpx 0x4B)), (0b10100011_01001011_01111110, .ror (.abx 0xA34B))] = true := by decide

theorem test_decode_inc_dec_tsb_trb : decodes [
  (0b10100011_01001011_00000100, .tsb (.zpg 0x4B)), (0b10100011_01001011_00001100, .tsb (.abs 0xA34B)),
  (0b10100011_01001011_00010100, .trb (.zpg 0x4B)), (0b10100011_01001011_00011010, .inc .acc),
  (0b10100011_01001011_00011100, .trb (.abs 0xA34B)), (0b10100011_01001011_00111010, .dec .acc),
  (0b10100011_01001011_11000110, .dec (.zpg 0x4B)), (0b10100011_01001011_11001110, .dec (.abs 0xA34B)),
  (0b10100011_01001011_11010110, .dec (.zpx 0x4B)), (0b10100011_01001011_11011110, .dec (.abx 0xA34B)),
  (0b10100011_01001011_11100110, .inc (.zpg 0x4B)), (0b10100011_01001011_11101110, .inc (.abs 0xA34B)),
  (0b10100011_01001011_11110110, .inc (.zpx 0x4B)), (0b10100011_01001011_11111110, .inc (.abx 0xA34B))] = true := by decide

theorem test_decode_rmb_and_smb : decodes [
  (0b10100011_01001011_00000111, .rmb0 0x4B), (0b10100011_01001011_00010111, .rmb1 0x4B),
  (0b10100011_01001011_00100111, .rmb2 0x4B), (0b10100011_01001011_00110111, .rmb3 0x4B),
  (0b10100011_01001011_01000111, .rmb4 0x4B), (0b10100011_01001011_01010111, .rmb5 0x4B),
  (0b10100011_01001011_01100111, .rmb6 0x4B), (0b10100011_01001011_01110111, .rmb7 0x4B),
  (0b10100011_01001011_10000111, .smb0 0x4B), (0b10100011_01001011_10010111, .smb1 0x4B),
  (0b10100011_01001011_10100111, .smb2 0x4B), (0b10100011_01001011_10110111, .smb3 0x4B),
  (0b10100011_01001011_11000111, .smb4 0x4B), (0b10100011_01001011_11010111, .smb5 0x4B),
  (0b10100011_01001011_11100111, .smb6 0x4B), (0b10100011_01001011_11110111, .smb7 0x4B)] = true := by decide

theorem test_decode_branches : decodes [
  (0b10100011_01001011_00010000, .bpl 0x4B), (0b10100011_01001011_00110000, .bmi 0x4B),
  (0b10100011_01001011_01010000, .bvc 0x4B), (0b10100011_01001011_01110000, .bvs 0x4B),
  (0b10100011_01001011_10000000, .bra 0x4B), (0b10100011_01001011_10010000, .bcc 0x4B),
  (0b10100011_01001011_10110000, .bcs 0x4B), (0b10100011_01001011_11010000, .bne 0x4B),
  (0b10100011_01001011_11110000, .beq 0x4B)] = true := by decide

theorem test_decode_branches_on_bit : decodes [
  (0b10100011_01001011_00001111, .bbr0 0x4B 0xA3), (0b10100011_01001011_00011111, .bbr1 0x4B 0xA3),
  (0b10100011_01001011_00101111, .bbr2 0x4B 0xA3), (0b10100011_01001011_00111111, .bbr3 0x4B 0xA3),
  (0b10100011_01001011_01001111, .bbr4 0x4B 0xA3), (0b10100011_01001011_01011111, .bbr5 0x4B 0xA3),
  (0b10100011_01001011_01101111, .bbr6 0x4B 0xA3), (0b10100011_01001011_01111111, .bbr7 0x4B 0xA3),
  (0b10100011_01001011_10001111, .bbs0 0x4B 0xA3), (0b10100011_01001011_10011111, .bbs1 0x4B 0xA3),
  (0b10100011_01001011_10101111, .bbs2 0x4B 0xA3), (0b10100011_01001011_10111111, .bbs3 0x4B 0xA3),
  (0b10100011_01001011_11001111, .bbs4 0x4B 0xA3), (0b10100011_01001011_11011111, .bbs5 0x4B 0xA3),
  (0b10100011_01001011_11101111, .bbs6 0x4B 0xA3), (0b10100011_01001011_11111111, .bbs7 0x4B 0xA3)] = true := by decide

theorem test_decode_jumps_calls_interrupts : decodes [
  (0b10100011_01001011_00000000, .brk), (0b10100011_01001011_00100000, .jsr 0xA34B),
  (0b10100011_01001011_01000000, .rti), (0b10100011_01001011_01001100, .jmp (.abs 0xA34B)),
  (0b10100011_01001011_01100000, .rts), (0b10100011_01001011_01101100, .jmp (.ind 0xA34B)),
  (0b10100011_01001011_01111100, .jmp (.aix 0xA34B))] = true := by decide

theorem test_decode_flags_and_nop : decodes [
  (0b10100011_01001011_00011000, .clc), (0b10100011_01001011_00111000, .sec),
  (0b10100011_01001011_01011000, .cli), (0b10100011_01001011_01111000, .sei),
  (0b10100011_01001011_10111000, .clv), (0b10100011_01001011_11011000, .cld),
  (0b10100011_01001011_11101010, .nop), (0b10100011_01001011_11111000, .sed)] = true := by decide

theorem test_decode_undefined : decodes [
  (0b10100011_01001011_00000010, .undefined 0x02), (0b10100011_01001011_00000011, .undefined 0x03),
  (0b10100011_01001011_00001011, .undefined 0x0B), (0b10100011_01001011_00010011, .undefined 0x13),
  (0b10100011_01001011_00011011, .undefined 0x1B), (0b10100011_01001011_00100010, .undefined 0x22),
  (0b10100011_01001011_00100011, .undefined 0x23), (0b10100011_01001011_00101011, .undefined 0x2B),
  (0b10100011_01001011_00110011, .undefined 0x33), (0b10100011_01001011_00111011, .undefined 0x3B),
  (0b10100011_01001011_01000010, .undefined 0x42), (0b10100011_01001011_01000011, .undefined 0x43),
  (0b10100011_01001011_01000100, .undefined 0x44), (0b10100011_01001011_01001011, .undefined 0x4B),
  (0b10100011_01001011_01010011, .undefined 0x53), (0b10100011_01001011_01010100, .undefined 0x54),
  (0b10100011_01001011_01011011, .undefined 0x5B), (0b10100011_01001011_01011100, .undefined 0x5C),
  (0b10100011_01001011_01100010, .undefined 0x62), (0b10100011_01001011_01100011, .undefined 0x63),
  (0b10100011_01001011_01101011, .undefined 0x6B), (0b10100011_01001011_01110011, .undefined 0x73),
  (0b10100011_01001011_01111011, .undefined 0x7B), (0b10100011_01001011_10000010, .undefined 0x82),
  (0b10100011_01001011_10000011, .undefined 0x83), (0b10100011_01001011_10001011, .undefined 0x8B),
  (0b10100011_01001011_10010011, .undefined 0x93), (0b10100011_01001011_10011011, .undefined 0x9B),
  (0b10100011_01001011_10100011, .undefined 0xA3), (0b10100011_01001011_10101011, .undefined 0xAB),
  (0b10100011_01001011_10110011, .undefined 0xB3), (0b10100011_01001011_10111011, .undefined 0xBB),
  (0b10100011_01001011_11000010, .undefined 0xC2), (0b10100011_01001011_11000011, .undefined 0xC3),
  (0b10100011_01001011_11001011, .undefined 0xCB), (0b10100011_01001011_11010011, .undefined 0xD3),
  (0b10100011_01001011_11010100, .undefined 0xD4), (0b10100011_01001011_11011011, .undefined 0xDB),
  (0b10100011_01001011_11011100, .undefined 0xDC), (0b10100011_01001011_11100010, .undefined 0xE2),
  (0b10100011_01001011_11100011, .undefined 0xE3), (0b10100011_01001011_11101011, .undefined 0xEB),
  (0b10100011_01001011_11110011, .undefined 0xF3), (0b10100011_01001011_11110100, .undefined 0xF4),
  (0b10100011_01001011_11111011, .undefined 0xFB), (0b10100011_01001011_11111100, .undefined 0xFC)] = true := by decide

theorem test_decode_missing_operand :
    decode ⟨[], []⟩ [0xAD, 0x00] = .error (.missingOperand 0xAD) ∧ decode ⟨[], []⟩ [] = .error .missingOpcode := by decide

theorem test_encode_v7 : encode ⟨[], []⟩ (.lda (.iny 0xFF)) = [0xB1, 0xFF] ∧ encode ⟨[], []⟩ (.jmp (.ind 0x34FF)) = [0x6C, 0xFF, 0x34] := by
  decide

/-! ### One step -/

/-- The platform of 95_test_vectors.md with PC at an address and bytes from there on. -/
def code (pc : Word) (bytes : List Byte) : State :=
  { State.reset with pc := pc, mem := storeBytes [] pc.toNat bytes }

/-- The same under NMOS_6502. -/
def nmos (s : State) : State := { s with behaviour := .nmos6502 }

/-- A state with further bytes of memory. -/
def poke (s : State) (a : Nat) (bytes : List Byte) : State := { s with mem := storeBytes s.mem a bytes }

/-- What a step's next state shows; none where the step stops. -/
def after {α : Type} (s : State) (view : State → α) : Option α :=
  match step s with
  | .next t => some (view t)
  | .fault _ | .refused _ => none

/-- Flags as a status byte. -/
def p (s : State) : Byte := s.flags.pack

theorem test_v1_lda : after (code 0x0200 [0xA9, 0x00]) (fun t => (t.a, p t, t.pc)) = some (0x00, 0x22, 0x0202) := by decide

theorem test_v7_lda : after { poke (code 0x0200 [0xB1, 0xFF]) 0xFF [0x00] with y := 0x05, mem := [(0x00, 0x30), (0x0200, 0xB1), (0x0201, 0xFF), (0x3005, 0x01)] } (·.a) = some 0x01 := by
  decide

theorem test_v3_v4_wrap :
    after { poke (code 0x0200 [0xB5, 0xF0]) 0x10 [0x7F] with x := 0x20 } (·.a) = some 0x7F ∧
    after { poke (code 0x0200 [0xBD, 0xF0, 0xFF]) 0x10 [0x33] with x := 0x20 } (·.a) = some 0x33 := by decide

theorem test_v6_lda_iny : after { poke (code 0x0200 [0xB1, 0x10]) 0x10 [0xF0, 0xFF] with y := 0x20 } (fun t => (t.a, p t)) = some (0xF0, 0xA0) := by
  decide

theorem test_v5_lda_xin :
    after { poke (poke (poke (code 0x0200 [0xA1, 0xFE]) 0x00 [0x12]) 0xFF [0x34]) 0x1234 [0x99] with x := 0x01 } (·.a) = some 0x99 := by decide

theorem test_v9_ldx : after { poke (code 0x0200 [0xB6, 0xFF]) 0x01 [0x80] with y := 0x02 } (fun t => (t.x, p t)) = some (0x80, 0xA0) := by decide

theorem test_v10_ldy : after (code 0x0200 [0xA0, 0x00]) (fun t => (t.y, p t)) = some (0x00, 0x22) := by decide

theorem test_v11_sta : after { code 0x0200 [0x8D, 0x00, 0x03] with a := 0x42 } (fun t => (t.memByte 0x0300, p t)) = some (0x42, 0x20) := by decide

theorem test_v14_stx : after { code 0x0200 [0x86, 0x10] with x := 0xAB } (·.memByte 0x10) = some 0xAB := by decide

theorem test_v15_sty : after { code 0x0200 [0x94, 0xFF] with x := 0x01, y := 0xFF } (·.memByte 0x00) = some 0xFF := by decide

theorem test_v16_stz : after (poke (code 0x0200 [0x64, 0x10]) 0x10 [0x55]) (fun t => (t.memByte 0x10, t.opTrap, t.pc)) = some (0x00, false, 0x0202) := by
  decide

theorem test_v17_stz_nmos : after (nmos (poke (code 0x0200 [0x64, 0x10]) 0x10 [0x55])) (fun t => (t.memByte 0x10, t.opTrap, t.pc)) = some (0x55, true, 0x0202) := by
  decide

theorem test_v18_tax : after { code 0x0200 [0xAA] with x := 0x01 } (fun t => (t.x, p t)) = some (0x00, 0x22) := by decide

theorem test_v19_tsx : after (code 0x0200 [0xBA]) (fun t => (t.x, p t)) = some (0xFF, 0xA0) := by decide

theorem test_v20_txs : after (code 0x0200 [0x9A]) (fun t => (t.sp, p t)) = some (0x00, 0x20) := by decide

theorem test_v21_pha : after { code 0x0200 [0x48] with a := 0x11, sp := 0x00 } (fun t => (t.memByte 0x0100, t.sp)) = some (0x11, 0xFF) := by decide

theorem test_v22_pla : after (poke (code 0x0200 [0x68]) 0x0100 [0x80]) (fun t => (t.a, t.sp, p t)) = some (0x80, 0x00, 0xA0) := by decide

theorem test_v23_php : after (code 0x0200 [0x08]) (fun t => (t.memByte 0x01FF, t.sp, t.flags.b)) = some (0x30, 0xFE, false) := by decide

theorem test_v24_plp : after { poke (code 0x0200 [0x28]) 0x01FF [0xFF] with sp := 0xFE } (fun t => (p t, t.sp)) = some (0xFF, 0xFF) := by decide

theorem test_v26_phx : after { code 0x0200 [0xDA] with x := 0x11, sp := 0x80 } (fun t => (t.memByte 0x0180, t.sp)) = some (0x11, 0x7F) := by decide

theorem test_v27_ply : after { code 0x0200 [0x7A] with y := 0x01, sp := 0x7F } (fun t => (t.y, t.flags.z, t.sp)) = some (0x00, true, 0x80) := by decide

/-- A state about to run an immediate form with A, C and D given. -/
def alu (op m a : Byte) (c d : Bool) : State :=
  { code 0x0200 [op, m] with a := a, flags := { State.reset.flags with c := c, d := d } }

theorem test_v30_v32_adc : after (alu 0x69 0x01 0x7F false false) (fun t => (t.a, p t)) = some (0x80, 0xE0) ∧
    after (alu 0x69 0xFF 0x80 false false) (fun t => (t.a, p t)) = some (0x7F, 0x61) := by decide

theorem test_v37_v41_adc_decimal : after (alu 0x69 0x01 0x99 false true) (fun t => (t.a, p t)) = some (0x00, 0x2B) ∧
    after (alu 0x69 0x01 0x0F false true) (fun t => (t.a, t.flags.c)) = some (0x16, false) := by decide

theorem test_v35_sbc : after (alu 0xE9 0xB0 0x50 true false) (fun t => (t.a, p t)) = some (0xA0, 0xE0) := by decide

theorem test_v42_v44_sbc_decimal : after (alu 0xE9 0x01 0x00 true true) (fun t => (t.a, p t)) = some (0x99, 0x28) ∧
    after (alu 0xE9 0x13 0x40 false true) (fun t => (t.a, t.flags.c)) = some (0x26, true) := by decide

theorem test_v46_and : after (alu 0x29 0x0F 0xF3 false false) (fun t => (t.a, p t)) = some (0x03, 0x20) := by decide

theorem test_v47_ora : after (alu 0x09 0x80 0x01 false false) (fun t => (t.a, p t)) = some (0x81, 0xA0) := by decide

theorem test_v48_eor : after (alu 0x49 0xFF 0xFF false false) (fun t => (t.a, p t)) = some (0x00, 0x22) := by decide

theorem test_s9_v49_cmp : after (alu 0xC9 0xFF 0x80 true false) p = some 0xA0 ∧ after (alu 0xC9 0x00 0x01 false false) p = some 0x21 := by decide

theorem test_v51_cpx : after (code 0x0200 [0xE0, 0x01]) p = some 0xA0 := by decide

theorem test_v52_cpy : after { code 0x0200 [0xC0, 0x06] with y := 0x05 } p = some 0xA0 := by decide

theorem test_v53_bit : after { poke (code 0x0200 [0x24, 0x10]) 0x10 [0xC0] with a := 0x01 } (fun t => (t.a, p t)) = some (0x01, 0xE2) := by decide

theorem test_v54_bit_immediate :
    after { code 0x0200 [0x89, 0x00] with flags := { State.reset.flags with n := true, v := true } } p = some 0xE2 := by decide

theorem test_v55_inx : after { code 0x0200 [0xE8] with x := 0xFF } (fun t => (t.x, p t)) = some (0x00, 0x22) := by decide

theorem test_v56_dey : after (code 0x0200 [0x88]) (fun t => (t.y, p t)) = some (0xFF, 0xA0) := by decide

theorem test_v60_v61_asl : after { code 0x0200 [0x0A] with a := 0x80 } (fun t => (t.a, p t)) = some (0x00, 0x23) ∧
    after (poke (code 0x0200 [0x06, 0x20]) 0x20 [0x40]) (fun t => (t.memByte 0x20, p t)) = some (0x80, 0xA0) := by decide

theorem test_v62_lsr : after { code 0x0200 [0x4A] with a := 0x01 } (fun t => (t.a, p t)) = some (0x00, 0x23) := by decide

theorem test_v65_ror_bug :
    after { code 0x0200 [0x6A] with a := 0x01, behaviour := .nmosWithRorBug } (·.a) = some (Config.rorBugFn 0x01 false false false).1 := rfl

theorem test_v63_rol : after { code 0x0200 [0x2A] with a := 0x80 } (fun t => (t.a, p t)) = some (0x00, 0x23) := by decide

theorem test_v64_ror : after (alu 0x6A 0x00 0x01 true false) (fun t => (t.a, p t)) = some (0x80, 0xA1) := by decide

theorem test_v66_v68_inc : after (poke (code 0x0200 [0xE6, 0x10]) 0x10 [0x7F]) (fun t => (t.memByte 0x10, p t)) = some (0x80, 0xA0) ∧
    after { code 0x0200 [0x1A] with a := 0xFF } (fun t => (t.a, p t)) = some (0x00, 0x22) := by decide

theorem test_v67_dec : after { poke (code 0x0200 [0xD6, 0xFF]) 0x00 [0x01] with x := 0x01 } (fun t => (t.memByte 0x00, p t)) = some (0x00, 0x22) := by decide

theorem test_v69_inc_nmos : after { nmos (code 0x0200 [0x1A]) with a := 0xFF } (fun t => (t.a, t.opTrap, t.pc)) = some (0xFF, true, 0x0201) := by decide

theorem test_v71_tsb : after { poke (code 0x0200 [0x04, 0x10]) 0x10 [0xF0] with a := 0x0F } (fun t => (t.memByte 0x10, p t)) = some (0xFF, 0x22) := by
  decide

theorem test_v72_trb : after { poke (code 0x0200 [0x14, 0x10]) 0x10 [0xFF] with a := 0x81 } (fun t => (t.memByte 0x10, p t)) = some (0x7E, 0x20) := by
  decide

theorem test_v73_rmb3 : after (poke (code 0x0200 [0x37, 0x44]) 0x44 [0xFF]) (fun t => (t.memByte 0x44, p t)) = some (0xF7, 0x20) := by decide

theorem test_v74_smb7 : after (code 0x0200 [0xF7, 0x44]) (fun t => (t.memByte 0x44, p t)) = some (0x80, 0x20) := by decide

/-- A state with PC, flags from a status byte, and code at PC. -/
def flagged (pc : Word) (p : Byte) (bytes : List Byte) : State := { code pc bytes with flags := unpackP p }

theorem test_v80_to_v88_branches :
    after (flagged 0x0200 0x00 [0xD0, 0xFE]) (·.pc) = some 0x0200 ∧ after (flagged 0x0200 0x00 [0xF0, 0x10]) (·.pc) = some 0x0202 ∧
    after (flagged 0x0300 0x00 [0x10, 0x80]) (·.pc) = some 0x0282 ∧ after (flagged 0x0300 0x80 [0x30, 0x7F]) (·.pc) = some 0x0381 ∧
    after (flagged 0xFFF0 0x00 [0x50, 0x7F]) (·.pc) = some 0x0071 ∧ after (flagged 0x0010 0x40 [0x70, 0x90]) (·.pc) = some 0xFFA2 ∧
    after (flagged 0x0300 0x01 [0x90, 0x0E]) (·.pc) = some 0x0302 ∧ after (flagged 0x0300 0x01 [0xB0, 0x0E]) (·.pc) = some 0x0310 ∧
    after (flagged 0x0300 0x00 [0x80, 0xFE]) (·.pc) = some 0x0300 := by decide

theorem test_v90_bbr0 : after (poke (code 0x0400 [0x0F, 0x12, 0x0D]) 0x12 [0xFE]) (·.pc) = some 0x0410 := by decide

theorem test_v91_v92_bbs7 : after (poke (code 0x0400 [0xFF, 0x12, 0x0D]) 0x12 [0x7F]) (·.pc) = some 0x0403 ∧
    after (poke (code 0x0400 [0xFF, 0x12, 0xFD]) 0x12 [0x80]) (·.pc) = some 0x0400 := by decide

theorem test_s5_jmp_page_bug :
    [Behaviour.nmosWithIndirectJmpBug, .nmos6502, .nmosWithRorBug, .nmosWithoutIndirectJmpBug, .cmos6502, .cmos65816].map
      (fun b => after { poke (poke (code 0x0200 [0x6C, 0xFF, 0x34]) 0x3400 [0x22]) 0x3500 [0x54] with behaviour := b } (·.pc)) =
    [some 0x2200, some 0x2200, some 0x2200, some 0x5400, some 0x5400, some 0x5400] := by decide

theorem test_v96_jmp_indexed : after { poke (code 0x0200 [0x7C, 0x00, 0x20]) 0x2002 [0x00, 0x80] with x := 0x02 } (·.pc) = some 0x8000 := by decide

theorem test_v97_jsr : after (code 0x0600 [0x20, 0x00, 0x07]) (fun t => (t.memByte 0x01FF, t.memByte 0x01FE, t.sp, t.pc)) = some (0x06, 0x02, 0xFD, 0x0700) := by
  decide

theorem test_v99_v100_rts : after { poke (code 0x0200 [0x60]) 0x01FE [0x02, 0x06] with sp := 0xFD } (fun t => (t.pc, t.sp)) = some (0x0603, 0xFF) ∧
    after { poke (code 0x0200 [0x60]) 0x01FE [0xFF, 0xFF] with sp := 0xFD } (·.pc) = some 0x0000 := by decide

theorem test_v101_brk_masked : after (flagged 0x0300 0x04 [0x00]) (fun t => (t.pc, t.sp, p t)) = some (0x0301, 0xFF, 0x24) := by decide

theorem test_v102_v103_brk :
    let s := poke (flagged 0x0300 0x08 [0x00]) 0xFFFF [0x90]
    after s (fun t => (t.memByte 0x01FF, t.memByte 0x01FE, t.memByte 0x01FD, t.sp, p t, t.pc)) = some (0x03, 0x02, 0x38, 0xFC, 0x34, 0x9000) ∧
    after (nmos s) p = some 0x3C := by decide

theorem test_v104_v105_rti : after { poke (code 0x0300 [0x40]) 0x01FD [0x20, 0x05, 0x02] with sp := 0xFC } (fun t => (t.pc, t.sp, p t)) = some (0x0205, 0xFF, 0x20) ∧
    after { poke (code 0x0300 [0x40]) 0x01FD [0xC3, 0x00, 0x04] with sp := 0xFC } (fun t => (t.pc, p t)) = some (0x0400, 0xE3) := by decide

theorem test_v110_to_v117_flags :
    [0x18, 0x38, 0x58, 0x78, 0xD8, 0xF8, 0xB8, 0xEA].map (fun op => after (flagged 0x0200 0xFF [op]) p) =
      [some 0xFE, some 0xFF, some 0xFB, some 0xFF, some 0xF7, some 0xFF, some 0xBF, some 0xFF] ∧
    [0x38, 0x78, 0xF8].map (fun op => after (flagged 0x0200 0x00 [op]) p) = [some 0x21, some 0x24, some 0x28] := by decide

theorem test_v118_undefined :
    after { code 0x0200 [0x03] with undefLens := ⟨[], [0x03]⟩ } (fun t => (t.pc, t.opTrap)) = some (0x0203, true) ∧
    after { code 0x0200 [0x03] with undefLens := ⟨[0x03], []⟩ } (·.pc) = some 0x0202 ∧ after (code 0x0200 [0x03]) (·.pc) = some 0x0201 := by decide

theorem test_v119_trap_is_cleared : after { code 0x0201 [0xEA] with opTrap := true } (fun t => (t.opTrap, t.pc)) = some (false, 0x0202) := by decide

theorem test_v121_irq :
    let s := { poke (flagged 0x0400 0x01 [0xEA]) 0xFFFF [0x90] with irqPending := true }
    after s (fun t => (t.memByte 0x01FF, t.memByte 0x01FE, t.memByte 0x01FD)) = some (0x04, 0x00, 0x21) ∧
    after s (fun t => (t.sp, p t, t.pc, t.irqPending)) = some (0xFC, 0x25, 0x9000, false) := by decide

theorem test_v122_irq_masked :
    after { flagged 0x0400 0x04 [0xEA] with irqPending := true } (fun t => (t.pc, t.irqPending)) = some (0x0401, true) := by decide

theorem test_v123_nmi :
    after { poke (flagged 0x0400 0x04 [0xEA]) 0xFFFB [0xA0] with nmiPending := true, irqPending := true }
      (fun t => (t.pc, t.nmiPending, t.irqPending, t.flags.i)) = some (0xA000, false, true, true) := by decide

theorem test_v125_v126_irq_decimal :
    let s := { flagged 0x0400 0x08 [0xEA] with irqPending := true }
    after s (fun t => (t.memByte 0x01FD, t.flags.d)) = some (0x28, false) ∧
    after (nmos s) (fun t => (t.memByte 0x01FD, t.flags.d)) = some (0x28, true) := by decide

theorem test_v156_pc_wraps : after (code 0xFFFF [0xEA]) (·.pc) = some 0x0000 := by decide

/-! ### Devices -/

/-- The A6551 of the ACIA vectors, capacities 2. -/
def acia6551 : Acia := { Acia.powerOn .a6551 2 2 with rx := [0x41, 0x42], tx := [0x55], overrun := true, irq := true, command := 0x09, rxIrqEn := true }

/-- An A6850, capacities 1. -/
def acia6850 : Acia := Acia.powerOn .a6850 1 1

/-- RAM, an A6551 whose range is larger than its registers, an A6850, a hole from 0xA000, and ROM. -/
def board (pc : Word) (bytes : List Byte) : State :=
  { code pc bytes with
    devices :=
      [⟨"ram", 0x0000, 0x7FFF, .memory false⟩, ⟨"acia", 0x8000, 0x8007, .acia acia6551⟩, ⟨"acia2", 0x9000, 0x9003, .acia acia6850⟩,
       ⟨"rom", 0xC000, 0xFFFF, .memory true⟩] }

/-- A board whose A6551 is another one. -/
def boardWith (k : Acia) (pc : Word) (bytes : List Byte) : State :=
  { board pc bytes with
    devices :=
      [⟨"ram", 0x0000, 0x7FFF, .memory false⟩, ⟨"acia", 0x8000, 0x8007, .acia k⟩, ⟨"acia2", 0x9000, 0x9003, .acia acia6850⟩,
       ⟨"rom", 0xC000, 0xFFFF, .memory true⟩] }

theorem test_v12_v13_v145_faults :
    step (board 0x0200 [0x8D, 0x00, 0xC0]) = .fault (.bus .readOnly 0xC000) ∧ step (board 0x0200 [0xAD, 0x00, 0xA0]) = .fault (.bus .unmapped 0xA000) ∧
    step (board 0x0200 [0xAD, 0x05, 0x80]) = .fault (.bus .noRegister 0x8005) := ⟨rfl, rfl, rfl⟩

theorem test_v76_rmw_of_rom : step (board 0x0200 [0xEE, 0x00, 0xC0]) = .fault (.bus .readOnly 0xC000) := rfl

theorem test_v131_empty_fifo :
    after (boardWith (Acia.powerOn .a6551 2 2) 0x0200 [0xAD, 0x00, 0x80]) (·.a) = some (Config.drawByte 0) := rfl

theorem test_v132_data_read :
    after (board 0x0200 [0xAD, 0x00, 0x80]) (fun t => (t.a, (t.aciaAt 0x8000).map fun k => (k.rx, k.overrun))) = some (0x41, some ([0x42], false)) := by
  decide

theorem test_s8_status_read :
    after { board 0x0200 [0xAD, 0x01, 0x80] with flags := unpackP 0x04 } (fun t => (t.a, (t.aciaAt 0x8000).map fun k => (k.irq, k.overrun))) =
      some (0x9C, some (false, true)) := by decide

theorem test_v136_data_write :
    after { boardWith { acia6551 with txCap := 1 } 0x0200 [0x8D, 0x00, 0x80] with a := 0x66 } (fun t => (t.aciaAt 0x8000).map (·.tx)) = some (some [0x66]) := by
  decide

theorem test_v139_command_write :
    after { boardWith { Acia.powerOn .a6551 2 2 with rx := [0x41] } 0x0200 [0x8D, 0x02, 0x80] with a := 0x09 }
      (fun t => (t.irqPending, (t.aciaAt 0x8000).map fun k => (k.rxIrqEn, k.txIrqEn, k.irq))) = some (true, some (true, false, true)) := by decide

theorem test_v140_programmed_reset :
    after (board 0x0200 [0x8D, 0x01, 0x80]) (fun t => (t.aciaAt 0x8000)) = some (some { Acia.powerOn .a6551 2 2 with command := 0x09 }) := by decide

theorem test_v142_a6850_control :
    after { board 0x0200 [0x8D, 0x00, 0x90] with a := 0x80 } (fun t => (t.aciaAt 0x9000).map fun k => (k.rxIrqEn, k.txIrqEn)) = some (some (true, false)) := by
  decide

theorem test_v134_overrun :
    ((act (act (boardWith (Acia.powerOn .a6551 1 1) 0x0200 []) (.rxWrite 0x8000 0x41)).st (.rxWrite 0x8000 0x42)).st.aciaAt 0x8000).map
      (fun k => (k.rx, k.overrun)) = some ([0x42], true) := by decide

theorem test_v137_v138_tx_read :
    (act (boardWith { acia6551 with command := 0x05, txIrqEn := true, irq := false } 0x0200 []) (.txRead 0x8000)).reply = .value 0x55 ∧
    (act (boardWith { acia6551 with tx := [] } 0x0200 []) (.txRead 0x8000)).reply = .fifoUnderrun := by decide

theorem test_v133_v152_window_read :
    (act (board 0x0200 []) (.read 0x8000)).reply = .value 0x41 ∧ (act (board 0x0200 []) (.read 0xA000)).reply = .fault .unmapped 0xA000 := by decide

theorem test_v150_reset_unmapped : (act { board 0x0200 [] with devices := [] } .reset).reply = .fault .unmapped 0xFFFC := rfl

theorem test_s10_reset :
    (act { board 0x0200 [] with mem := [(0xFFFD, 0x02)] } .reset).st.pc = 0x0200 ∧ (act (board 0x0200 []) .reset).st.sp = 0xFF := ⟨rfl, rfl⟩

theorem test_v153_v154_construct :
    construct "m" 0xFFFF 2 (.memory false (.fill 0)) = .error .rangeError ∧ construct "m" 0x1000 0 (.memory false (.fill 0)) = .error .rangeError := by
  decide

theorem test_s4_overlap :
    (act (act { State.reset with devices := [] } (.addDevice "t0" 0x0000 0x2000 (.memory false (.fill 0)))).st
      (.addDevice "u" 0x1FFF 2 (.memory false (.fill 0)))).reply = .rangeError := by decide

theorem test_v155_v157_v158_host :
    (act (code 0x0300 []) (.loadProgram [0xA9, 0x01])).st.mem = [(0x0300, 0xA9), (0x0301, 0x01)] ∧
    (act (code 0x0300 []) (.writeReg .a 0x100)).reply = .registerRange ∧
    (act { poke (code 0x0300 []) 0x01FE [0x77] with sp := 0xFD } .stackPeek).reply = .value 0x77 := by decide

theorem test_s1_pack :
    (unpackP 0xB5).pack = 0xB5 ∧ (unpackP 0x6A).pack = 0x6A ∧ (unpackP 0x00).pack = 0x20 := by decide

/-- Each row of the table runs as the first instruction after reset. -/
def runsFirst (op : Nat) : Bool :=
  match step (State.reset.withFetchWord 24 op) with
  | .next t => t.ir.toNat == op && t.phase == .running
  | .fault _ | .refused _ => false

theorem test_rows_run_after_reset : [0x00, 0x20, 0x40, 0x60, 0x6C, 0x7C, 0x81, 0xB2, 0xD4, 0xFF].all runsFirst = true := by decide

/-! ### Witnesses: states and operands that meet the hypotheses of the statements -/

/-- The board running LDA #$01. -/
def ready : State := board 0x0200 [0xA9, 0x01]

/-- The board under NMOS_6502. -/
def readyNmos : State := nmos ready

/-- The board with the stack page read-only. -/
def romStack : State :=
  { ready with devices := [⟨"low", 0x0000, 0x00FF, .memory false⟩, ⟨"rom", 0x0100, 0xFFFF, .memory true⟩] }

/-- The board with no device past the first 0x0202 bytes. -/
def short (pc : Word) (bytes : List Byte) : State := { code pc bytes with devices := [⟨"ram", 0x0000, 0x0201, .memory false⟩] }

theorem test_witness_DecodeOfEncodeIsIdentity : [Instr.lda (.zpi 0xFF), .brk, .bbs7 0x00 0xFF, .undefined 0x02, .undefined 0xFC].all Instr.wf = true := by
  decide

theorem test_witness_EncodeOfDecodeIsIdentity : undefinedOpcodes.contains 0x00 = false ∧ undefinedOpcodes.contains 0xFF = false ∧
    undefinedOpcodes.contains 0x02 = true ∧ undefinedOpcodes.contains 0xFC = true := by decide

theorem test_witness_UndefinedOpcodesOnlyTrap : (0x03 : Byte) ∈ undefinedOpcodes ∧ (Instr.undefined 0x03).defined ready.behaviour = false ∧
    (Instr.bra 0x00).defined readyNmos.behaviour = false := by decide

theorem test_witness_LengthIsReadFromTheFirstByte : (0x00 : Byte) ∉ undefinedOpcodes ∧ (0xFC : Byte) ∈ undefinedOpcodes := by decide

theorem test_witness_StepRunsDecodedInstruction :
    ready.phase = .running ∧ { ready with nmiPending := true }.nmiPending = true ∧
    ({ ready with irqPending := true }.irqPending = true ∧ ready.flags.i = false ∧ ready.nmiPending = false) ∧
    (decode ready.undefLens [ready.memByte ready.pc, ready.memByte (ready.pc + 1), ready.memByte (ready.pc + 2)] =
      .ok (.lda (.imm 0x01), [0x00]) ∧
      ∀ k < ((Instr.lda (.imm 0x01)).length ready.undefLens).toNat, ready.isMemory (ready.pc + BitVec.ofNat 16 k) = true) ∧
    (∃ f, fetch { ready with opTrap := false } = .ok f) ∧ ∃ x, fetch { board 0xA000 [] with opTrap := false } = .error x :=
  ⟨rfl, rfl, ⟨rfl, rfl, rfl⟩, ⟨rfl, by decide⟩, ⟨_, rfl⟩, ⟨_, rfl⟩⟩

theorem test_witness_FetchFaultEndsStep :
    (short 0x0202 []).phase = .running ∧ stepKind (short 0x0202 []) = .instr ∧ owner (short 0x0202 []).devices 0x0202 = none ∧
    ((short 0x0201 [0xA9]).isMemory 0x0201 = true ∧ owner (short 0x0201 [0xA9]).devices 0x0202 = none ∧
      opLength (short 0x0201 [0xA9]).undefLens ((short 0x0201 [0xA9]).memByte 0x0201) ≠ .one) ∧
    ((short 0x0200 [0xAD, 0x00]).isMemory 0x0200 = true ∧ (short 0x0200 [0xAD, 0x00]).isMemory 0x0201 = true ∧
      owner (short 0x0200 [0xAD, 0x00]).devices 0x0202 = none ∧
      opLength (short 0x0200 [0xAD, 0x00]).undefLens ((short 0x0200 [0xAD, 0x00]).memByte 0x0200) = .three) := by decide

/-- A witness of `EntryMeaning` in every outcome: the entry of `ready`, and of states where each access fails. -/
theorem test_witness_InterruptEntry :
    EntryInMemory ready 0xFFFA ∧ EntryInMemory { ready with sp := 0x01 } 0xFFFE ∧
    (∃ f, push { romStack with flags := { romStack.flags with b := false } } 0x02 = .error f) ∧
    (∃ s1 s2 s3, push { ready with flags := { ready.flags with b := false } } 0x02 = .ok s1 ∧ push s1 0x00 = .ok s2 ∧ push s2 0x20 = .ok s3 ∧
      ∃ v, read16 s3 0xFFFE = .ok v) ∧
    ∃ f, read16 (short 0x0200 []) 0xFFFE = .error f :=
  ⟨by unfold EntryInMemory; decide, by unfold EntryInMemory; decide, ⟨_, rfl⟩, ⟨_, _, _, rfl, rfl, rfl, _, rfl⟩, ⟨_, rfl⟩⟩

theorem test_witness_OpTrapMarksUndefinedInstruction : (∃ t, step ready = .next t) ∧ ∃ t, step (code 0x0200 [0x03]) = .next t :=
  ⟨⟨_, rfl⟩, ⟨_, rfl⟩⟩

theorem test_witness_StepKeepsInvariant : ready.wf = true ∧ ∃ t, step ready = .next t := ⟨by decide, _, rfl⟩

theorem test_witness_StepKeepsPlatform : ∃ t, step ready = .next t := ⟨_, rfl⟩

theorem test_witness_StepNeverChangesRom : ready.isRom 0xC000 = true ∧ ready.isRom 0xFFFF = true ∧ ∃ t, step ready = .next t :=
  ⟨by decide, by decide, _, rfl⟩

theorem test_witness_HostActionsKeepInvariant : ready.wf = true ∧ State.reset.wf = true := by decide

/-- 0x8004 is the first offset past an A6551's four registers, 0x9002 the first past an A6850's two. -/
theorem test_witness_BusReadRouting :
    (1 ≤ 1 ∧ (1 : Int) ≥ 1 ∧ (0xFFFF : Int) ≥ 0 ∧ (0xFFFF : Int) + 1 - 1 ≤ 0xFFFF) ∧
    (∃ d k, owner ready.devices 0x9002 = some d ∧ d.kind = .acia k ∧ k.layout = .a6850 ∧ (0x9002 : Word).toNat - d.start = 2) ∧
    (∃ d k, owner ready.devices 0x8003 = some d ∧ d.kind = .acia k ∧ aciaReadReg k.layout ((0x8003 : Word).toNat - d.start) = some .control6551) ∧
    owner ready.devices 0xA000 = none ∧ (owner ready.devices 0x7FFF).isSome = true ∧ ready.wf = true ∧ ready.isMemory 0xC000 = true ∧
    (∃ d k, owner ready.devices 0x8004 = some d ∧ d.kind = .acia k ∧ aciaReadReg k.layout ((0x8004 : Word).toNat - d.start) = none) ∧
    ready.readable 0x8003 = true ∧ ready.readable 0x8004 = false :=
  ⟨by decide, ⟨_, _, rfl, rfl, rfl, rfl⟩, ⟨_, _, rfl, rfl, rfl⟩, by decide, by decide, by decide, by decide, ⟨_, _, rfl, rfl, rfl⟩, by decide, by decide⟩

theorem test_witness_BusWriteRouting :
    ready.mem.wf = true ∧ owner ready.devices 0xBFFF = none ∧ ready.isRom 0xC000 = true ∧ ready.isRam 0x7FFF = true ∧
    (∃ d k, owner ready.devices 0x9002 = some d ∧ d.kind = .acia k ∧ aciaWriteReg k.layout ((0x9002 : Word).toNat - d.start) = none) ∧
    ready.writable 0x9001 = true ∧ ready.writable 0xC000 = false :=
  ⟨by decide, by decide, by decide, by decide, ⟨_, _, rfl, rfl, rfl⟩, by decide, by decide⟩

/-- A device that fits the hole of the board, one that overlaps it, and one past a smaller window. -/
theorem test_witness_AddDeviceRegistersOrRejects :
    ((1 : Int) ≥ 1 ∧ (0xFFFF : Int) ≥ 0 ∧ (0xFFFF : Int) + 1 - 1 ≤ 0xFFFF) ∧ ¬((2 : Int) ≥ 1 ∧ (0xFFFF : Int) ≥ 0 ∧ (0xFFFF : Int) + 2 - 1 ≤ 0xFFFF) ∧
    (∃ d ∈ ready.devices, d.start ≤ 0xC000 ∧ 0xA000 ≤ d.stop) ∧ { ready with busEnd := 0xBFFF }.busEnd < 0xC000 ∧
    (∀ d ∈ ready.devices, ¬(d.start ≤ 0xBFFF ∧ 0xA000 ≤ d.stop)) ∧ ready.busStart ≤ 0xA000 ∧ 0xBFFF ≤ ready.busEnd ∧ ready.wf = true ∧
    0xA000 + ((MemInit.fill 0xEA).bytes 0x2000).length = 0xBFFF + 1 ∧ ((0x9FFF : Word).toNat < 0xA000 ∧ 0xBFFF < (0xC000 : Word).toNat) ∧ 1 ≤ 1 := by
  refine ⟨by decide, by decide, by decide, by decide, by decide, by decide, by decide, by decide, ?_, by decide, by decide⟩
  rw [MemInit.bytes, if_neg (by decide), List.length_replicate]

/-- An image of one byte and its fill, in the hole of the board up to its last byte. -/
theorem test_witness_AddedMemoryHoldsInitialContents :
    ready.wf = true ∧ (∃ n, construct "rom" 0xBFFE 2 (.memory true (.image [0x12] 0xEA)) = .ok n ∧ (addDevice ready n).reply = .ok ∧
      (addDevice ready n).st.memByte 0xBFFE = 0x12 ∧ (addDevice ready n).st.memByte 0xBFFF = 0xEA) ∧ ((1 : Nat) : Int) < 2 :=
  ⟨by decide, ⟨_, rfl, rfl, by decide, by decide⟩, by decide⟩

theorem test_witness_CompleteBusOwnsTheWindow :
    { ready with devices := [] }.devices = [] ∧ State.reset.wf = true ∧ State.reset.isComplete = true ∧ ready.wf = true ∧ ready.isComplete = false := by
  decide

theorem test_witness_AciaRegistersAndStatus : 4 ≤ 4 ∧ 2 ≤ 2 ∧ acia6551.layout = .a6551 ∧ acia6850.layout = .a6850 := by decide

theorem test_witness_AciaReadinessIsFair : acia6551.layout = .a6551 ∧ acia6551.control.toNat % 16 = 0 := by decide

/-- An owner of `a` that is an ACIA. -/
def OwnedByAcia (s : State) (a : Word) (q : Device → Acia → Prop) : Prop := ∃ d k, owner s.devices a = some d ∧ d.kind = .acia k ∧ q d k

theorem test_witness_AciaCpuReads :
    OwnedByAcia ready 0x8000 (fun d k => aciaReadReg k.layout (0x8000 - d.start) = some .data ∧ k.rx = [0x41, 0x42]) ∧
    OwnedByAcia ready 0x9001 (fun d k => aciaReadReg k.layout (0x9001 - d.start) = some .data ∧ k.rx = []) ∧
    OwnedByAcia ready 0x8001 (fun d k => aciaReadReg k.layout (0x8001 - d.start) = some .status) ∧
    OwnedByAcia ready 0x9000 (fun d k => aciaReadReg k.layout (0x9000 - d.start) = some .status) ∧
    OwnedByAcia ready 0x8002 (fun d k => aciaReadReg k.layout (0x8002 - d.start) = some .command) ∧
    OwnedByAcia ready 0x8003 (fun d k => aciaReadReg k.layout (0x8003 - d.start) = some .control6551) :=
  ⟨⟨_, _, rfl, rfl, rfl, rfl⟩, ⟨_, _, rfl, rfl, rfl, rfl⟩, ⟨_, _, rfl, rfl, rfl⟩, ⟨_, _, rfl, rfl, rfl⟩, ⟨_, _, rfl, rfl, rfl⟩, ⟨_, _, rfl, rfl, rfl⟩⟩

theorem test_witness_AciaCpuWrites :
    OwnedByAcia ready 0x8000 (fun d k => aciaWriteReg k.layout (0x8000 - d.start) = some .data) ∧
    OwnedByAcia ready 0x8001 (fun d k => aciaWriteReg k.layout (0x8001 - d.start) = some .status) ∧
    OwnedByAcia ready 0x8002 (fun d k => aciaWriteReg k.layout (0x8002 - d.start) = some .command) ∧
    OwnedByAcia ready 0x8003 (fun d k => aciaWriteReg k.layout (0x8003 - d.start) = some .control6551) ∧
    OwnedByAcia ready 0x9000 (fun d k => aciaWriteReg k.layout (0x9000 - d.start) = some .control6850) ∧
    (0xFF : Byte).toNat % 4 = 3 ∧ (0xFE : Byte).toNat % 4 ≠ 3 :=
  ⟨⟨_, _, rfl, rfl, rfl⟩, ⟨_, _, rfl, rfl, rfl⟩, ⟨_, _, rfl, rfl, rfl⟩, ⟨_, _, rfl, rfl, rfl⟩, ⟨_, _, rfl, rfl, rfl⟩, by decide, by decide⟩

theorem test_witness_AciaSerialSide :
    OwnedByAcia ready 0x8000 (fun _ k => k.tx = [0x55]) ∧ OwnedByAcia ready 0x9003 (fun _ k => k.tx = []) :=
  ⟨⟨_, _, rfl, rfl, rfl⟩, ⟨_, _, rfl, rfl, rfl⟩⟩

/-- With `test_witness_AciaCpuReads`. -/
theorem test_witness_WindowReadsAndStackPeekChangeNothing :
    ready.isMemory (0x0100 + (ready.sp + 1).setWidth 16) = true ∧ (∃ d k, owner ready.devices 0x8000 = some d ∧ d.kind = .acia k) :=
  ⟨by decide, ⟨_, _, rfl, rfl⟩⟩

theorem test_witness_StackPushesThenPulls :
    (∃ f, write8 romStack (0x0100 + romStack.sp.setWidth 16) 0x01 = .error f) ∧ (∃ t, write8 ready (0x0100 + ready.sp.setWidth 16) 0x01 = .ok t) ∧
    ready.mem.wf = true ∧ StackInRam ready ∧ (List.replicate 256 (0x01 : Byte)).length ≤ 256 :=
  ⟨⟨_, rfl⟩, ⟨_, rfl⟩, by decide, by unfold StackInRam; decide +kernel, by decide⟩

theorem test_witness_PointerEffectiveAddresses :
    (ready.isMemory (BitVec.ofNat 16 (0xFF % 0x100)) = true ∧ ready.isMemory (BitVec.ofNat 16 ((0xFF + 1) % 0x100)) = true) ∧
    (ready.readable (BitVec.ofNat 16 (0xFF % 0x100)) = true ∧ ready.readable (BitVec.ofNat 16 ((0xFF + 1) % 0x100)) = true) ∧
    (∃ e, ea ready (.iny 0xFF) = .ok e ∧ ready.readable e.val = true) ∧
    (∃ lo hi, read8 ready 0x00FF = .ok lo ∧ read8 lo.st 0x0000 = .ok hi) ∧ (∃ lo f, read8 ready 0x8003 = .ok lo ∧ read8 lo.st 0x8004 = .error f) ∧
    (let s : State := { ready with devices := [⟨"m", 0x0001, 0x00FF, .memory false⟩] }
     ∃ lo f, read8 s 0x00FF = .ok lo ∧ read8 lo.st 0x0000 = .error f ∧ ea s (.zpi 0xFF) = .error f) ∧
    ∃ f, read8 { ready with devices := [] } 0x00FF = .error f :=
  ⟨by decide, by decide, ⟨_, rfl, rfl⟩, ⟨_, _, rfl, rfl⟩, ⟨_, _, rfl, rfl⟩, ⟨_, _, rfl, rfl, rfl⟩, ⟨_, rfl⟩⟩

theorem test_witness_ResetSequence :
    (∃ lo hi, read8 ready 0xFFFC = .ok lo ∧ read8 lo.st 0xFFFD = .ok hi) ∧ (ready.isMemory 0xFFFC = true ∧ ready.isMemory 0xFFFD = true) ∧
    owner (short 0x0200 []).devices 0xFFFC = none ∧
    (let s : State := { ready with devices := [⟨"m", 0x0000, 0xFFFC, .memory false⟩] }
     s.isMemory 0xFFFC = true ∧ owner s.devices 0xFFFD = none) :=
  ⟨⟨_, _, rfl, rfl⟩, by decide, by decide, by decide⟩

theorem test_witness_FaultedMachineHasNoMove :
    (∃ t, step ready = .next t) ∧ (∃ kind addr, step (board 0xA000 []) = .fault (.bus kind addr)) ∧
    { ready with phase := .faulted .unmapped 0xA000 }.phase ≠ .running ∧ { ready with phase := .notReset }.phase ≠ .running ∧ ready.phase = .running :=
  ⟨⟨_, rfl⟩, ⟨_, _, rfl⟩, by decide, by decide, rfl⟩

theorem test_witness_LoadProgramWritesFromPc :
    (ready.mem.wf = true ∧ [(0xA9 : Byte), 0x01].length ≤ 0x10000 ∧
      ∀ i < [(0xA9 : Byte), 0x01].length, ready.isRam (ready.pc + BitVec.ofNat 16 i) = true) ∧
    (∃ kind addr, write8 ready 0xC000 0x01 = .error (.bus kind addr)) ∧ ∃ t, write8 ready 0x8000 0x01 = .ok t :=
  ⟨by decide, ⟨_, _, rfl⟩, ⟨_, rfl⟩⟩

theorem test_witness_HostRegisterWrites :
    ((0 : Int) ≤ 0xFF ∧ (0xFF : Int) ≤ 0xFF) ∧ ((0 : Int) ≤ 0xFFFF ∧ (0xFFFF : Int) ≤ 0xFFFF) ∧ ((-1 : Int) < 0 ∨ (0xFF : Int) < -1) ∧
    ((0x100 : Int) < 0 ∨ (0xFF : Int) < 0x100) ∧ ((0x10000 : Int) < 0 ∨ (0xFFFF : Int) < 0x10000) ∧ CpuReg.p ∈ [CpuReg.a, .x, .y, .sp, .p] ∧
    CpuReg.ir ∈ [CpuReg.opTrap, .ir, .instAddr] := by decide

/-- The operand of a load can be read, and cannot. Every statement with a `LoadMeaning` has these two hypotheses. -/
theorem test_witness_LoadMeaning :
    (∃ r, load ready (.mem (.abs 0x8000)) = .ok r) ∧ (∃ r, load ready (.imm 0x01) = .ok r) ∧ (∃ f, load ready (.mem (.abs 0xA000)) = .error f) ∧
    (∃ r, load ready (.mem (.zpg 0xFF)) = .ok r) ∧ ∃ f, load { ready with devices := [] } (.mem (.zpg 0xFF)) = .error f :=
  ⟨⟨_, rfl⟩, ⟨_, rfl⟩, ⟨_, rfl⟩, ⟨_, rfl⟩, ⟨_, rfl⟩⟩

/-- The hypotheses of `StoreMeaning`: the pointer cannot be read, the write fails, the write completes. -/
theorem test_witness_StoreMeaning :
    ready.mem.wf = true ∧ (∃ f, ea { ready with devices := [] } (.zpi 0x10) = .error f) ∧
    (∃ e, ea ready (.abs 0xC000) = .ok e ∧ ∃ f, write8 e.st e.val 0x01 = .error f) ∧
    (∃ e, ea ready (.iny 0xFF) = .ok e ∧ ready.writable e.val = true) ∧ (∃ e, ea ready (.abs 0x8001) = .ok e ∧ ready.writable e.val = true) :=
  ⟨by decide, ⟨_, rfl⟩, ⟨_, rfl, _, rfl⟩, ⟨_, rfl, rfl⟩, ⟨_, rfl, rfl⟩⟩

/-- The hypotheses of `RmwMeaning`: the read fails, the write fails, the write completes. No RMW has a pointer mode, so `ea` does not fail. -/
theorem test_witness_RmwMeaning :
    ready.mem.wf = true ∧ (∃ e, ea ready (.abs 0xA000) = .ok e ∧ ∃ x, read8 e.st e.val = .error x) ∧
    (∃ e r, ea ready (.abs 0xC000) = .ok e ∧ read8 e.st e.val = .ok r ∧ ∃ x, write8 r.st e.val 0x01 = .error x) ∧
    (∃ e r, ea ready (.abx 0x8001) = .ok e ∧ read8 e.st e.val = .ok r ∧ ready.writable e.val = true) ∧
    (∃ e r, ea ready (.zpx 0xFF) = .ok e ∧ read8 e.st e.val = .ok r ∧ ready.writable e.val = true) :=
  ⟨by decide, ⟨_, rfl, _, rfl⟩, ⟨_, _, rfl, rfl, _, rfl⟩, ⟨_, _, rfl, rfl, rfl⟩, ⟨_, _, rfl, rfl, rfl⟩⟩

/-- The hypotheses of `PushMeaning` and `PullMeaning`. -/
theorem test_witness_PushPullMeaning :
    (∃ f, write8 romStack (stackAddr romStack.sp) 0x01 = .error f) ∧ ready.writable (stackAddr 0x00) = true ∧ ready.writable (stackAddr 0xFF) = true ∧
    (∃ r, read8 { ready with sp := ready.sp + 1 } (stackAddr (ready.sp + 1)) = .ok r) ∧
    let s : State := { ready with devices := [] }
    ∃ f, read8 { s with sp := s.sp + 1 } (stackAddr (s.sp + 1)) = .error f :=
  ⟨⟨_, rfl⟩, by decide, by decide, ⟨_, rfl⟩, ⟨_, rfl⟩⟩

/-- The forms that a statement about loads, arithmetic, logic, compares or BIT takes as defined. -/
theorem test_witness_defined_forms :
    ready.behaviour.isCmos = true ∧ (∀ m : AluMode, (Instr.lda m).defined ready.behaviour = true) ∧
    (Instr.lda (.iny 0xFF)).defined readyNmos.behaviour = true ∧ (Instr.sta (.zpi 0xFF)).defined ready.behaviour = true ∧
    (Instr.stz (.abx 0xFFFF)).defined ready.behaviour = true ∧ (Instr.bit (.imm 0xFF)).defined ready.behaviour = true ∧
    (Instr.bit (.zpg 0xFF)).defined readyNmos.behaviour = true :=
  ⟨rfl, fun m => by cases m <;> rfl, rfl, rfl, rfl, rfl, rfl⟩

theorem test_witness_LoadInstructions : (Instr.lda (.zpi 0xFF)).defined ready.behaviour = true ∧ ∃ r, load ready (AluMode.zpi 0xFF).source = .ok r := ⟨rfl, _, rfl⟩

theorem test_witness_StoreInstructions :
    ready.mem.wf = true ∧ (Instr.sta (.zpi 0x10)).defined ready.behaviour = true ∧ ∃ e, ea ready (StaMode.zpi 0x10).operand = .ok e ∧ ready.writable e.val = true :=
  ⟨by decide, rfl, _, rfl, rfl⟩

theorem test_witness_PushInstructions : ready.mem.wf = true ∧ ready.behaviour.isCmos = true ∧ ready.writable (stackAddr ready.sp) = true := by decide

theorem test_witness_PullInstructions : ready.behaviour.isCmos = true ∧ ∃ r, read8 { ready with sp := ready.sp + 1 } (stackAddr (ready.sp + 1)) = .ok r :=
  ⟨rfl, _, rfl⟩

theorem test_witness_AddAndSubtractBinary :
    ready.flags.d = false ∧ (Instr.adc (.imm 0xFF)).defined ready.behaviour = true ∧ (Instr.sbc (.zpi 0xFF)).defined ready.behaviour = true ∧
    ∃ r, load ready (AluMode.imm 0xFF).source = .ok r := ⟨rfl, rfl, rfl, _, rfl⟩

theorem test_witness_AddAndSubtractDecimal :
    { ready.flags with d := true }.d = true ∧ (Instr.adc (.imm 0x99)).defined ready.behaviour = true ∧ (Instr.sbc (.imm 0x99)).defined ready.behaviour = true ∧
    ∃ r, load ready (AluMode.imm 0x99).source = .ok r := ⟨rfl, rfl, rfl, _, rfl⟩

theorem test_witness_DecimalModeIsDecimalArithmetic : IsBcd 0x00 ∧ IsBcd 0x99 ∧ IsBcd 0x09 := by unfold IsBcd; decide

theorem test_witness_LogicInstructions :
    (Instr.and (.zpi 0xFF)).defined ready.behaviour = true ∧ (Instr.ora (.imm 0x00)).defined readyNmos.behaviour = true ∧
    (Instr.eor (.abx 0xFFFF)).defined readyNmos.behaviour = true ∧ ∃ r, load ready (AluMode.zpi 0xFF).source = .ok r := ⟨rfl, rfl, rfl, _, rfl⟩

theorem test_witness_CompareInstructions : (Instr.cmp (.zpi 0xFF)).defined ready.behaviour = true ∧ ∃ r, load ready (CpxMode.abs 0x8001).source = .ok r := ⟨rfl, _, rfl⟩

theorem test_witness_BitInstruction :
    (Instr.bit (.imm 0xFF)).defined ready.behaviour = true ∧ (Instr.bit (.abs 0x8001)).defined readyNmos.behaviour = true ∧
    ∃ r, load ready (BitMode.abs 0x8001).source = .ok r := ⟨rfl, rfl, _, rfl⟩

theorem test_witness_ShiftInstructions :
    ready.mem.wf = true ∧ (ShiftMode.abx 0xFFFF).target = .mem (.abx 0xFFFF) ∧ ∃ e r, ea ready (.abx 0xFFFF) = .ok e ∧ read8 e.st e.val = .ok r :=
  ⟨by decide, rfl, _, _, rfl, rfl⟩

theorem test_witness_IncrementDecrementInstructions :
    ready.mem.wf = true ∧ ready.behaviour.isCmos = true ∧ (ShiftMode.zpx 0xFF).target = .mem (.zpx 0xFF) := by decide

theorem test_witness_RotateRightInstruction :
    ready.mem.wf = true ∧ { ready with behaviour := .nmosWithRorBug }.mem.wf = true ∧ (ShiftMode.zpg 0xFF).target = .mem (.zpg 0xFF) ∧
    ∃ e r, ea ready (.zpg 0xFF) = .ok e ∧ read8 e.st e.val = .ok r ∧ ready.writable e.val = true :=
  ⟨by decide, by decide, rfl, _, _, rfl, rfl, rfl⟩

theorem test_witness_TestAndSetResetBits :
    ready.mem.wf = true ∧ ready.behaviour.isCmos = true ∧
    ∃ e r, ea ready (TsbMode.zpg 0xFF).operand = .ok e ∧ read8 e.st e.val = .ok r ∧ ready.writable e.val = true :=
  ⟨by decide, rfl, _, _, rfl, rfl, rfl⟩

theorem test_witness_ResetAndSetMemoryBits :
    ready.mem.wf = true ∧ ready.behaviour.isCmos = true ∧
    ∃ e r, ea ready (.zpg 0x00) = .ok e ∧ read8 e.st e.val = .ok r ∧ ready.writable e.val = true :=
  ⟨by decide, rfl, _, _, rfl, rfl, rfl⟩

theorem test_witness_BranchOnBitInstructions : ready.behaviour.isCmos = true ∧ ∃ r, load ready (.mem (.zpg 0xFF)) = .ok r := ⟨rfl, _, rfl⟩

theorem test_witness_BranchInstructions : ready.behaviour.isCmos = true := rfl

theorem test_witness_JumpInstruction :
    ready.behaviour.isCmos = true ∧ (∃ lo hi, read8 ready 0x7FFF = .ok lo ∧ read8 lo.st 0x8000 = .ok hi) ∧ (∃ f, read8 ready 0xA000 = .error f) ∧
    ∃ lo f, read8 ready 0x8003 = .ok lo ∧ read8 lo.st 0x8004 = .error f :=
  ⟨rfl, ⟨_, _, rfl, rfl⟩, ⟨_, rfl⟩, ⟨_, _, rfl, rfl⟩⟩

theorem test_witness_SubroutineInstructions :
    (∃ f, push romStack 0x01 = .error f) ∧ (∃ s1 s2, push ready 0x02 = .ok s1 ∧ push s1 0x02 = .ok s2) ∧
    (ready.isRam (stackAddr ready.sp) = true ∧ ready.isRam (stackAddr (ready.sp - 1)) = true) ∧
    (∃ lo hi, pull ready = .ok lo ∧ pull lo.st = .ok hi) ∧ (∃ f, pull { ready with devices := [] } = .error f) ∧
    ready.isMemory (stackAddr (ready.sp + 1)) = true ∧ ready.isMemory (stackAddr (ready.sp + 2)) = true :=
  ⟨⟨_, rfl⟩, ⟨_, _, rfl, rfl⟩, by decide, ⟨_, _, rfl, rfl⟩, ⟨_, rfl⟩, by decide, by decide⟩

/-- With `test_witness_InterruptEntry`. -/
theorem test_witness_BrkInstruction :
    (flagged 0x0300 0x04 []).flags.i = true ∧ ready.flags.i = false ∧ EntryInMemory ready 0xFFFE :=
  ⟨by decide, by decide, by unfold EntryInMemory; decide⟩

theorem test_witness_RtiInstruction :
    (∃ f, pull { ready with devices := [] } = .error f) ∧ (∃ p lo hi, pull ready = .ok p ∧ pull p.st = .ok lo ∧ pull lo.st = .ok hi) ∧
    ready.isMemory (stackAddr (ready.sp + 1)) = true ∧ ready.isMemory (stackAddr (ready.sp + 2)) = true ∧
    ready.isMemory (stackAddr (ready.sp + 3)) = true :=
  ⟨⟨_, rfl⟩, ⟨_, _, _, rfl, rfl, rfl⟩, by decide, by decide, by decide⟩

theorem test_witness_CallThenReturnComesBack :
    ready.mem.wf = true ∧ ready.isRam (stackAddr 0x00) = true ∧ ready.isRam (stackAddr (0x00 - 1)) = true := by decide

theorem test_witness_InterruptThenRtiComesBack :
    ready.mem.wf = true ∧ ready.flags.i = false ∧ EntryInMemory ready 0xFFFA ∧ EntryInMemory ready 0xFFFE :=
  ⟨by decide, by decide, by unfold EntryInMemory; decide, by unfold EntryInMemory; decide⟩

end Sys2Proof.Tests
end

section
/-! The statements of 10_state.md: what sets opTrap (R41), the status byte (R39, R40), the stack's law (R46, R47), and the reads of the host
that change nothing (R48, 60_exceptions.md R542). -/

namespace Sys2Proof.Machine

/-! ### opTrap over a step (O9) -/

/-- What a step can do when it answers a next state: it enters the interrupt due, or it fetches an instruction and executes it, each from the
state with opTrap cleared (30_encoding.md R122). -/
theorem step_next_cases {s t : State} (h : step s = .next t) :
    (stepKind s = .nmi ∧ enterInterrupt { s with opTrap := false } .nmi = .ok t) ∨
    (stepKind s = .irq ∧ enterInterrupt { s with opTrap := false } .irq = .ok t) ∨
    (stepKind s = .instr ∧ ∃ f, fetch { s with opTrap := false } = .ok f ∧ exec f.val f.st = .next t) := by
  unfold step at h
  split at h
  · have hk : stepKind { s with opTrap := false } = stepKind s := rfl
    unfold stepRunning at h
    rw [hk] at h
    split at h
    · next hs => exact .inl ⟨hs, finish_next.1 h⟩
    · next hs => exact .inr (.inl ⟨hs, finish_next.1 h⟩)
    · next hs =>
      split at h
      · next f hf => exact .inr (.inr ⟨hs, f, hf, h⟩)
      · cases h
  · cases h
  · cases h

/-- opTrap and the behaviour are the same in two states. -/
def SameTrap (s t : State) : Prop := t.opTrap = s.opTrap ∧ t.behaviour = s.behaviour

/-- No bus access and no change of a CPU register touches opTrap: only the undefined instruction sets it. -/
theorem sameTrap_accessRel : AccessRel SameTrap where
  refl _ := ⟨rfl, rfl⟩
  trans h h' := ⟨h'.1.trans h.1, h'.2.trans h.2⟩
  read h := by rw [read8_frame h]; exact ⟨rfl, rfl⟩
  write h := by rw [write8_frame h]; exact ⟨rfl, rfl⟩
  cpu _ _ _ _ _ _ _ := ⟨rfl, rfl⟩

/-- An interrupt entry leaves opTrap as it is. -/
theorem enterInterrupt_opTrap {s t : State} {k : Interrupt} (h : enterInterrupt s k = .ok t) : t.opTrap = s.opTrap := by
  cases k <;> exact (sameTrap_accessRel.enterVector h).1

/-- A fetch leaves opTrap and the behaviour as they are. -/
theorem fetch_sameTrap {s : State} {f : Got Instr} (h : fetch s = .ok f) : SameTrap s f.st :=
  sameTrap_accessRel.fetch (fun _ _ _ => ⟨rfl, rfl⟩) h

/-- An instruction executed with opTrap clear sets it exactly when it is undefined under the behaviour. -/
theorem exec_opTrap_iff {i : Instr} {s t : State} (hs : s.opTrap = false) (h : exec i s = .next t) :
    t.opTrap = true ↔ i.defined s.behaviour = false := by
  rcases sameTrap_accessRel.exec h with ⟨hd, ht, -⟩ | ⟨hd, rfl⟩
  · simp [hd, ht, hs]
  · simp [hd]

/-- Settles O9: an interrupt entry keeps the cleared opTrap, and an executed instruction sets it exactly when it is undefined. -/
theorem opTrapMarksUndefinedInstruction : Obligations.OpTrapMarksUndefinedInstruction := by
  intro s t h
  rcases step_next_cases h with ⟨hk, he⟩ | ⟨hk, he⟩ | ⟨hk, f, hf, he⟩
  · simp [hk, enterInterrupt_opTrap he]
  · simp [hk, enterInterrupt_opTrap he]
  · obtain ⟨htrap, hbeh⟩ := fetch_sameTrap hf
    simp [hk, hf, exec_opTrap_iff htrap he, hbeh]

/-! ### The status byte (O25) -/

theorem toNat_append_ofBool {w : Nat} (x : BitVec w) (b : Bool) : (x ++ BitVec.ofBool b).toNat = 2 * x.toNat + b.toNat := by
  rw [BitVec.toNat_append, ← Nat.shiftLeft_add_eq_or_of_lt (BitVec.isLt _), Nat.shiftLeft_eq, BitVec.toNat_ofBool]
  omega

theorem byteOfBits_toNat (b7 b6 b5 b4 b3 b2 b1 b0 : Bool) :
    (byteOfBits b7 b6 b5 b4 b3 b2 b1 b0).toNat =
      128 * b7.toNat + 64 * b6.toNat + 32 * b5.toNat + 16 * b4.toNat + 8 * b3.toNat + 4 * b2.toNat + 2 * b1.toNat + b0.toNat := by
  simp only [byteOfBits, toNat_append_ofBool, BitVec.toNat_ofBool]
  omega

/-- The status byte's bits, from bit 0 up (10_state.md R39). -/
theorem Flags.getLsbD_pack (f : Flags) (n : Nat) :
    f.pack.getLsbD n = [f.c, f.z, f.i, f.d, f.b, true, f.v, f.n].getD n false := by
  match n with
  | 0 | 1 | 2 | 3 | 4 | 5 | 6 | 7 => simp only [Flags.pack, byteOfBits, BitVec.getLsbD_append]; simp
  | n + 8 => simp

theorem unpackP_pack (f : Flags) : unpackP f.pack = f := by
  simp only [unpackP, Flags.getLsbD_pack]; rfl

theorem pack_and_bit5 (f : Flags) : f.pack &&& 0x20 = 0x20 := by
  show f.pack &&& BitVec.twoPow 8 5 = BitVec.twoPow 8 5
  rw [BitVec.and_twoPow, Flags.getLsbD_pack]; rfl

/-- `unpackP` ignores bit 5 (10_state.md R40). -/
theorem unpackP_or_bit5 (p : Byte) : unpackP (p ||| 0x20) = unpackP p := by
  simp [unpackP]

/-- Settles O25, from the bits of the packed byte. -/
theorem statusByteRoundTrip : Obligations.StatusByteRoundTrip :=
  ⟨fun f => ⟨byteOfBits_toNat .., pack_and_bit5 f, unpackP_pack f⟩, fun p => ⟨rfl, unpackP_or_bit5 p⟩⟩

/-! ### The law of the stack (O26) -/

theorem push_error {s : State} {v : Byte} {f : Fault} (h : write8 s (stackAddr s.sp) v = .error f) : push s v = .error f :=
  bind_eq_error.2 (.inl h)

theorem push_ok {s t : State} {v : Byte} (h : write8 s (stackAddr s.sp) v = .ok t) : push s v = .ok { t with sp := s.sp - 1 } := by
  have hsp : t.sp = s.sp := by rw [write8_frame h]
  exact bind_eq_ok.2 ⟨t, h, by rw [← hsp]; rfl⟩

/-- The state after a push onto a stack in RAM. The state after a list of them, first byte first, is `bytes.foldl afterPush s`. -/
def afterPush (s : State) (v : Byte) : State :=
  { s with mem := s.mem.write (stackAddr s.sp).toNat v, sp := s.sp - 1 }

@[simp] theorem afterPush_sp (s : State) (v : Byte) : (afterPush s v).sp = s.sp - 1 := rfl

theorem afterPush_memByte_ne {s : State} (v : Byte) {b : Byte} (h : b ≠ s.sp) :
    (afterPush s v).memByte (stackAddr b) = s.memByte (stackAddr b) :=
  Memory.read_write_ne v (fun e => h (stackAddr_inj.1 (BitVec.eq_of_toNat_eq e))) s.mem

theorem afterPush_memByte_self {s : State} (v : Byte) (h : s.mem.wf = true) :
    (afterPush s v).memByte (stackAddr s.sp) = v :=
  (memByte_write h (stackAddr s.sp) (stackAddr s.sp) v).trans (if_pos rfl)

theorem afterPush_mem_wf {s : State} (v : Byte) (h : s.mem.wf = true) : (afterPush s v).mem.wf = true :=
  Memory.wf_write (stackAddr s.sp).isLt h

/-- Pushes onto a stack in RAM complete, whatever their number. -/
theorem pushAll_ram {s : State} (bytes : List Byte) (h : StackInRam s) : pushAll s bytes = .ok (bytes.foldl afterPush s) := by
  induction bytes generalizing s with
  | nil => rfl
  | cons v vs ih =>
    rw [pushAll, push_ram v (h s.sp)]
    exact ih (s := afterPush s v) h

theorem foldl_afterPush_devices (bytes : List Byte) (s : State) : (bytes.foldl afterPush s).devices = s.devices := by
  induction bytes generalizing s with
  | nil => rfl
  | cons v vs ih => exact ih (afterPush s v)

theorem foldl_afterPush_sp (bytes : List Byte) (s : State) :
    (bytes.foldl afterPush s).sp = s.sp - BitVec.ofNat 8 bytes.length := by
  induction bytes generalizing s with
  | nil => exact (BitVec.sub_zero s.sp).symm
  | cons v vs ih =>
    rw [List.foldl_cons, ih, afterPush_sp, List.length_cons, BitVec.sub_sub, BitVec.ofNat_add, BitVec.add_comm]; rfl

/-- Pushes leave a byte of the stack alone until SP, counting down, has come to it. -/
theorem foldl_afterPush_memByte (bytes : List Byte) (s : State) {b : Byte} (h : bytes.length ≤ (s.sp - b).toNat) :
    (bytes.foldl afterPush s).memByte (stackAddr b) = s.memByte (stackAddr b) := by
  induction bytes generalizing s with
  | nil => rfl
  | cons v vs ih =>
    rw [List.length_cons] at h
    have hb : b ≠ s.sp := by rintro rfl; simp at h
    rw [List.foldl_cons, ih, afterPush_memByte_ne v hb]
    rw [afterPush_sp]
    bv_omega

/-- A pull with SP just below a byte of memory yields that byte. -/
theorem pull_memory_below {s : State} {b : Byte} (h : s.isMemory (stackAddr b) = true) :
    pull { s with sp := b - 1 } = .ok { val := s.memByte (stackAddr b), st := { s with sp := b } } := by
  have hb : b - 1 + 1 = b := BitVec.sub_add_cancel b 1
  rw [← hb] at h
  have hp := pull_memory (s := { s with sp := b - 1 }) h
  simp only [hb] at hp
  exact hp

/-- One more pull comes last. -/
theorem pullAll_succ {s : State} {n : Nat} {r : Got (List Byte)} {v : Got Byte} (h : pullAll s n = .ok r)
    (hv : pull r.st = .ok v) : pullAll s (n + 1) = .ok { val := r.val ++ [v.val], st := v.st } := by
  induction n generalizing s r with
  | zero => cases h; exact bind_eq_ok.2 ⟨v, hv, rfl⟩
  | succ n ih =>
    obtain ⟨w, hw, h⟩ := bind_eq_ok.1 h
    obtain ⟨ws, hws, h⟩ := bind_eq_ok.1 h
    cases pure_eq_ok.1 h
    exact bind_eq_ok.2 ⟨w, hw, bind_eq_ok.2 ⟨_, ih hws hv, rfl⟩⟩

/-- As many pulls as at most 256 pushes give the bytes back, the last one pushed first: the first push's byte is pulled last, and the pushes
after it, at most 255, have not come round to it. -/
theorem pullAll_foldl_afterPush {s : State} (bytes : List Byte) (hm : s.mem.wf = true) (hr : StackInRam s)
    (hl : bytes.length ≤ 256) :
    pullAll (bytes.foldl afterPush s) bytes.length =
      .ok { val := bytes.reverse, st := { bytes.foldl afterPush s with sp := s.sp } } := by
  induction bytes generalizing s with
  | nil => rfl
  | cons v vs ih =>
    rw [List.length_cons] at hl
    have hrest := ih (afterPush_mem_wf v hm) (s := afterPush s v) hr (by omega)
    have hbyte : (vs.foldl afterPush (afterPush s v)).memByte (stackAddr s.sp) = v := by
      rw [foldl_afterPush_memByte, afterPush_memByte_self v hm]
      rw [afterPush_sp]
      bv_omega
    have hmem : (vs.foldl afterPush (afterPush s v)).isMemory (stackAddr s.sp) = true :=
      (isMemory_of_devices (foldl_afterPush_devices vs _) _).trans (isMemory_of_isRam (hr s.sp))
    have hlast := pull_memory_below hmem
    rw [hbyte] at hlast
    rw [List.reverse_cons]
    exact pullAll_succ hrest hlast

/-- Settles O26: a push and a pull are one access at 0x0100 + SP each, and pulls undo pushes onto a stack in RAM. -/
theorem stackPushesThenPulls : Obligations.StackPushesThenPulls := by
  refine ⟨fun s v => ?_, fun s bytes hm hr hl => ?_⟩
  · rw [← stackAddr_eq, ← stackAddr_eq]
    exact ⟨fun f => push_error, fun t => push_ok, rfl⟩
  · exact ⟨_, _, pushAll_ram bytes hr, foldl_afterPush_sp bytes s, pullAll_foldl_afterPush bytes hm hr hl, rfl⟩

/-! ### The host's reads (O24) -/

/-- A window read of data takes nothing from the receive FIFO (60_exceptions.md R542). -/
theorem windowRead_data_acia (base n : Nat) (k : Acia) : (k.windowRead base n .data).acia = k := by
  unfold Acia.windowRead
  cases k.rx <;> rfl

/-- A window read changes nothing of an ACIA but its count of status computations. -/
theorem windowRead_forgetPolls (base n : Nat) (k : Acia) (r : AciaReg) :
    { (k.windowRead base n r).acia with polls := 0 } = { k with polls := 0 } := by
  cases r with
  | data => rw [windowRead_data_acia]
  | status | command | control6551 | control6850 => rfl

/-- An ACIA that differs in its count of status computations alone makes no other change of the bus. -/
theorem forgetPolls_setAcia {k k' : Acia} {a : Word} (h : { k' with polls := 0 } = { k with polls := 0 }) :
    ∀ {ds : List Device} {d : Device}, owner ds a = some d → d.kind = .acia k →
      (setAcia ds a k').map Device.forgetPolls = ds.map Device.forgetPolls
  | [], _, ho, _ => by simp [owner] at ho
  | e :: ds, d, ho, hk => by
    rw [owner_cons] at ho
    rw [setAcia]
    split at ho
    · next hc =>
      cases ho
      have he : Device.forgetPolls { e with kind := .acia k' } = e.forgetPolls := by simp [Device.forgetPolls, hk, h]
      rw [if_pos hc, List.map_cons, List.map_cons, he]
    · next hc => rw [if_neg hc, List.map_cons, List.map_cons, forgetPolls_setAcia h ho hk]

/-- A window read of an ACIA register. -/
theorem windowRead8_acia {s : State} {a : Word} {d : Device} {k : Acia} {reg : AciaReg} (ho : owner s.devices a = some d)
    (hk : d.kind = .acia k) (hr : aciaReadReg k.layout (d.offset a) = some reg) :
    windowRead8 s a = .ok
      { val := (k.windowRead d.start s.draws reg).val
        st := { s with devices := setAcia s.devices a (k.windowRead d.start s.draws reg).acia,
                       draws := (k.windowRead d.start s.draws reg).draws } } := by
  simp only [windowRead8, ho, hk, hr]

/-- A window read of memory. -/
theorem windowRead8_memory {s : State} {a : Word} (h : s.isMemory a = true) :
    windowRead8 s a = .ok { val := s.memByte a, st := s } := by
  obtain ⟨d, ro, ho, hk⟩ := (isMemory_iff s a).1 h
  simp only [windowRead8, ho, hk]

/-- Two states are the same but for draw counters and their devices' counts of status computations. -/
def SameButCounters (s t : State) : Prop :=
  t = { s with devices := t.devices, draws := t.draws } ∧
    t.devices.map Device.forgetPolls = s.devices.map Device.forgetPolls

theorem windowRead8_sameButCounters {s : State} {a : Word} {r : Got Byte} (h : windowRead8 s a = .ok r) :
    SameButCounters s r.st := by
  unfold windowRead8 at h
  split at h
  · cases h
  · next d ho =>
    split at h
    · cases h; exact ⟨rfl, rfl⟩
    · next k hk =>
      split at h
      · cases h
      · next reg _ =>
        cases h
        exact ⟨rfl, forgetPolls_setAcia (windowRead_forgetPolls d.start s.draws k reg) ho hk⟩

/-- A read of the host, its fault included (60_exceptions.md R542, R560). -/
theorem hostRead_sameButCounters (s : State) (a : Word) : SameButCounters s (hostRead s a).st := by
  unfold hostRead reportRead
  split
  · next h => exact windowRead8_sameButCounters h
  · exact ⟨rfl, rfl⟩
  · exact ⟨rfl, rfl⟩
  · exact ⟨rfl, rfl⟩

/-- What the host gets back from a read of an ACIA register. -/
theorem hostRead_acia_reply {s : State} {a : Word} {d : Device} {k : Acia} {reg : AciaReg} (ho : owner s.devices a = some d)
    (hk : d.kind = .acia k) (hr : aciaReadReg k.layout (a.toNat - d.start) = some reg) :
    (hostRead s a).reply = .value (k.windowRead d.start s.draws reg).val.toNat := by
  rw [hostRead, windowRead8_acia ho hk hr]; rfl

/-- A read of the host of memory. -/
theorem hostRead_memory {s : State} {a : Word} (h : s.isMemory a = true) :
    hostRead s a = { reply := .value (s.memByte a).toNat, st := s } := by
  rw [hostRead, windowRead8_memory h]; rfl

/-- Settles O24: both actions are `hostRead`, which moves counters only; its reply is the register's or the byte of memory, and there a pull
yields the same byte. -/
theorem windowReadsAndStackPeekChangeNothing : Obligations.WindowReadsAndStackPeekChangeNothing := by
  intro s a
  refine ⟨hostRead_sameButCounters s a, hostRead_sameButCounters s _, fun d k ho hk => ?_, fun h => ?_⟩
  · refine ⟨fun hr => ⟨fun hx => ?_, fun v rest hx => ?_⟩, hostRead_acia_reply ho hk, hostRead_acia_reply ho hk,
      hostRead_acia_reply ho hk⟩
    · exact (hostRead_acia_reply ho hk hr).trans (by simp only [Acia.windowRead, hx])
    · exact (hostRead_acia_reply ho hk hr).trans (by simp only [Acia.windowRead, hx])
  · rw [← stackAddr_eq] at h ⊢
    exact ⟨hostRead_memory h, _, pull_memory h⟩

end Sys2Proof.Machine
end

section
/-! The statements of 20_memory.md: what a step keeps of memory and the bus (R80, R81, R86, R87, R96), routing (R82, R83), construction and
`addDevice` (R79, R81, R86), completeness (R85), the operand forms' accesses (R73), and `loadProgram` (R88). -/

namespace Sys2Proof.Machine

/-! ### What a step keeps (O10, O12, O13) -/

/-- Only a running machine has a next state. -/
theorem phase_of_step_next {s t : State} (h : step s = .next t) : s.phase = .running := by
  unfold step at h
  split at h
  · assumption
  · cases h
  · cases h

/-- The invariant is kept from one state to the other. -/
def KeepsWf (s t : State) : Prop := s.wf = true → t.wf = true

theorem keepsWf_accessRel : AccessRel KeepsWf where
  refl _ := id
  trans h h' := h' ∘ h
  read := read8_wf
  write := write8_wf
  cpu _ _ _ _ _ _ _ := id

/-- Settles O10: both accesses of the bus keep the invariant, and it does not look at what else a step changes. -/
theorem stepKeepsInvariant : Obligations.StepKeepsInvariant := fun _ _ hs h =>
  keepsWf_accessRel.step (fun _ _ _ => id) (fun _ _ _ _ => id) h hs

/-- The platform and the phase are the same in two states. -/
def SamePlatformAndPhase (s t : State) : Prop := SamePlatform s t ∧ t.phase = s.phase

theorem samePlatformAndPhase_accessRel : AccessRel SamePlatformAndPhase where
  refl s := ⟨.refl s, rfl⟩
  trans h h' := ⟨h.1.trans h'.1, h'.2.trans h.2⟩
  read h := ⟨read8_platform h, by rw [read8_frame h]⟩
  write h := ⟨write8_platform h, by rw [write8_frame h]⟩
  cpu s _ _ _ _ _ _ := ⟨.refl s, rfl⟩

/-- Settles O12: both accesses of the bus keep the platform, and nothing of a step changes the phase. -/
theorem stepKeepsPlatform : Obligations.StepKeepsPlatform := by
  intro s t h
  obtain ⟨hp, hph⟩ :=
    samePlatformAndPhase_accessRel.step (fun s _ _ => ⟨.refl s, rfl⟩) (fun s _ _ _ => ⟨.refl s, rfl⟩) h
  exact ⟨hp, hph.trans (phase_of_step_next h)⟩

/-- No address is both RAM and ROM. -/
theorem isRam_eq_false_of_isRom {s : State} {a : Word} (h : s.isRom a = true) : s.isRam a = false := by
  rw [isRom_eq] at h
  rw [isRam_eq]
  cases hp : (owner s.devices a).map Device.plan with
  | none => rfl
  | some p =>
    rw [hp] at h
    have hro : p.readOnly = some true := by simpa using h
    simp [hro]

/-- No write, whatever its address, changes a byte of ROM. -/
theorem write8_rom_memByte {s t : State} {a b : Word} {v : Byte} (h : write8 s a v = .ok t) (hb : s.isRom b = true) :
    t.memByte b = s.memByte b := by
  rcases write8_cases h with ⟨hr, -⟩ | ⟨_, _, _, _, _, _, rfl⟩
  · refine write8_memByte_ne h ?_
    rintro rfl
    rw [isRam_eq_false_of_isRom hb] at hr
    cases hr
  · rfl

/-- The platform is the same in two states, and so is every byte of ROM. -/
def SameRom (s t : State) : Prop := SamePlatform s t ∧ ∀ a, s.isRom a = true → t.memByte a = s.memByte a

theorem sameRom_accessRel : AccessRel SameRom where
  refl s := ⟨.refl s, fun _ _ => rfl⟩
  trans h h' := ⟨h.1.trans h'.1, fun a ha => (h'.2 a ((h.1.isRom a).trans ha)).trans (h.2 a ha)⟩
  read h := ⟨read8_platform h, fun a _ => (read8_rel h).memByte a⟩
  write h := ⟨write8_platform h, fun _ => write8_rom_memByte h⟩
  cpu s _ _ _ _ _ _ := ⟨.refl s, fun _ _ => rfl⟩

/-- Settles O13: a write of a ROM address does not complete, so no access of a step changes a byte there. -/
theorem stepNeverChangesRom : Obligations.StepNeverChangesRom := fun _ _ a ha h =>
  (sameRom_accessRel.step (fun s _ _ => ⟨.refl s, fun _ _ => rfl⟩) (fun s _ _ _ => ⟨.refl s, fun _ _ => rfl⟩) h).2 a ha

/-! ### Construction (O15, O17, O59) -/

/-- The ranges construction lets through (20_memory.md R79). -/
def RangeOk (base size : Int) : Prop := size ≥ 1 ∧ base ≥ 0 ∧ base + size - 1 ≤ 0xFFFF

theorem construct_rangeError {base size : Int} (name : String) (spec : DeviceSpec) (h : ¬RangeOk base size) :
    construct name base size spec = .error .rangeError := by
  unfold RangeOk at h
  exact if_pos (by omega)

theorem construct_memory {base size : Int} (name : String) (ro : Bool) (init : MemInit) (h : RangeOk base size) :
    construct name base size (.memory ro init) = .ok
      { device := { name := name, start := base.toNat, stop := (base + size - 1).toNat, kind := .memory ro }
        contents := init.bytes size.toNat } := by
  unfold RangeOk at h
  exact if_neg (by omega)

theorem construct_acia {base size : Int} {rxCap txCap : Nat} (name : String) (layout : AciaLayout) (hr : 1 ≤ rxCap)
    (ht : 1 ≤ txCap) (h : RangeOk base size) :
    construct name base size (.acia layout rxCap txCap) = .ok
      { device :=
          { name := name, start := base.toNat, stop := (base + size - 1).toNat,
            kind := .acia (Acia.powerOn layout rxCap txCap) }
        contents := [] } := by
  unfold RangeOk at h
  exact (if_neg (by omega)).trans (if_neg (by omega))

/-- Whatever is constructed has a range R79 allows. -/
theorem rangeOk_of_construct {name : String} {base size : Int} {spec : DeviceSpec} {n : NewDevice}
    (h : construct name base size spec = .ok n) : RangeOk base size := by
  by_contra hr
  rw [construct_rangeError name spec hr] at h
  cases h

/-! ### Routing (O15, O16) -/

/-- How many registers an ACIA has (60_exceptions.md R530). -/
def nregs : AciaLayout → Nat
  | .a6551 => 4
  | .a6850 => 2

theorem aciaReadReg_eq_none_iff (l : AciaLayout) (n : Nat) : aciaReadReg l n = none ↔ nregs l ≤ n := by
  cases l <;> rcases n with _ | _ | _ | _ | n <;> simp [aciaReadReg, nregs]

theorem aciaWriteReg_eq_none_iff (l : AciaLayout) (n : Nat) : aciaWriteReg l n = none ↔ nregs l ≤ n := by
  cases l <;> rcases n with _ | _ | _ | _ | n <;> simp [aciaWriteReg, nregs]

theorem owner_eq_none_iff (ds : List Device) (a : Word) : owner ds a = none ↔ ∀ d ∈ ds, d.contains a = false := by
  simp [owner]

theorem contains_iff (d : Device) (a : Word) : d.contains a = true ↔ d.start ≤ a.toNat ∧ a.toNat ≤ d.stop := by
  simp [Device.contains]

theorem owner_of_wf {s : State} {d : Device} {a : Word} (hs : s.wf = true) (hd : d ∈ s.devices)
    (hc : d.contains a = true) : owner s.devices a = some d := by
  obtain ⟨_, _, _, _, hds⟩ := (State.wf_iff s).1 hs
  exact owner_unique ((devicesWf_iff _ _ _).1 hds).2 hd hc

section Unowned
variable {s : State} {a : Word} (h : owner s.devices a = none)
include h

theorem read8_unmapped : read8 s a = .error (.bus .unmapped a) := by simp only [read8, h]
theorem windowRead8_unmapped : windowRead8 s a = .error (.bus .unmapped a) := by simp only [windowRead8, h]
theorem write8_unmapped (v : Byte) : write8 s a v = .error (.bus .unmapped a) := by simp only [write8, h]

end Unowned

section OwnedByAcia
variable {s : State} {a : Word} {d : Device} {k : Acia} (ho : owner s.devices a = some d) (hk : d.kind = .acia k)
include ho hk

theorem read8_noRegister (h : aciaReadReg k.layout (d.offset a) = none) : read8 s a = .error (.bus .noRegister a) := by
  simp only [read8, ho, hk, h]

theorem windowRead8_noRegister (h : aciaReadReg k.layout (d.offset a) = none) :
    windowRead8 s a = .error (.bus .noRegister a) := by
  simp only [windowRead8, ho, hk, h]

theorem write8_noRegister (v : Byte) (h : aciaWriteReg k.layout (d.offset a) = none) :
    write8 s a v = .error (.bus .noRegister a) := by
  simp only [write8, ho, hk, h]

theorem read8_acia {reg : AciaReg} (h : aciaReadReg k.layout (d.offset a) = some reg) :
    read8 s a = .ok
      { val := (k.cpuRead d.start s.draws reg).val
        st := { s with devices := setAcia s.devices a (k.cpuRead d.start s.draws reg).acia,
                       draws := (k.cpuRead d.start s.draws reg).draws } } := by
  simp only [read8, ho, hk, h]

end OwnedByAcia

/-- An address is ROM when a read-only Memory device owns it. -/
theorem isRom_iff (s : State) (a : Word) : s.isRom a = true ↔ ∃ d, owner s.devices a = some d ∧ d.kind = .memory true := by
  unfold State.isRom
  cases owner s.devices a with
  | none => simp
  | some d => obtain ⟨_, _, _, k⟩ := d; cases k with
    | acia => simp
    | memory ro => cases ro <;> simp

theorem write8_rom {s : State} {a : Word} (v : Byte) (h : s.isRom a = true) : write8 s a v = .error (.bus .readOnly a) := by
  obtain ⟨d, ho, hk⟩ := (isRom_iff s a).1 h
  simp only [write8, ho, hk]

/-- Settles O15, one clause of the routing after the other; an ACIA has a register at an offset exactly below `nregs`. -/
theorem busReadRouting : Obligations.BusReadRouting := by
  refine ⟨fun name base size layout rxCap txCap hr ht => ?_, fun s a => ⟨?_, fun d ho => ?_, fun hs d => owner_of_wf hs,
    fun ho => ?_, fun h => ?_, fun d k ho hk => ⟨fun h => ?_, fun h => ?_, fun r hr => ?_⟩, fun h => ?_⟩⟩
  · exact ⟨fun ⟨_, h⟩ => rangeOk_of_construct h, fun h => ⟨_, construct_acia name layout hr ht h⟩⟩
  · exact owner_eq_none_iff s.devices a
  · exact ⟨owner_mem ho, (contains_iff d a).1 (owner_contains ho)⟩
  · exact ⟨read8_unmapped ho, windowRead8_unmapped ho⟩
  · exact ⟨read8_memory h, windowRead8_memory h⟩
  · have hread := (aciaReadReg_eq_none_iff k.layout (d.offset a)).2 h
    have hwrite := (aciaWriteReg_eq_none_iff k.layout (d.offset a)).2 h
    exact ⟨read8_noRegister ho hk hread, windowRead8_noRegister ho hk hread, fun v => write8_noRegister ho hk v hwrite⟩
  · exact Option.ne_none_iff_exists'.1 fun hn => Nat.not_le_of_lt h ((aciaReadReg_eq_none_iff _ _).1 hn)
  · exact ⟨read8_acia ho hk hr, windowRead8_acia ho hk hr⟩
  · obtain ⟨r, hr⟩ := (read8_completes_iff s a).2 h
    exact ⟨r, hr, read8_frame hr, read8_platform hr⟩

theorem write8_mem_wf {s t : State} {a : Word} {v : Byte} (h : write8 s a v = .ok t) (hm : s.mem.wf = true) :
    t.mem.wf = true := by
  rcases write8_cases h with ⟨_, rfl⟩ | ⟨_, _, _, _, _, _, rfl⟩
  · exact Memory.wf_write a.isLt hm
  · exact hm

/-- Settles O16, one clause per owner. -/
theorem busWriteRouting : Obligations.BusWriteRouting := by
  refine fun s a v hm => ⟨fun ho => write8_unmapped ho v, write8_rom v, fun h => ?_,
    fun d k ho hk => write8_noRegister ho hk v, fun h => ?_⟩
  · have hw := write8_ram v h
    exact ⟨_, hw, rfl, write8_memByte_self hw hm h⟩
  · obtain ⟨t, ht⟩ := (write8_completes_iff s a v).2 h
    exact ⟨t, ht, write8_frame ht, write8_platform ht, write8_mem_wf ht hm, fun b => write8_memByte_ne ht⟩

/-! ### Adding a device (O17, O59) -/

/-- The new device's range meets no registered one and lies in the window (20_memory.md R81). -/
structure Fits (s : State) (d : Device) : Prop where
  disjoint : ∀ e ∈ s.devices, ¬(e.start ≤ d.stop ∧ d.start ≤ e.stop)
  start : s.busStart ≤ d.start
  stop : d.stop ≤ s.busEnd

theorem any_overlaps_iff (ds : List Device) (d : Device) :
    ds.any d.overlaps = true ↔ ∃ e ∈ ds, e.start ≤ d.stop ∧ d.start ≤ e.stop := by
  simp [Device.overlaps, and_comm]

/-- `addDevice` rejects a device that does not fit. -/
theorem addDevice_rejects {s : State} {n : NewDevice} (h : ¬Fits s n.device) :
    addDevice s n = { reply := .rangeError, st := s } := by
  unfold addDevice
  split
  · rfl
  · next ho =>
    split
    · rfl
    · next hw =>
      rw [any_overlaps_iff] at ho
      exact absurd ⟨fun e he hx => ho ⟨e, he, hx⟩, by omega, by omega⟩ h

/-- `addDevice` registers a device that fits. -/
theorem addDevice_registers {s : State} {n : NewDevice} (h : Fits s n.device) :
    addDevice s n =
      { reply := .ok
        st := { s with devices := insertDevice n.device s.devices, mem := installBytes s.mem n.device n.contents } } := by
  unfold addDevice
  rw [if_neg, if_neg]
  · have := h.start
    have := h.stop
    omega
  · rw [any_overlaps_iff]
    exact fun ⟨e, he, hx⟩ => h.disjoint e he hx

/-- A device that `addDevice` accepted fits. -/
theorem fits_of_addDevice_ok {s : State} {n : NewDevice} (h : (addDevice s n).reply = .ok) : Fits s n.device := by
  by_contra hf
  rw [addDevice_rejects hf] at h
  cases h

/-- Bytes that lie in a device's range are installed without a change outside it. -/
theorem read_installBytes_outside {d : Device} {contents : List Byte} {x : Nat} (m : Memory)
    (hl : d.start + contents.length ≤ d.stop + 1) (hx : x < d.start ∨ d.stop < x) :
    (installBytes m d contents).read x = m.read x :=
  (read_storeBytes_outside contents (by omega)).trans (Memory.read_filter (by simpa using hx) m)

/-- An installed device reads as its initial bytes, and as the unlisted byte past them. -/
theorem read_installBytes {d : Device} {contents : List Byte} {i : Nat} {m : Memory} (hm : m.wf = true)
    (hd : d.stop ≤ 0xFFFF) (hl : d.start + contents.length ≤ d.stop + 1) (hi : d.start + i ≤ d.stop) :
    (installBytes m d contents).read (d.start + i) = contents.getD i unlistedByte := by
  by_cases h : i < contents.length
  · exact read_storeBytes contents (Memory.wf_filter _ hm).1 (by omega) h
  · have hout : (installBytes m d contents).read (d.start + i) = unlistedByte :=
      (read_storeBytes_outside contents (by omega)).trans (Memory.read_filter_out (by simp; omega) m)
    rw [hout, List.getD_eq_default _ _ (by omega)]

/-- Adding a device that fits keeps the order by range start. -/
theorem insertDevice_pairwise_of_fits {s : State} {d : Device} (hs : s.wf = true) (hd : d.start ≤ d.stop) (h : Fits s d) :
    (insertDevice d s.devices).Pairwise fun d e => d.stop < e.start := by
  obtain ⟨_, _, _, _, hds⟩ := (State.wf_iff s).1 hs
  obtain ⟨hall, hpw⟩ := (devicesWf_iff _ _ _).1 hds
  exact insertDevice_pairwise hd (fun e he => ((Device.wf_iff e).1 (hall e he).1).1) h.disjoint hpw

/-- The initial bytes of a Memory device fit in its range. -/
theorem memInit_bytes_fit {base size : Int} (init : MemInit) (h : RangeOk base size) :
    base.toNat + (init.bytes size.toNat).length ≤ (base + size - 1).toNat + 1 := by
  have := MemInit.bytes_length size.toNat init
  unfold RangeOk at h
  omega

/-- Settles O17: construction turns on `RangeOk`, and `addDevice` on `Fits`. -/
theorem addDeviceRegistersOrRejects : Obligations.AddDeviceRegistersOrRejects := by
  refine ⟨fun name base size ro init layout rxCap txCap hr ht => ⟨fun h => ⟨?_, ?_⟩, fun h => ?_⟩,
    fun s n => ⟨?_, fun h => ?_, fun hd hlo hhi => ?_⟩⟩
  · exact ⟨_, construct_memory name ro init h, rfl, memInit_bytes_fit init h⟩
  · exact ⟨_, construct_acia name layout hr ht h, rfl, rfl⟩
  · exact ⟨construct_rangeError name _ h, construct_rangeError name _ h⟩
  · rintro ⟨e, he, hx⟩
    exact addDevice_rejects fun hf => hf.disjoint e he hx
  · exact addDevice_rejects fun hf => h.elim (Nat.not_lt_of_le hf.start) (Nat.not_lt_of_le hf.stop)
  · have hf : Fits s n.device := ⟨hd, hlo, hhi⟩
    rw [addDevice_registers hf]
    exact ⟨rfl, insertDevice_perm _ _, rfl, fun hl a ha => read_installBytes_outside s.mem hl ha,
      fun hs hle => insertDevice_pairwise_of_fits hs hle hf⟩

/-! ### What an added Memory device holds (O59) -/

/-- The byte MEM_INIT gives an offset (20_memory.md R86, D24): the image's, and past it the fill. -/
def MemInit.byteAt (i : Nat) : MemInit → Byte
  | .fill v => v
  | .image bytes v => bytes.getD i v

/-- The listed bytes, with the unlisted byte after them, are those MEM_INIT gives. -/
theorem MemInit.getD_bytes {i size : Nat} (init : MemInit) (h : i < size) :
    (init.bytes size).getD i unlistedByte = init.byteAt i := by
  cases init with
  | fill v => by_cases hv : v = unlistedByte <;> simp [MemInit.bytes, MemInit.byteAt, hv, h, List.getD_eq_getElem?_getD]
  | image bytes v =>
    rw [MemInit.bytes, MemInit.byteAt, List.getD_eq_getElem?_getD, List.getElem?_take_of_lt h, ← List.getD_eq_getElem?_getD]
    by_cases hi : i < bytes.length
    · rw [List.getD_append _ _ _ _ hi, List.getD_eq_getElem _ _ hi, List.getD_eq_getElem _ _ hi]
    · rw [List.getD_append_right _ _ _ _ (by omega), List.getD_eq_default bytes _ (by omega)]
      by_cases hv : v = unlistedByte
      · simp [hv]
      · rw [if_neg hv, List.getD_replicate _ (by omega)]

/-- What a constructed Memory device is. -/
theorem construct_memory_ok {name : String} {base size : Int} {ro : Bool} {init : MemInit} {n : NewDevice}
    (h : construct name base size (.memory ro init) = .ok n) :
    n.device.start = base.toNat ∧ n.device.stop = (base + size - 1).toNat ∧ n.device.kind = .memory ro ∧
      n.contents = init.bytes size.toNat := by
  rw [construct_memory name ro init (rangeOk_of_construct h)] at h
  cases h
  exact ⟨rfl, rfl, rfl, rfl⟩

section AddedDevice
variable {s : State} {n : NewDevice} {a : Word} (hs : s.wf = true) (hf : Fits s n.device) (ha : n.device.contains a = true)
include hs hf ha

theorem addDevice_memByte (hl : n.device.start + n.contents.length ≤ n.device.stop + 1) :
    (addDevice s n).st.memByte a = n.contents.getD (n.device.offset a) unlistedByte := by
  obtain ⟨hm, _, _, hend, _⟩ := (State.wf_iff s).1 hs
  obtain ⟨hlo, hhi⟩ := (contains_iff _ a).1 ha
  have hread := read_installBytes (i := n.device.offset a) hm (hf.stop.trans hend) hl (by unfold Device.offset; omega)
  rw [Device.offset, Nat.add_sub_cancel' hlo] at hread
  rw [addDevice_registers hf]
  exact hread

theorem addDevice_isMemory {ro : Bool} (hk : n.device.kind = .memory ro) : (addDevice s n).st.isMemory a = true := by
  obtain ⟨hlo, hhi⟩ := (contains_iff _ a).1 ha
  rw [addDevice_registers hf]
  exact (isMemory_iff _ _).2 ⟨n.device, ro,
    owner_unique (insertDevice_pairwise_of_fits hs (hlo.trans hhi) hf) (mem_insertDevice.2 (.inl rfl)) ha, hk⟩

end AddedDevice

/-- Settles O59: the new device owns its addresses, and memory there holds the bytes it lists. -/
theorem addedMemoryHoldsInitialContents : Obligations.AddedMemoryHoldsInitialContents := by
  intro s name base size ro init n hs hn hok i hi a v
  have hr := rangeOk_of_construct hn
  have hf := fits_of_addDevice_ok hok
  obtain ⟨hstart, hstop, hkind, hcontents⟩ := construct_memory_ok hn
  have hlen := memInit_bytes_fit init hr
  unfold RangeOk at hr
  have ha : a.toNat = base.toNat + i := (BitVec.toNat_ofNat _ _).trans (Nat.mod_eq_of_lt (by omega))
  have hc : n.device.contains a = true := (contains_iff _ _).2 (by omega)
  have hoff : n.device.offset a = i := by rw [Device.offset, ha, hstart, Nat.add_sub_cancel_left]
  have hv : n.contents.getD i unlistedByte = v := by
    rw [hcontents, MemInit.getD_bytes init (by omega)]
    cases init <;> rfl
  have hbyte : (addDevice s n).st.memByte a = v := by
    rw [addDevice_memByte hs hf hc (by rw [hstart, hstop, hcontents]; exact hlen), hoff, hv]
  exact ⟨hv, hbyte, by rw [read8_memory (addDevice_isMemory hs hf hc hkind), hbyte]⟩

/-! ### Completeness of the bus (O18) -/

/-- Devices in order, each in what is left of the window, tile it exactly when they cover it. -/
theorem tiles_iff_covers {stop : Nat} {ds : List Device} : ∀ {next : Nat}, next ≤ stop + 1 →
    (∀ d ∈ ds, d.start ≤ d.stop ∧ next ≤ d.start ∧ d.stop ≤ stop) → (ds.Pairwise fun d e => d.stop < e.start) →
    (tiles stop next ds = true ↔ ∀ n, next ≤ n → n ≤ stop → ∃ d ∈ ds, d.start ≤ n ∧ n ≤ d.stop) := by
  induction ds with
  | nil =>
    intro next hnext _ _
    simp only [tiles, beq_iff_eq, List.not_mem_nil, false_and, exists_false]
    refine ⟨fun h n h1 h2 => by omega, fun h => ?_⟩
    by_contra hne
    exact h next le_rfl (by omega)
  | cons d ds ih =>
    intro next hnext hall hpw
    obtain ⟨hlt, hpw⟩ := List.pairwise_cons.1 hpw
    obtain ⟨hd, hlo, hhi⟩ := hall d List.mem_cons_self
    have ih := ih (next := d.stop + 1) (by omega)
      (fun e he => ⟨(hall e (List.mem_cons_of_mem _ he)).1, hlt e he, (hall e (List.mem_cons_of_mem _ he)).2.2⟩) hpw
    rw [tiles, Bool.and_eq_true, beq_iff_eq, ih]
    refine ⟨fun ⟨hs, hc⟩ n h1 h2 => ?_, fun h => ⟨?_, fun n h1 h2 => ?_⟩⟩
    · by_cases hn : n ≤ d.stop
      · exact ⟨d, List.mem_cons_self, by omega, hn⟩
      · obtain ⟨e, he, hx⟩ := hc n (by omega) h2
        exact ⟨e, List.mem_cons_of_mem _ he, hx⟩
    · obtain ⟨e, he, hx⟩ := h next le_rfl (by omega)
      rcases List.mem_cons.1 he with rfl | he
      · omega
      · have := hlt e he
        omega
    · obtain ⟨e, he, hx⟩ := h n (by omega) h2
      rcases List.mem_cons.1 he with rfl | he
      · omega
      · exact ⟨e, he, hx⟩

/-- Settles O18: under the invariant the devices are in order in the window, where tiling is covering. -/
theorem completeBusOwnsTheWindow : Obligations.CompleteBusOwnsTheWindow := by
  refine ⟨fun s h => by simp [State.isComplete, h], fun s hs => ?_⟩
  obtain ⟨_, _, hwin, _, hds⟩ := (State.wf_iff s).1 hs
  obtain ⟨hall, hpw⟩ := (devicesWf_iff _ _ _).1 hds
  rw [State.isComplete, Bool.and_eq_true, tiles_iff_covers (by omega)
    (fun d hd => ⟨((Device.wf_iff d).1 (hall d hd).1).1, (hall d hd).2⟩) hpw]
  simp

/-! ### Pairs of bytes and the operand forms (O28) -/

/-- Two reads, low byte first, the second in the state the first leaves, and a number added to the 16-bit value of the two bytes: what `read16`,
`read16zp` and the pointer modes do. -/
def readPair (s : State) (p q : Word) (add : Nat) : Except Fault (Got Word) := do
  let lo ← read8 s p
  let hi ← read8 lo.st q
  return { val := BitVec.ofNat 16 (hi.val.toNat * 0x100 + lo.val.toNat + add), st := hi.st }

/-- An address of page zero, from a number that wraps there. -/
def zeroPage (n : Nat) : Word := BitVec.ofNat 16 (n % 0x100)

theorem ofNat_pair (lo hi : Byte) (add : Nat) :
    BitVec.ofNat 16 (hi.toNat * 0x100 + lo.toNat + add) = joinBytes lo hi + BitVec.ofNat 16 add := by
  rw [BitVec.ofNat_add, ← joinBytes_toNat, BitVec.ofNat_toNat, BitVec.setWidth_eq]

theorem setWidth_eq_zeroPage {z : Byte} {n : Nat} (h : n % 0x100 = z.toNat) : z.setWidth 16 = zeroPage n := by
  rw [zeroPage, h, BitVec.ofNat_toNat]

theorem readPair_eq (s : State) (p q : Word) (add : Nat) :
    readPair s p q add = (do
      let lo ← read8 s p
      let hi ← read8 lo.st q
      return { val := joinBytes lo.val hi.val + BitVec.ofNat 16 add, st := hi.st }) := by
  simp only [readPair, ofNat_pair]

theorem read16_eq_readPair (s : State) (a : Word) : read16 s a = readPair s a (BitVec.ofNat 16 (a.toNat + 1)) 0 := by
  have ha : BitVec.ofNat 16 (a.toNat + 1) = a + 1 := by bv_omega
  simp only [readPair_eq, read16, ha, BitVec.add_zero]

theorem read16zp_eq_readPair (s : State) {z : Byte} {n : Nat} (h : n % 0x100 = z.toNat) :
    read16zp s z = readPair s (zeroPage n) (zeroPage (n + 1)) 0 := by
  have h1 : (n + 1) % 0x100 = (z + 1).toNat := by bv_omega
  simp only [readPair_eq, read16zp, ← setWidth_eq_zeroPage h, ← setWidth_eq_zeroPage h1, BitVec.add_zero]

theorem ea_zpi (s : State) (b1 : Byte) : ea s (.zpi b1) = readPair s (zeroPage b1.toNat) (zeroPage (b1.toNat + 1)) 0 :=
  read16zp_eq_readPair s (Nat.mod_eq_of_lt b1.isLt)

theorem ea_xin (s : State) (b1 : Byte) :
    ea s (.xin b1) = readPair s (zeroPage (b1.toNat + s.x.toNat)) (zeroPage (b1.toNat + s.x.toNat + 1)) 0 :=
  read16zp_eq_readPair s (BitVec.toNat_add b1 s.x).symm

/-- Reads leave Y, so the one added after the pointer is read is that of before (30_encoding.md R137). -/
theorem ea_iny (s : State) (b1 : Byte) :
    ea s (.iny b1) = readPair s (zeroPage b1.toNat) (zeroPage (b1.toNat + 1)) s.y.toNat := by
  rw [ea, read16zp_eq_readPair s (Nat.mod_eq_of_lt b1.isLt), readPair, readPair]
  simp only [bind_assoc, pure_bind, ofNat_pair, BitVec.ofNat_toNat, BitVec.add_zero]

theorem readPair_error_low {s : State} {p : Word} {f : Fault} (q : Word) (add : Nat) (h : read8 s p = .error f) :
    readPair s p q add = .error f :=
  bind_eq_error.2 (.inl h)

theorem readPair_error_high {s : State} {p q : Word} {lo : Got Byte} {f : Fault} (add : Nat) (hl : read8 s p = .ok lo)
    (h : read8 lo.st q = .error f) : readPair s p q add = .error f :=
  bind_eq_error.2 (.inr ⟨lo, hl, bind_eq_error.2 (.inl h)⟩)

theorem readPair_ok {s : State} {p q : Word} {lo hi : Got Byte} (add : Nat) (hl : read8 s p = .ok lo)
    (hh : read8 lo.st q = .ok hi) :
    readPair s p q add = .ok { val := BitVec.ofNat 16 (hi.val.toNat * 0x100 + lo.val.toNat + add), st := hi.st } :=
  bind_eq_ok.2 ⟨lo, hl, bind_eq_ok.2 ⟨hi, hh, rfl⟩⟩

theorem readPair_memory {s : State} {p q : Word} (add : Nat) (h : s.isMemory p = true ∧ s.isMemory q = true) :
    readPair s p q add =
      .ok { val := BitVec.ofNat 16 ((s.memByte q).toNat * 0x100 + (s.memByte p).toNat + add), st := s } :=
  readPair_ok (lo := ⟨s.memByte p, s⟩) (hi := ⟨s.memByte q, s⟩) add (read8_memory h.1) (read8_memory h.2)

theorem readPair_memory_pointer {s : State} {p q : Word} (h : s.isMemory p = true ∧ s.isMemory q = true) :
    readPair s p q 0 = .ok { val := BitVec.ofNat 16 ((s.memByte q).toNat * 0x100 + (s.memByte p).toNat), st := s } := by
  rw [readPair_memory 0 h, Nat.add_zero]

/-- The high byte is readable after the low byte was read exactly when it was before: a read keeps the platform. -/
theorem readPair_completes_iff (s : State) (p q : Word) (add : Nat) :
    (∃ e, readPair s p q add = .ok e) ↔ s.readable p = true ∧ s.readable q = true := by
  constructor
  · rintro ⟨e, h⟩
    obtain ⟨lo, hl, h⟩ := bind_eq_ok.1 h
    obtain ⟨hi, hh, -⟩ := bind_eq_ok.1 h
    exact ⟨(read8_completes_iff s p).1 ⟨lo, hl⟩,
      ((read8_platform hl).readable q).symm.trans ((read8_completes_iff lo.st q).1 ⟨hi, hh⟩)⟩
  · rintro ⟨hp, hq⟩
    obtain ⟨lo, hl⟩ := (read8_completes_iff s p).2 hp
    obtain ⟨hi, hh⟩ := (read8_completes_iff lo.st q).2 (((read8_platform hl).readable q).trans hq)
    exact ⟨_, readPair_ok add hl hh⟩

/-- A computation is the pair of reads, in every outcome. -/
theorem readPair_meaning {s : State} {o : Except Fault (Got Word)} {p q : Word} {add : Nat} (ho : o = readPair s p q add) :
    (∀ f, read8 s p = .error f → o = .error f) ∧
    ∀ lo, read8 s p = .ok lo →
      (∀ f, read8 lo.st q = .error f → o = .error f) ∧
      ∀ hi, read8 lo.st q = .ok hi →
        o = .ok ⟨BitVec.ofNat 16 (hi.val.toNat * 0x100 + lo.val.toNat + add), hi.st⟩ := by
  subst ho
  exact ⟨fun f => readPair_error_low q add, fun lo hl => ⟨fun f => readPair_error_high add hl, fun hi => readPair_ok add hl⟩⟩

section EffectiveAddress
variable {s : State} {m : MemOperand} {e : Got Word} (he : ea s m = .ok e)
include he

theorem load_of_ea : load s (.mem m) = read8 e.st e.val := by rw [load, he]; rfl

theorem store_of_ea (v : Byte) : store s m v = write8 e.st e.val v := by rw [store, he]; rfl

theorem rmw_error_of_ea {x : Fault} (f : Flags → Byte → AluOut) (h : read8 e.st e.val = .error x) :
    rmw s (.mem m) f = .error x :=
  bind_eq_error.2 (.inr ⟨e, he, bind_eq_error.2 (.inl h)⟩)

/-- The flags a read-modify-write gets are those of before its address was computed. -/
theorem rmw_of_ea {r : Got Byte} (f : Flags → Byte → AluOut) (h : read8 e.st e.val = .ok r) :
    rmw s (.mem m) f = write8 { r.st with flags := (f s.flags r.val).flags } e.val (f s.flags r.val).val := by
  have hf : r.st.flags = s.flags := by rw [((ea_rel he).trans (read8_rel h)).frame]
  rw [rmw, he, ← hf]
  show (read8 e.st e.val >>= _) = _
  rw [h]
  rfl

/-- A load completes when its effective address does and is readable. -/
theorem load_completes_of_ea (h : s.readable e.val = true) : ∃ r, load s (.mem m) = .ok r := by
  rw [load_of_ea he]
  exact (read8_completes_iff e.st e.val).2 (((ea_rel he).platform.readable e.val).trans h)

end EffectiveAddress

/-- Settles O28: the pointer accesses are `readPair`, and the operand forms access the effective address. -/
theorem pointerEffectiveAddresses : Obligations.PointerEffectiveAddresses := by
  intro s b1
  refine ⟨fun a => readPair_meaning (read16_eq_readPair s a), readPair_meaning (ea_zpi s b1), readPair_meaning (ea_zpi s b1),
    readPair_meaning (ea_xin s b1), readPair_meaning (ea_iny s b1), ?_⟩
  rw [ea_zpi, ea_xin, ea_iny]
  refine ⟨readPair_memory_pointer, readPair_memory_pointer, readPair_memory _, readPair_completes_iff ..,
    readPair_completes_iff .., readPair_completes_iff .., rfl, fun f => rfl, fun m => ⟨fun x hx => ?_, fun e he => ?_⟩⟩
  · exact ⟨bind_eq_error.2 (.inl hx), fun v => bind_eq_error.2 (.inl hx), fun f => bind_eq_error.2 (.inl hx)⟩
  · exact ⟨load_of_ea he, store_of_ea he, fun f => ⟨fun x => rmw_error_of_ea he f, fun r => rmw_of_ea he f⟩,
      load_completes_of_ea he⟩

/-! ### Loading a program (O31) -/

theorem loadFrom_cons_ok {s t : State} {a : Word} {v : Byte} (rest : List Byte) (h : write8 s a v = .ok t) :
    loadFrom s a (v :: rest) = loadFrom t (a + 1) rest := by
  simp only [loadFrom, h]

theorem loadFrom_cons_fault {s : State} {a addr : Word} {v : Byte} {kind : FaultKind} (rest : List Byte)
    (h : write8 s a v = .error (.bus kind addr)) :
    loadFrom s a (v :: rest) = { reply := .fault kind addr, st := s } := by
  simp only [loadFrom, h]

/-- Bytes loaded into RAM stand from the address on, and nothing else changes: at most 65536 of them, so none comes round to the first. -/
theorem loadFrom_ram (bytes : List Byte) {s : State} {a : Word} (hm : s.mem.wf = true) (hl : bytes.length ≤ 0x10000)
    (hr : ∀ i < bytes.length, s.isRam (a + BitVec.ofNat 16 i) = true) :
    ∃ t, loadFrom s a bytes = { reply := .ok, st := t } ∧ t = { s with mem := t.mem } ∧
      (∀ i (h : i < bytes.length), t.memByte (a + BitVec.ofNat 16 i) = bytes[i]) ∧
      ∀ b, (∀ i < bytes.length, b ≠ a + BitVec.ofNat 16 i) → t.memByte b = s.memByte b := by
  induction bytes generalizing s a with
  | nil => exact ⟨s, rfl, rfl, by simp, fun _ _ => rfl⟩
  | cons v vs ih =>
    rw [List.length_cons] at hl hr
    have hnext : ∀ i, a + 1 + BitVec.ofNat 16 i = a + BitVec.ofNat 16 (i + 1) := fun i => by
      rw [BitVec.ofNat_add, BitVec.add_assoc, BitVec.add_comm 1]; rfl
    have hram : s.isRam a = true := by simpa using hr 0 (by omega)
    obtain ⟨t, ht, hframe, hbytes, hother⟩ := ih (s := { s with mem := s.mem.write a.toNat v }) (a := a + 1)
      (Memory.wf_write a.isLt hm) (by omega) (fun i hi => by rw [hnext]; exact hr (i + 1) (by omega))
    simp only [hnext] at hbytes hother
    have hfirst : t.memByte a = v := by
      rw [hother a (fun i hi => by bv_omega), memByte_write hm, if_pos rfl]
    refine ⟨t, (loadFrom_cons_ok vs (write8_ram v hram)).trans ht, hframe, fun i hi => ?_, fun b hb => ?_⟩
    · cases i with
      | zero => simpa using hfirst
      | succ i => exact hbytes i (by simpa using hi)
    · have hba : b ≠ a := by simpa using hb 0 (by simp)
      rw [hother b (fun i hi => hb (i + 1) (by simpa using hi)), memByte_write hm, if_neg hba]

/-- Settles O31: `loadProgram` loads from PC on. -/
theorem loadProgramWritesFromPc : Obligations.LoadProgramWritesFromPc :=
  ⟨fun _ bytes hm hl hr => loadFrom_ram bytes hm hl hr,
    fun _ _ _ rest => ⟨fun _ _ => loadFrom_cons_fault rest, fun _ => loadFrom_cons_ok rest⟩⟩

end Sys2Proof.Machine
end

section
/-! The statements of 30_encoding.md: encoding and decoding undo each other (R120, R143, R146), lengths (R144), legality (R142, R408), the
branches on a bit (R139, R360, R361), the effective addresses of the direct modes (R127 to R132), and what a step fetches (R122, R123, R513). -/

namespace Sys2Proof

/-! ### The formats of the map -/

/-- How an instruction other than the undefined one is encoded, whatever UNDEF_LEN, and which behaviours define it. Each field of a row of the
map is true by evaluation, so it is filled in where it is not given. -/
structure Encoded (i : Instr) (op : Byte) (len : InstrLen) (cmosOnly : Bool) (operands : List Byte) : Prop where
  wf : i.wf = true := by rfl
  opcode : i.opcode = op := by rfl
  length : ∀ l, i.length l = len := by exact fun _ => rfl
  operandBytes : ∀ l, i.operandBytes l = operands := by exact fun _ => rfl
  defined : ∀ b, i.defined b = (!cmosOnly || b.isCmos) := by exact fun _ => rfl

/-- An instruction stands in the map in one of the formats of 30_encoding.md R120: `cell` says what its opcode's cell makes of operand bytes,
and `enc` that all the cell makes are encoded alike, with those operand bytes. -/
inductive Format : Instr → Prop
  | undefined {op : Byte} (h : op ∈ undefinedOpcodes) : Format (.undefined op)
  | one {i : Instr} (cell : decodeOp i.opcode = cell1 i := by rfl)
      (enc : Encoded i i.opcode .one i.cmosOnly [] := by exact {}) : Format i
  | two {f : Byte → Instr} (b1 : Byte) (cell : decodeOp (f 0).opcode = cell2 f := by rfl)
      (enc : ∀ b1, Encoded (f b1) (f 0).opcode .two (f 0).cmosOnly [b1] := by exact fun _ => {}) : Format (f b1)
  | word {f : Word → Instr} (w : Word) (cell : decodeOp (f 0).opcode = cell3 f := by rfl)
      (enc : ∀ w, Encoded (f w) (f 0).opcode .three (f 0).cmosOnly [lowByte w, highByte w] := by exact fun _ => {}) :
      Format (f w)
  | three {f : Byte → Byte → Instr} (b1 b2 : Byte) (cell : decodeOp (f 0 0).opcode = f := by rfl)
      (enc : ∀ b1 b2, Encoded (f b1 b2) (f 0 0).opcode .three (f 0 0).cmosOnly [b1, b2] := by exact fun _ _ => {}) :
      Format (f b1 b2)

/-- The one walk over the rows of the map: each is in a format. (`apply`, because the goal gives the `f` of which `cell` and `enc` are then
evaluated.) -/
theorem Instr.format (i : Instr) (h : i.wf = true) : Format i := by
  cases i with
  | lda m | adc m | sbc m | and m | ora m | eor m | cmp m =>
    cases m with
    | imm b | zpg b | zpx b | xin b | iny b | zpi b => apply Format.two b
    | abs w | abx w | aby w => apply Format.word w
  | sta m =>
    cases m with
    | zpg b | zpx b | xin b | iny b | zpi b => apply Format.two b
    | abs w | abx w | aby w => apply Format.word w
  | ldx m =>
    cases m with
    | imm b | zpg b | zpy b => apply Format.two b
    | abs w | aby w => apply Format.word w
  | ldy m =>
    cases m with
    | imm b | zpg b | zpx b => apply Format.two b
    | abs w | abx w => apply Format.word w
  | stx m =>
    cases m with
    | zpg b | zpy b => apply Format.two b
    | abs w => apply Format.word w
  | sty m =>
    cases m with
    | zpg b | zpx b => apply Format.two b
    | abs w => apply Format.word w
  | stz m =>
    cases m with
    | zpg b | zpx b => apply Format.two b
    | abs w | abx w => apply Format.word w
  | cpx m | cpy m =>
    cases m with
    | imm b | zpg b => apply Format.two b
    | abs w => apply Format.word w
  | bit m =>
    cases m with
    | imm b | zpg b | zpx b => apply Format.two b
    | abs w | abx w => apply Format.word w
  | asl m | lsr m | rol m | ror m | inc m | dec m =>
    cases m with
    | acc => exact .one
    | zpg b | zpx b => apply Format.two b
    | abs w | abx w => apply Format.word w
  | tsb m | trb m =>
    cases m with
    | zpg b => apply Format.two b
    | abs w => apply Format.word w
  | jmp m => cases m with | abs w | ind w | aix w => apply Format.word w
  | jsr w => apply Format.word w
  | rmb0 b | rmb1 b | rmb2 b | rmb3 b | rmb4 b | rmb5 b | rmb6 b | rmb7 b | smb0 b | smb1 b | smb2 b | smb3 b | smb4 b
  | smb5 b | smb6 b | smb7 b | bcc b | bcs b | beq b | bne b | bmi b | bpl b | bvc b | bvs b | bra b => apply Format.two b
  | bbr0 b1 b2 | bbr1 b1 b2 | bbr2 b1 b2 | bbr3 b1 b2 | bbr4 b1 b2 | bbr5 b1 b2 | bbr6 b1 b2 | bbr7 b1 b2 | bbs0 b1 b2
  | bbs1 b1 b2 | bbs2 b1 b2 | bbs3 b1 b2 | bbs4 b1 b2 | bbs5 b1 b2 | bbs6 b1 b2 | bbs7 b1 b2 => apply Format.three b1 b2
  | undefined op => exact .undefined (List.contains_iff_mem.1 h)
  | _ => exact .one

theorem decodeOp_undefined {op : Byte} (h : op ∈ undefinedOpcodes) (b1 b2 : Byte) :
    decodeOp op b1 b2 = .undefined op := by
  fin_cases h <;> rfl

/-- Every byte is the opcode of a well-formed instruction (30_encoding.md R146). -/
theorem decodeOp_zero_wf_opcode (op : Byte) : (decodeOp op 0 0).wf = true ∧ (decodeOp op 0 0).opcode = op := by
  revert op; decide +kernel

/-- What a defined opcode decodes to, whatever the operand bytes: an instruction encoded as the opcode and as many of them as its length
says. -/
theorem encoded_decodeOp {op : Byte} (h : op ∉ undefinedOpcodes) :
    ∃ len c, ∀ b1 b2, Encoded (decodeOp op b1 b2) op len c ([b1, b2].take (len.toNat - 1)) := by
  obtain ⟨hwf, hop⟩ := decodeOp_zero_wf_opcode op
  have hf := (decodeOp op 0 0).format hwf
  generalize decodeOp op 0 0 = i at hf hop
  subst hop
  cases hf with
  | undefined h' => exact absurd h' h
  | one cell enc => rw [cell]; exact ⟨_, _, fun _ _ => enc⟩
  | two b cell enc => rw [(enc b).opcode, cell]; exact ⟨_, _, fun b1 _ => enc b1⟩
  | word w cell enc =>
    rw [(enc w).opcode, cell]
    have hjoin := fun b1 b2 => enc (joinBytes b1 b2)
    simp only [lowByte_joinBytes, highByte_joinBytes] at hjoin
    exact ⟨_, _, hjoin⟩
  | three b b' cell enc => rw [(enc b b').opcode, cell]; exact ⟨_, _, enc⟩

/-! ### Decoding what was encoded (O1) -/

/-- The first instruction of a stream is its opcode's, made of as many bytes as LEN of the opcode says. -/
theorem decode_cons {l : UndefLens} {op : Byte} {operands : List Byte} (rest : List Byte)
    (h : operands.length + 1 = (opLength l op).toNat) :
    decode l (op :: operands ++ rest) = .ok (decodeOp op (operands.getD 0 0) (operands.getD 1 0), rest) := by
  unfold decode
  cases hl : opLength l op <;> rw [hl] at h
  · obtain rfl := List.length_eq_zero_iff.1 (Nat.succ.inj h); simp [hl]
  · obtain ⟨b1, rfl⟩ := List.length_eq_one_iff.1 (Nat.succ.inj h); simp [hl]
  · obtain ⟨b1, b2, rfl⟩ := List.length_eq_two.1 (Nat.succ.inj h); simp [hl]

namespace Format
variable {i : Instr} (h : Format i) (l : UndefLens)
include h

theorem opLength_opcode : opLength l i.opcode = i.length l := by
  unfold opLength
  cases h with
  | undefined h => exact congrArg (Instr.length l) (decodeOp_undefined h 0 0)
  | one cell => rw [cell]; rfl
  | two b1 cell enc => rw [(enc b1).opcode, cell, (enc b1).length]; exact (enc 0).length l
  | word w cell enc => rw [(enc w).opcode, cell, (enc w).length]; exact (enc _).length l
  | three b1 b2 cell enc => rw [(enc b1 b2).opcode, cell, (enc b1 b2).length]; exact (enc 0 0).length l

theorem operandBytes_length : (i.operandBytes l).length + 1 = (i.length l).toNat := by
  cases h with
  | undefined => exact Laws.Length.undefined _ l
  | one _ enc => rw [enc.operandBytes, enc.length]; rfl
  | two b1 _ enc => rw [(enc b1).operandBytes, (enc b1).length]; rfl
  | word w _ enc => rw [(enc w).operandBytes, (enc w).length]; rfl
  | three b1 b2 _ enc => rw [(enc b1 b2).operandBytes, (enc b1 b2).length]; rfl

theorem decodeOp_operandBytes :
    decodeOp i.opcode ((i.operandBytes l).getD 0 0) ((i.operandBytes l).getD 1 0) = i := by
  cases h with
  | undefined h => exact decodeOp_undefined h _ _
  | one cell => rw [cell]; rfl
  | two b1 cell enc => rw [(enc b1).opcode, (enc b1).operandBytes, cell]; rfl
  | @word f w cell enc =>
    rw [(enc w).opcode, (enc w).operandBytes, cell]
    exact congrArg f (joinBytes_low_high w)
  | three b1 b2 cell enc => rw [(enc b1 b2).opcode, (enc b1 b2).operandBytes, cell]; rfl

theorem decode_encode (rest : List Byte) : decode l (encode l i ++ rest) = .ok (i, rest) := by
  have hlen : (i.operandBytes l).length + 1 = (opLength l i.opcode).toNat := by
    rw [h.opLength_opcode, h.operandBytes_length]
  rw [encode, decode_cons rest hlen, h.decodeOp_operandBytes]

end Format

/-- Settles O1: in each format the opcode's cell makes the instruction of its operand bytes. -/
theorem decodeOfEncodeIsIdentity : Obligations.DecodeOfEncodeIsIdentity :=
  fun l i rest h => (i.format h).decode_encode l rest

/-! ### Encoding what was decoded (O2) -/

theorem Encoded.encode {i : Instr} {op b1 b2 : Byte} {len : InstrLen} {c : Bool}
    (h : Encoded i op len c ([b1, b2].take (len.toNat - 1))) (l : UndefLens) :
    encode l i = [op, b1, b2].take len.toNat := by
  rw [Sys2Proof.encode, h.opcode, h.operandBytes]
  cases len <;> rfl

/-- Settles O2: an undefined opcode decodes to itself, and a defined one as `encoded_decodeOp` says. -/
theorem encodeOfDecodeIsIdentity : Obligations.EncodeOfDecodeIsIdentity := by
  intro l op b1 b2
  rw [← Bool.not_eq_true, List.contains_iff_mem]
  by_cases h : op ∈ undefinedOpcodes
  · rw [decodeOp_undefined h]
    exact ⟨List.contains_iff_mem.2 h, rfl, absurd h, fun _ => rfl⟩
  · obtain ⟨len, c, henc⟩ := encoded_decodeOp h
    have hlen : opLength l op = len := (henc 0 0).length l
    rw [hlen]
    exact ⟨(henc b1 b2).wf, (henc b1 b2).opcode, fun _ => (henc b1 b2).encode l, fun h' => absurd h' h⟩

/-! ### Lengths (O5) -/

theorem InstrLen.toNat_eq_one_add (len : InstrLen) : len.toNat = 1 + (len.toNat - 1) := by
  cases len <;> rfl

theorem length_decodeOp (l : UndefLens) (op b1 b2 : Byte) : (decodeOp op b1 b2).length l = opLength l op := by
  by_cases h : op ∈ undefinedOpcodes
  · rw [opLength, decodeOp_undefined h, decodeOp_undefined h]
  · obtain ⟨len, c, henc⟩ := encoded_decodeOp h
    exact ((henc b1 b2).length l).trans ((henc 0 0).length l).symm

theorem opLength_undefined (l : UndefLens) {op : Byte} (h : op ∈ undefinedOpcodes) : opLength l op = l.length op := by
  rw [opLength, decodeOp_undefined h]; rfl

/-- The UNDEF_LEN that gives the undefined opcodes the lengths of `f`. -/
def undefLensOf (f : Byte → InstrLen) : UndefLens where
  two := undefinedOpcodes.filter (f · = .two)
  three := undefinedOpcodes.filter (f · = .three)

theorem length_undefLensOf (f : Byte → InstrLen) {op : Byte} (h : op ∈ undefinedOpcodes) :
    (undefLensOf f).length op = f op := by
  cases hf : f op <;> simp [UndefLens.length, undefLensOf, h, hf]

/-- Settles O5: all the instructions of an opcode have one length, for a defined opcode whatever UNDEF_LEN. -/
theorem lengthIsReadFromTheFirstByte : Obligations.LengthIsReadFromTheFirstByte := by
  refine ⟨length_decodeOp, fun l l' op h => ?_, fun l op => opLength_undefined l, fun f => ⟨undefLensOf f, fun op h => ?_⟩⟩
  · obtain ⟨len, c, henc⟩ := encoded_decodeOp h
    exact ((henc 0 0).length l).trans ((henc 0 0).length l').symm
  · rw [opLength_undefined _ h, length_undefLensOf f h]

end Sys2Proof

namespace Sys2Proof.Machine

/-! ### Legality and the undefined instruction (O4) -/

theorem isCmos_iff (b : Behaviour) : b.isCmos = true ↔ b = .cmos6502 ∨ b = .cmos65816 := by
  cases b <;> simp [Behaviour.isCmos]

/-- The 256 opcodes in order. -/
def allOpcodes : List Byte := (List.range 256).map (BitVec.ofNat 8)

theorem mem_allOpcodes (op : Byte) : op ∈ allOpcodes :=
  List.mem_map.2 ⟨op.toNat, List.mem_range.2 op.isLt, BitVec.ofNat_toNat 8 op⟩

/-- Whether CMOS alone defines an opcode (30_encoding.md R142). -/
def cmosOnlyOpcode (op : Byte) : Bool :=
  (decodeOp op 0 0).defined .cmos6502 && !(decodeOp op 0 0).defined .nmos6502

theorem defined_decodeOp_iff (b : Behaviour) (op b1 b2 : Byte) :
    (decodeOp op b1 b2).defined b = true ↔ op ∉ undefinedOpcodes ∧ (cmosOnlyOpcode op = true → b.isCmos = true) := by
  by_cases h : op ∈ undefinedOpcodes
  · simp [decodeOp_undefined h, h, Instr.defined]
  · obtain ⟨len, c, henc⟩ := encoded_decodeOp h
    have hc : cmosOnlyOpcode op = c := by
      rw [cmosOnlyOpcode, (henc 0 0).defined, (henc 0 0).defined]
      cases c <;> rfl
    rw [(henc b1 b2).defined, hc]
    cases c <;> simp [h]

/-- An instruction undefined under the behaviour only traps (44_flags_misc.md R408): it is the undefined one or has a form that is CMOS only;
every other form is defined. -/
theorem exec_undefined {i : Instr} {s : State} (h : i.defined s.behaviour = false) : exec i s = .next (illegal s) := by
  cases i with
  | undefined op => rfl
  | lda m | sta m | adc m | sbc m | and m | ora m | eor m | cmp m | bit m | inc m | dec m | jmp m | stz m | tsb m | trb m
  | phx | phy | plx | ply | bra off | rmb0 zp | rmb1 zp | rmb2 zp | rmb3 zp | rmb4 zp | rmb5 zp | rmb6 zp | rmb7 zp
  | smb0 zp | smb1 zp | smb2 zp | smb3 zp | smb4 zp | smb5 zp | smb6 zp | smb7 zp | bbr0 zp off | bbr1 zp off
  | bbr2 zp off | bbr3 zp off | bbr4 zp off | bbr5 zp off | bbr6 zp off | bbr7 zp off | bbs0 zp off | bbs1 zp off
  | bbs2 zp off | bbs3 zp off | bbs4 zp off | bbs5 zp off | bbs6 zp off | bbs7 zp off => exact runForm_undefined _ h
  | _ => cases h

/-- Settles O4: the list is that of the opcodes CMOS alone defines, and legality turns on it. -/
theorem undefinedOpcodesOnlyTrap : Obligations.UndefinedOpcodesOnlyTrap := by
  refine ⟨?_, fun b => ?_, fun op b1 b2 => ?_, rfl, fun op b1 b2 h => decodeOp_undefined h b1 b2, fun s i => exec_undefined⟩
  · intro cmosOnly
    refine ⟨rfl, fun b op b1 b2 => ?_⟩
    have hlist : cmosOnly = allOpcodes.filter cmosOnlyOpcode := by decide +kernel
    have hmem : op ∈ cmosOnly ↔ cmosOnlyOpcode op = true := by
      rw [hlist, List.mem_filter, and_iff_right (mem_allOpcodes op)]
    rw [Bool.eq_iff_iff, decide_eq_true_iff, defined_decodeOp_iff, hmem, isCmos_iff]
  · cases b <;> decide +kernel
  · simp only [← Bool.not_eq_true, defined_decodeOp_iff]
    constructor
    · intro h
      by_contra hop
      exact h .cmos6502 ⟨hop, fun _ => rfl⟩
    · exact fun h b hd => hd.1 h

/-! ### Branches on a bit (O51) -/

/-- An instruction whose meaning is a load of `m` and then a change `f` of the CPU has the shape `LoadMeaning`. -/
theorem loadMeaning_of_exec {i : Instr} {s : State} {m : Source} {f : Got Byte → State} {k : State → Byte → State}
    (hi : exec i s = finish (do let v ← load s m; return f v))
    (hf : ∀ v devices draws, f ⟨v, { s with devices := devices, draws := draws }⟩ =
      k { s with devices := devices, draws := draws } v) : LoadMeaning i s m k := by
  refine ⟨fun x hx => ?_, fun r hr => ?_⟩
  · rw [hi, hx]; rfl
  · rw [hi, hr, ← hf, ← (load_rel hr).frame]; rfl

theorem signExtend_toNat (b : Byte) : (b.signExtend 16).toNat = sext16 b := by
  revert b; decide +kernel

theorem relAddress_eq (pc : Word) (off : Byte) : relAddress pc off = BitVec.ofNat 16 (pc.toNat + sext16 off) := by
  rw [relAddress, ← signExtend_toNat, BitVec.ofNat_add, BitVec.ofNat_toNat, BitVec.ofNat_toNat, BitVec.setWidth_eq,
    BitVec.setWidth_eq]

theorem branch_eq (s : State) (cond : Bool) (off : Byte) :
    branch s cond off = if cond = true then { s with pc := BitVec.ofNat 16 (s.pc.toNat + sext16 off) } else s := by
  rw [branch, relAddress_eq]

theorem getLsbD_beq_iff (v : Byte) (n : Nat) (value : Bool) :
    (v.getLsbD n == value) = true ↔ v.toNat / 2 ^ n % 2 = value.toNat := by
  rw [BitVec.getLsbD, Nat.testBit_eq_decide_div_mod_eq]
  cases value <;> simp

theorem branchOnBit_meaning {i : Instr} {s : State} {n : Nat} {value : Bool} {zp off : Byte}
    (h : s.behaviour.isCmos = true) (hi : exec i s = branchOnBit n value zp off s) :
    LoadMeaning i s (.mem (.zpg zp)) fun t v =>
      if v.toNat / 2 ^ n % 2 = value.toNat then { t with pc := BitVec.ofNat 16 (s.pc.toNat + sext16 off) } else t := by
  refine loadMeaning_of_exec (hi.trans (runForm_defined _ h)) fun v devices draws => ?_
  simp only [branch_eq, getLsbD_beq_iff]

/-- Settles O51: all sixteen are `branchOnBit`. -/
theorem branchOnBitInstructions : Obligations.BranchOnBitInstructions := by
  refine ⟨fun _ _ => rfl, fun _ _ => rfl, fun _ _ => rfl, fun _ _ => rfl, fun _ _ => rfl, fun _ _ => rfl, fun _ _ => rfl,
    fun _ _ => rfl, fun _ _ => rfl, fun _ _ => rfl, fun _ _ => rfl, fun _ _ => rfl, fun _ _ => rfl, fun _ _ => rfl,
    fun _ _ => rfl, fun _ _ => rfl, fun s zp off h => ?_⟩
  have hm {i n value} := branchOnBit_meaning (i := i) (n := n) (value := value) (zp := zp) (off := off) h
  exact ⟨hm rfl, hm rfl, hm rfl, hm rfl, hm rfl, hm rfl, hm rfl, hm rfl, hm rfl, hm rfl, hm rfl, hm rfl, hm rfl, hm rfl,
    hm rfl, hm rfl⟩

/-! ### Words of each family (O3) -/

/-- Settles O3, by evaluating the decoder. -/
theorem wordsOfEachFamilyDecode : Obligations.WordsOfEachFamilyDecode :=
  ⟨rfl, rfl, rfl, rfl, rfl, rfl, rfl, rfl, rfl, rfl, rfl, rfl, rfl, rfl, rfl⟩

/-! ### The direct modes (O27) -/

theorem joinBytes_eq_ofNat (lo hi : Byte) : joinBytes lo hi = BitVec.ofNat 16 (hi.toNat * 0x100 + lo.toNat) := by
  rw [← joinBytes_toNat, BitVec.ofNat_toNat, BitVec.setWidth_eq]

theorem joinBytes_add_setWidth (lo hi r : Byte) :
    joinBytes lo hi + r.setWidth 16 = BitVec.ofNat 16 (hi.toNat * 0x100 + lo.toNat + r.toNat) := by
  rw [ofNat_pair, BitVec.ofNat_toNat]

theorem setWidth_add_eq_zeroPage (b r : Byte) : (b + r).setWidth 16 = zeroPage (b.toNat + r.toNat) :=
  setWidth_eq_zeroPage (BitVec.toNat_add b r).symm

/-- Settles O27: the zero-page modes wrap in page zero, the absolute ones in 16 bits. -/
theorem directEffectiveAddresses : Obligations.DirectEffectiveAddresses := by
  intro s b1 b2
  simp only [ea, setWidth_add_eq_zeroPage, joinBytes_add_setWidth, ← joinBytes_eq_ofNat, BitVec.ofNat_toNat, zeroPage,
    and_self]

/-! ### A step (O6) -/

section Running
variable {s : State} (h : s.phase = .running)
include h

theorem step_of_running : step s = stepRunning { s with opTrap := false } := by rw [step, h]

theorem step_nmi (hk : stepKind s = .nmi) : step s = finish (enterInterrupt { s with opTrap := false } .nmi) := by
  have hk' : stepKind { s with opTrap := false } = .nmi := hk
  rw [step_of_running h, stepRunning, hk']

theorem step_irq (hk : stepKind s = .irq) : step s = finish (enterInterrupt { s with opTrap := false } .irq) := by
  have hk' : stepKind { s with opTrap := false } = .irq := hk
  rw [step_of_running h, stepRunning, hk']

theorem step_of_fetch {f : Got Instr} (hk : stepKind s = .instr) (hf : fetch { s with opTrap := false } = .ok f) :
    step s = exec f.val f.st := by
  have hk' : stepKind { s with opTrap := false } = .instr := hk
  simp only [step_of_running h, stepRunning, hk', hf]

theorem step_of_fetch_error {x : Fault} (hk : stepKind s = .instr) (hf : fetch { s with opTrap := false } = .error x) :
    step s = .fault x := by
  have hk' : stepKind { s with opTrap := false } = .instr := hk
  simp only [step_of_running h, stepRunning, hk', hf]

end Running

theorem stepKind_nmi {s : State} (h : s.nmiPending = true) : stepKind s = .nmi := by
  rw [stepKind, if_pos h]

theorem stepKind_irq {s : State} (hn : s.nmiPending = false) (hi : s.irqPending = true) (hf : s.flags.i = false) :
    stepKind s = .irq := by
  simp [stepKind, hn, hi, hf]

theorem stepKind_instr {s : State} (hn : s.nmiPending = false) (h : s.irqPending = false ∨ s.flags.i = true) :
    stepKind s = .instr := by
  rcases h with h | h <;> simp [stepKind, hn, h]

theorem fetchByte_memory {s : State} (h : s.isMemory s.pc = true) :
    fetchByte s = .ok { val := s.memByte s.pc, st := { s with pc := s.pc + 1 } } := by
  rw [fetchByte, read8_memory h]; rfl

theorem fetchOpcode_memory {s : State} (h : s.isMemory s.pc = true) :
    fetchOpcode s =
      .ok { val := s.memByte s.pc, st := { s with instAddr := s.pc, ir := s.memByte s.pc, pc := s.pc + 1 } } := by
  rw [fetchOpcode, fetchByte_memory (s := { s with instAddr := s.pc }) h]; rfl

/-- The operand bytes an instruction of a given length has when `b1` and `b2` follow its opcode; one past the length is 0. -/
def operandsOf (b1 b2 : Byte) : InstrLen → OperandBytes
  | .one => { b1 := 0, b2 := 0 }
  | .two => { b1 := b1, b2 := 0 }
  | .three => { b1 := b1, b2 := b2 }

theorem fetchOperands_memory {s : State} (len : InstrLen)
    (h : ∀ k < len.toNat - 1, s.isMemory (s.pc + BitVec.ofNat 16 k) = true) :
    fetchOperands s len =
      .ok { val := operandsOf (s.memByte s.pc) (s.memByte (s.pc + 1)) len
            st := { s with pc := s.pc + BitVec.ofNat 16 (len.toNat - 1) } } := by
  cases len with
  | one => simp [fetchOperands, operandsOf, InstrLen.toNat]
  | two =>
    have h0 : s.isMemory s.pc = true := by simpa using h 0 (by decide)
    rw [fetchOperands, fetchByte_memory h0]; rfl
  | three =>
    have h0 : s.isMemory s.pc = true := by simpa using h 0 (by decide)
    have hb2 := fetchByte_memory (s := { s with pc := s.pc + 1 }) (h 1 (by decide))
    rw [show s.pc + 1 + 1 = s.pc + 2 from BitVec.add_assoc ..] at hb2
    rw [fetchOperands, fetchByte_memory h0]
    exact bind_eq_ok.2 ⟨_, rfl, bind_eq_ok.2 ⟨_, hb2, rfl⟩⟩

/-- Three bytes hold an instruction, made of as many of them as LEN of the first says. -/
theorem eq_decodeOp_of_decode {l : UndefLens} {op b1 b2 : Byte} {i : Instr} {rest : List Byte}
    (h : decode l [op, b1, b2] = .ok (i, rest)) :
    i = decodeOp op (operandsOf b1 b2 (opLength l op)).b1 (operandsOf b1 b2 (opLength l op)).b2 := by
  cases hl : opLength l op <;> simp only [decode, hl, Except.ok.injEq, Prod.mk.injEq] at h <;> exact h.1.symm

/-- An instruction whose bytes lie in memory is fetched as it is decoded, and PC is then past it (30_encoding.md R122, R123). -/
theorem fetch_memory {s : State} {i : Instr} {rest : List Byte}
    (hd : decode s.undefLens [s.memByte s.pc, s.memByte (s.pc + 1), s.memByte (s.pc + 2)] = .ok (i, rest))
    (hm : ∀ k < (i.length s.undefLens).toNat, s.isMemory (s.pc + BitVec.ofNat 16 k) = true) :
    fetch s = .ok
      { val := i
        st := { s with instAddr := s.pc, ir := s.memByte s.pc,
                       pc := s.pc + BitVec.ofNat 16 (i.length s.undefLens).toNat } } := by
  have hpc : ∀ k, s.pc + BitVec.ofNat 16 (1 + k) = s.pc + 1 + BitVec.ofNat 16 k := fun k => by
    rw [BitVec.ofNat_add, BitVec.add_assoc]; rfl
  rw [show s.pc + 2 = s.pc + 1 + 1 from hpc 1] at hd
  obtain rfl := eq_decodeOp_of_decode hd
  rw [length_decodeOp] at hm ⊢
  have hlen := InstrLen.toNat_eq_one_add (opLength s.undefLens (s.memByte s.pc))
  have hop := fetchOpcode_memory (s := s) (by simpa using hm 0 (by omega))
  have hoperands := fetchOperands_memory (s := { s with instAddr := s.pc, ir := s.memByte s.pc, pc := s.pc + 1 })
    (opLength s.undefLens (s.memByte s.pc)) (fun k hk => by rw [← hpc]; exact hm (1 + k) (by omega))
  rw [hlen, hpc]
  exact bind_eq_ok.2 ⟨_, hop, bind_eq_ok.2 ⟨_, hoperands, rfl⟩⟩

/-- Settles O6: the kind of the step is what the latches say, and code in memory is fetched as it is decoded. -/
theorem stepRunsDecodedInstruction : Obligations.StepRunsDecodedInstruction := by
  refine fun s h => ⟨fun hn => step_nmi h (stepKind_nmi hn), fun hn hi hf => step_irq h (stepKind_irq hn hi hf),
    fun hn hi => ?_⟩
  have hk := stepKind_instr hn hi
  exact ⟨fun i rest hd hm => step_of_fetch h hk (fetch_memory hd hm), fun f => step_of_fetch h hk,
    fun x => step_of_fetch_error h hk⟩

end Sys2Proof.Machine
end

section
/-! The statements of 40_load_store_transfer.md: loads (R200 to R202), stores (R203 to R206), transfers (R207 to R212), pushes (R213, R214,
R217, R218) and pulls (R215, R216, R219, R220). -/

namespace Sys2Proof.Machine

/-! ### Loads (O33) -/

theorem loadA_eq (s : State) (v : Byte) : s.loadA v = { s with a := v, flags := nzOf s.flags v } := by
  rw [State.loadA, Flags.setNZ_eq]

theorem loadX_eq (s : State) (v : Byte) : s.loadX v = { s with x := v, flags := nzOf s.flags v } := by
  rw [State.loadX, Flags.setNZ_eq]

theorem loadY_eq (s : State) (v : Byte) : s.loadY v = { s with y := v, flags := nzOf s.flags v } := by
  rw [State.loadY, Flags.setNZ_eq]

/-- Settles O33: each is a load of its operand, after which `loadA`, `loadX` or `loadY` takes the byte. -/
theorem loadInstructions : Obligations.LoadInstructions := by
  refine ⟨fun _ _ => rfl, fun _ _ => rfl, fun _ _ => rfl, fun _ _ => rfl, fun _ _ => rfl, fun _ _ => rfl, fun _ _ => rfl,
    fun _ _ => rfl, fun _ _ => rfl, fun _ _ => rfl, fun _ _ => rfl, fun _ _ => rfl, fun _ _ => rfl, fun _ _ => rfl,
    fun _ _ => rfl, fun _ _ => rfl, fun _ _ => rfl, fun _ _ => rfl, fun _ _ => rfl,
    fun s => ⟨fun m h => ?_, fun m => ?_, fun m => ?_⟩⟩
  · exact loadMeaning_of_exec (runForm_defined _ h) fun v _ _ => loadA_eq _ v
  · exact loadMeaning_of_exec (runForm_always s _) fun v _ _ => loadX_eq _ v
  · exact loadMeaning_of_exec (runForm_always s _) fun v _ _ => loadY_eq _ v

/-! ### Stores (O34) -/

/-- What a write after reads leaves. -/
theorem write8_after_reads {s u t : State} {a : Word} {v : Byte} (hu : ReadRel s u) (h : write8 u a v = .ok t)
    (hs : s.mem.wf = true) :
    t = { s with devices := t.devices, mem := t.mem, irqPending := t.irqPending, draws := t.draws } ∧ Stored s t a v := by
  have hflags : u.flags = s.flags := by rw [hu.frame]
  have hafter := write8_after hu u.flags h hs
  rw [hflags] at hafter
  exact hafter

/-- An instruction whose meaning is a store has the shape `StoreMeaning`: computing the address keeps the platform, so the write completes
where it would have before. -/
theorem storeMeaning_of_exec {i : Instr} {s : State} {m : MemOperand} {v : Byte} (hs : s.mem.wf = true)
    (hi : exec i s = finish (store s m v)) : StoreMeaning i s m v := by
  refine ⟨fun f hf => ?_, fun e he => ⟨fun f hf => ?_, fun hw => ?_⟩⟩
  · rw [hi, store, hf]; rfl
  · rw [hi, store_of_ea he, hf]; rfl
  · have hw' : e.st.writable e.val = true := ((ea_rel he).platform.writable e.val).trans hw
    obtain ⟨t, ht⟩ := (write8_completes_iff e.st e.val v).2 hw'
    exact ⟨t, by rw [hi, store_of_ea he, ht]; rfl, ht, write8_after_reads (ea_rel he) ht hs⟩

/-- Settles O34: each is a store of its register, or of zero. -/
theorem storeInstructions : Obligations.StoreInstructions := by
  refine ⟨fun _ _ => rfl, fun _ _ => rfl, fun _ _ => rfl, fun _ _ => rfl, fun _ _ => rfl, fun _ _ => rfl, fun _ _ => rfl,
    fun _ _ => rfl, fun _ _ => rfl, fun _ _ => rfl, fun _ _ => rfl, fun _ _ => rfl, fun _ _ => rfl, fun _ _ => rfl,
    fun _ _ => rfl, fun _ _ => rfl, fun _ _ => rfl, fun _ _ => rfl,
    fun s hs => ⟨fun m h => ?_, fun m => ?_, fun m => ?_, fun m h => ?_⟩⟩
  · exact storeMeaning_of_exec hs (runForm_defined _ h)
  · exact storeMeaning_of_exec hs (runForm_always s _)
  · exact storeMeaning_of_exec hs (runForm_always s _)
  · exact storeMeaning_of_exec hs (runForm_defined _ h)

/-! ### Transfers (O35) -/

/-- Settles O35: a transfer that sets flags takes the byte as a load does. -/
theorem transferInstructions : Obligations.TransferInstructions := by
  refine ⟨fun _ _ => rfl, fun _ _ => rfl, fun _ _ => rfl, fun _ _ => rfl, fun _ _ => rfl, fun _ _ => rfl, fun s => ?_⟩
  rw [← loadX_eq s s.a, ← loadY_eq s s.a, ← loadA_eq s s.x, ← loadA_eq s s.y, ← loadX_eq s s.sp]
  exact ⟨rfl, rfl, rfl, rfl, rfl, rfl⟩

/-! ### Pushes (O36) -/

/-- An instruction whose meaning is a push has the shape `PushMeaning`. -/
theorem pushMeaning_of_exec {i : Instr} {s : State} {v : Byte} (hs : s.mem.wf = true)
    (hi : exec i s = finish (push s v)) : PushMeaning i s v := by
  refine ⟨fun f hf => ?_, fun hw => ?_⟩
  · rw [hi, push_error hf]; rfl
  · obtain ⟨u, hu⟩ := (write8_completes_iff s (stackAddr s.sp) v).2 hw
    obtain ⟨hframe, hother, hself⟩ := write8_after_reads (.refl s) hu hs
    exact ⟨{ u with sp := s.sp - 1 }, by rw [hi, push_ok hu]; rfl, ⟨u, hu, rfl⟩, by rw [hframe], hother, hself⟩

/-- The byte PHP pushes: the status byte with B set, whatever the live B (40_load_store_transfer.md R214). -/
theorem pack_or_bit4 (f : Flags) : f.pack ||| 0x10 = { f with b := true }.pack := by
  obtain ⟨c, z, i, d, b, v, n⟩ := f
  revert c z i d b v n
  decide

theorem pack_or_bit4_eq_ofNat (f : Flags) :
    f.pack ||| 0x10 = BitVec.ofNat 8 (128 * f.n.toNat + 64 * f.v.toNat + 0x30 + 8 * f.d.toNat + 4 * f.i.toNat +
      2 * f.z.toNat + f.c.toNat) := by
  have hbits : { f with b := true }.pack.toNat = 128 * f.n.toNat + 64 * f.v.toNat + 0x30 + 8 * f.d.toNat +
      4 * f.i.toNat + 2 * f.z.toNat + f.c.toNat := by
    rw [Flags.pack, byteOfBits_toNat, Bool.toNat_true]
  rw [pack_or_bit4, ← hbits, BitVec.ofNat_toNat, BitVec.setWidth_eq]

/-- Settles O36: each is a push of its register, PHP of the status byte with bits 4 and 5 set. -/
theorem pushInstructions : Obligations.PushInstructions := by
  refine ⟨fun _ _ => rfl, fun _ _ => rfl, fun _ _ => rfl, fun _ _ => rfl, fun s hs => ⟨?_, ?_, fun h => ⟨?_, ?_⟩⟩⟩
  · exact pushMeaning_of_exec hs (runForm_always s _)
  · rw [← pack_or_bit4_eq_ofNat]
    exact pushMeaning_of_exec hs (runForm_always s _)
  · exact pushMeaning_of_exec hs (runForm_defined _ h)
  · exact pushMeaning_of_exec hs (runForm_defined _ h)

/-! ### Pulls (O37) -/

/-- An instruction whose meaning is a pull and then a change `f` of the CPU has the shape `PullMeaning`. -/
theorem pullMeaning_of_exec {i : Instr} {s : State} {f : Got Byte → State} {k : State → Byte → State}
    (hi : exec i s = finish (do let v ← pull s; return f v))
    (hf : ∀ v devices draws, f ⟨v, { s with sp := s.sp + 1, devices := devices, draws := draws }⟩ =
      k { s with sp := s.sp + 1, devices := devices, draws := draws } v) : PullMeaning i s k := by
  refine ⟨fun x hx => ?_, fun r hr => ?_⟩
  · rw [hi, pull, hx]; rfl
  · rw [hi, pull, hr, ← hf, ← read8_frame hr]; rfl

/-- Settles O37: each is a pull, after which the register, or for PLP the flags, take the byte. -/
theorem pullInstructions : Obligations.PullInstructions := by
  refine ⟨fun _ _ => rfl, fun _ _ => rfl, fun _ _ => rfl, fun _ _ => rfl, fun s => ⟨?_, ?_, fun h => ⟨?_, ?_⟩⟩⟩
  · exact pullMeaning_of_exec (runForm_always s _) fun v _ _ => loadA_eq _ v
  · exact pullMeaning_of_exec (runForm_always s _) fun v _ _ => rfl
  · exact pullMeaning_of_exec (runForm_defined _ h) fun v _ _ => loadX_eq _ v
  · exact pullMeaning_of_exec (runForm_defined _ h) fun v _ _ => loadY_eq _ v

end Sys2Proof.Machine
end

section
/-! The statements of 41_arithmetic_logic.md: addition and subtraction (R250 to R254), logic (R255 to R257), compare (R258 to R261), bit
test (R262) and register increment (R263 to R266). -/

namespace Sys2Proof.Machine

/-! ### What the computations answer, written out on numbers -/

theorem beq_zero_eq_decide (r : Byte) : (r == 0) = decide (r.toNat = 0) := by
  rw [Bool.eq_iff_iff, beq_iff_eq, decide_eq_true_iff, BitVec.toNat_eq]; rfl

theorem complement_eq_ofNat (v : Byte) : ~~~v = BitVec.ofNat 8 (0xFF - v.toNat) := by
  apply BitVec.eq_of_toNat_eq
  rw [BitVec.toNat_not, BitVec.toNat_ofNat]
  omega

/-- The carry out of bit 7 differs from the carry into it exactly when both addends have the same bit 7 and the sum has the other
(41_arithmetic_logic.md R251). -/
theorem carries_differ_iff {a m c : Nat} (ha : a < 0x100) (hm : m < 0x100) (hc : c ≤ 1) :
    ((a + m + c) / 0x100 ^^^ (a % 0x80 + m % 0x80 + c) / 0x80) = 1 ↔
      (0x80 ≤ a ↔ 0x80 ≤ m) ∧ ¬(0x80 ≤ (a + m + c) % 0x100 ↔ 0x80 ≤ a) := by
  have hxor : ∀ x < 2, ∀ y < 2, x ^^^ y = 1 ↔ x ≠ y := by decide
  rw [hxor _ (by omega) _ (by omega)]
  omega

/-- `adcBinary` with its flags as numbers of the sum. -/
theorem adcBinary_eq (f : Flags) (a m : Byte) :
    adcBinary f a m =
      { val := BitVec.ofNat 8 (a.toNat + m.toNat + f.c.toNat)
        flags :=
          { f with
            c := decide (0x100 ≤ a.toNat + m.toNat + f.c.toNat)
            v := decide (a.getLsbD 7 = m.getLsbD 7 ∧
              (BitVec.ofNat 8 (a.toNat + m.toNat + f.c.toNat)).getLsbD 7 ≠ a.getLsbD 7)
            z := decide ((a.toNat + m.toNat + f.c.toNat) % 0x100 = 0)
            n := decide (0x80 ≤ (a.toNat + m.toNat + f.c.toNat) % 0x100) } } := by
  have ha := a.isLt
  have hm := m.isLt
  have hc := f.c.toNat_le
  have hv := carries_differ_iff ha hm hc
  simp only [adcBinary, Flags.setNZ_eq, nzOf, BitVec.toNat_ofNat, getLsbD_seven]
  congr 2
  · rw [Bool.eq_iff_iff, beq_iff_eq, decide_eq_true_iff]; omega
  · rw [Bool.eq_iff_iff, beq_iff_eq, decide_eq_true_iff, hv, decide_eq_decide, ne_eq, decide_eq_decide]

/-! ### Addition and subtraction with D clear (O38) -/

section ByDecimalFlag
variable {f : Flags} (a m : Byte)

theorem adc_of_binary (h : f.d = false) : adc f a m = adcBinary f a m := by
  rw [adc, h, if_neg Bool.false_ne_true]

theorem adc_of_decimal (h : f.d = true) : adc f a m = adcDecimal f a m := by rw [adc, if_pos h]

theorem sbc_of_binary (h : f.d = false) : sbc f a m = adcBinary f a (~~~m) := by
  rw [sbc, h, if_neg Bool.false_ne_true]

theorem sbc_of_decimal (h : f.d = true) : sbc f a m = sbcDecimal f a m := by rw [sbc, if_pos h]

end ByDecimalFlag

/-- Settles O38: with D clear both are `adcBinary`, SBC's of the operand's complement. -/
theorem addAndSubtractBinary : Obligations.AddAndSubtractBinary := by
  refine fun s m hd => ⟨fun h => ?_, fun h => ?_⟩
  · refine loadMeaning_of_exec (runForm_defined _ h) fun v _ _ => ?_
    rw [adc_of_binary _ _ hd, adcBinary_eq]
  · refine loadMeaning_of_exec (runForm_defined _ h) fun v _ _ => ?_
    rw [sbc_of_binary _ _ hd, adcBinary_eq, complement_eq_ofNat]

/-! ### Addition and subtraction with D set (O39) -/

theorem and_low_nibble (b : Byte) : (b &&& 0x0F).toNat = b.toNat % 0x10 := by
  rw [BitVec.toNat_and]; exact Nat.and_two_pow_sub_one_eq_mod b.toNat 4

theorem shift_high_nibble (b : Byte) : (b >>> 4).toNat = b.toNat / 0x10 := by
  rw [BitVec.toNat_ushiftRight, Nat.shiftRight_eq_div_pow]

theorem or_nibbles_eq (l h : Nat) : l &&& 0x0F ||| h <<< 4 = l % 0x10 + h * 0x10 := by
  rw [show l &&& 0x0F = l % 2 ^ 4 from Nat.and_two_pow_sub_one_eq_mod l 4, Nat.or_comm,
    ← Nat.shiftLeft_add_eq_or_of_lt (Nat.mod_lt l (by decide)), Nat.shiftLeft_eq, Nat.add_comm]

theorem or_nibbles_eq_ofNat (x y : Byte) :
    x &&& ((0x0F : Nat) : Byte) ||| y <<< 4 = BitVec.ofNat 8 (x.toNat % 0x10 + y.toNat * 0x10) := by
  rw [← or_nibbles_eq, BitVec.ofNat_or, BitVec.ofNat_and, BitVec.ofNat_toNat, BitVec.setWidth_eq]; rfl

/-- The byte whose nibbles are the low nibbles of two integers. -/
theorem ofInt_or_nibbles_eq (l h : Int) :
    BitVec.ofInt 8 l &&& ((0x0F : Nat) : Byte) ||| BitVec.ofInt 8 h <<< 4 =
      BitVec.ofInt 8 (l % 0x10 + h % 0x10 * 0x10) := by
  apply BitVec.eq_of_toNat_eq
  simp only [or_nibbles_eq_ofNat, BitVec.toNat_ofNat, BitVec.toNat_ofInt]
  omega

/-- Settles O39: the model's decimal computations take nibbles by division, the statement by masks and shifts. -/
theorem addAndSubtractDecimal : Obligations.AddAndSubtractDecimal := by
  iterate 18 refine ⟨fun _ _ => rfl, ?_⟩
  refine fun s m => ⟨fun h => ?_, fun h => ?_⟩
  · refine loadMeaning_of_exec (runForm_defined _ h) fun v _ _ => ?_
    cases hd : s.flags.d with
    | false => simp only [adc_of_binary _ _ hd, Bool.false_eq_true, if_false]
    | true =>
      simp only [adc_of_decimal _ _ hd, if_true, adcDecimal, or_nibbles_eq, and_low_nibble, shift_high_nibble,
        beq_zero_eq_decide]
  · refine loadMeaning_of_exec (runForm_defined _ h) fun v _ _ => ?_
    cases hd : s.flags.d with
    | false => simp only [sbc_of_binary _ _ hd, Bool.false_eq_true, if_false]
    | true =>
      simp only [sbc_of_decimal _ _ hd, if_true, sbcDecimal, ofInt_or_nibbles_eq, and_low_nibble, shift_high_nibble,
        beq_zero_eq_decide, decide_eq_true_eq, ← decide_not, Int.not_lt]

/-! ### Decimal arithmetic (O40) -/

/-- R252's adjustment of a sum of two nibbles. -/
def decimalAdjust (n : Nat) : Nat := if n > 9 then n + 6 else n

/-- R254's adjustment of a difference of two nibbles. -/
def decimalBorrow (n : Int) : Int := if decide (n < 0) then n - 6 else n

/-- A sum of two digits and a carry, adjusted, has its decimal digit in the low nibble. -/
theorem decimalAdjust_mod {n : Nat} (h : n ≤ 19) : decimalAdjust n % 0x10 = n % 10 := by
  rw [decimalAdjust]; split <;> omega

/-- The adjusted sum carries into the next nibble exactly when the sum is no digit. -/
theorem decimalAdjust_carry_iff (n : Nat) : decimalAdjust n > 15 ↔ 10 ≤ n := by
  rw [decimalAdjust]; split <;> omega

/-- A difference of two digits and a borrow, adjusted, has its decimal digit in the low nibble. -/
theorem decimalBorrow_mod {n : Int} (h : -10 ≤ n ∧ n ≤ 9) : decimalBorrow n % 0x10 = n % 10 := by
  simp only [decimalBorrow, decide_eq_true_eq]; split <;> omega

/-- The sum of the low nibbles and the carry. -/
def lowSum (f : Flags) (a m : Byte) : Nat := a.toNat % 0x10 + m.toNat % 0x10 + f.c.toNat

/-- The sum of the high nibbles and of the carry out of the low ones. -/
def highSum (f : Flags) (a m : Byte) : Nat :=
  a.toNat / 0x10 + m.toNat / 0x10 + (if decimalAdjust (lowSum f a m) > 15 then 1 else 0)

/-- The difference of the low nibbles and the borrow. -/
def lowDiff (f : Flags) (a m : Byte) : Int :=
  (a.toNat % 0x10 : Nat) - (m.toNat % 0x10 : Nat) - (1 - (f.c.toNat : Int))

/-- The difference of the high nibbles and of the borrow from the low ones. -/
def highDiff (f : Flags) (a m : Byte) : Int :=
  (a.toNat / 0x10 : Nat) - (m.toNat / 0x10 : Nat) - (if decide (lowDiff f a m < 0) then 1 else 0)

theorem adcDecimal_carry (f : Flags) (a m : Byte) :
    (adcDecimal f a m).flags.c = decide (decimalAdjust (highSum f a m) > 15) := rfl

theorem adcDecimal_val (f : Flags) (a m : Byte) :
    (adcDecimal f a m).val =
      BitVec.ofNat 8 (decimalAdjust (lowSum f a m) % 0x10 + decimalAdjust (highSum f a m) * 0x10) := rfl

theorem sbcDecimal_carry (f : Flags) (a m : Byte) :
    (sbcDecimal f a m).flags.c = !decide (highDiff f a m < 0) := rfl

theorem sbcDecimal_val (f : Flags) (a m : Byte) :
    (sbcDecimal f a m).val =
      BitVec.ofInt 8 (decimalBorrow (lowDiff f a m) % 0x10 + decimalBorrow (highDiff f a m) % 0x10 * 0x10) := rfl

section DecimalOperands
variable (f : Flags) {a m : Byte} (ha : IsBcd a) (hm : IsBcd m)
include ha hm

theorem lowSum_le : lowSum f a m ≤ 19 := by
  have hc := f.c.toNat_le
  have halow := ha.1
  have hmlow := hm.1
  rw [lowSum]; omega

theorem highSum_eq : highSum f a m = a.toNat / 0x10 + m.toNat / 0x10 + lowSum f a m / 10 := by
  have hle := lowSum_le f ha hm
  simp only [highSum, decimalAdjust_carry_iff]
  split <;> omega

theorem highSum_le : highSum f a m ≤ 19 := by
  have hlow := lowSum_le f ha hm
  have hahigh := ha.2
  have hmhigh := hm.2
  rw [highSum_eq f ha hm]; omega

theorem lowDiff_bounds : -10 ≤ lowDiff f a m ∧ lowDiff f a m ≤ 9 := by
  have hc := f.c.toNat_le
  have halow := ha.1
  have hmlow := hm.1
  rw [lowDiff]; omega

theorem highDiff_bounds : -10 ≤ highDiff f a m ∧ highDiff f a m ≤ 9 := by
  have hahigh := ha.2
  have hmhigh := hm.2
  rw [highDiff]; omega

/-- Decimal ADC puts the decimal digits of the two sums side by side. -/
theorem adcDecimal_digits : (adcDecimal f a m).val.toNat = lowSum f a m % 10 + highSum f a m % 10 * 0x10 := by
  have hlow := decimalAdjust_mod (lowSum_le f ha hm)
  have hhigh := decimalAdjust_mod (highSum_le f ha hm)
  rw [adcDecimal_val, BitVec.toNat_ofNat]
  omega

/-- Decimal SBC puts the decimal digits of the two differences side by side. -/
theorem sbcDecimal_digits :
    ((sbcDecimal f a m).val.toNat : Int) = lowDiff f a m % 10 + highDiff f a m % 10 * 0x10 := by
  have hlow := decimalBorrow_mod (lowDiff_bounds f ha hm)
  have hhigh := decimalBorrow_mod (highDiff_bounds f ha hm)
  rw [sbcDecimal_val, BitVec.toNat_ofInt]
  omega

/-- The two sums make up the decimal sum. -/
theorem bcdValue_add : bcdValue a + bcdValue m + f.c.toNat = lowSum f a m % 10 + highSum f a m * 10 := by
  have hlow : lowSum f a m = a.toNat % 0x10 + m.toNat % 0x10 + f.c.toNat := rfl
  rw [highSum_eq f ha hm, bcdValue, bcdValue]
  omega

/-- The two differences make up the decimal difference. -/
theorem bcdValue_sub :
    (bcdValue a : Int) - bcdValue m - (1 - (f.c.toNat : Int)) = lowDiff f a m % 10 + highDiff f a m * 10 := by
  have hbounds := lowDiff_bounds f ha hm
  have hlow : lowDiff f a m = (a.toNat % 0x10 : Nat) - (m.toNat % 0x10 : Nat) - (1 - (f.c.toNat : Int)) := rfl
  simp only [highDiff, bcdValue, decide_eq_true_eq]
  omega

end DecimalOperands

/-- Settles O40: digit by digit, the sums and differences have their carry and digit where decimal arithmetic has them. -/
theorem decimalModeIsDecimalArithmetic : Obligations.DecimalModeIsDecimalArithmetic := by
  refine fun f a m ha hm => ⟨?_, ?_⟩
  · have hdigits := adcDecimal_digits f ha hm
    have hle := highSum_le f ha hm
    rw [bcdValue_add f ha hm, adcDecimal_carry, decide_eq_true_iff, decimalAdjust_carry_iff, IsBcd, bcdValue, hdigits]
    omega
  · have hdigits := sbcDecimal_digits f ha hm
    have hbounds := highDiff_bounds f ha hm
    rw [bcdValue_sub f ha hm, sbcDecimal_carry, Bool.not_eq_false', decide_eq_true_iff, IsBcd, bcdValue]
    omega

/-! ### Logic (O41) -/

/-- A byte is the sum of its bits by weight. -/
theorem sum_bits_eq (w : Byte) :
    BitVec.ofNat 8 (((List.range 8).map fun i => (w.getLsbD i).toNat * 2 ^ i).sum) = w := by
  revert w; decide +kernel

/-- Settles O41: each bit of the result is that of the bitwise operation, and `loadA` takes the byte. -/
theorem logicInstructions : Obligations.LogicInstructions := by
  iterate 27 refine ⟨fun _ _ => rfl, ?_⟩
  refine fun s m => ⟨fun h => ?_, fun h => ?_, fun h => ?_⟩
  · refine loadMeaning_of_exec (runForm_defined _ h) fun v _ _ => ?_
    simp only [← BitVec.getLsbD_and, sum_bits_eq, loadA_eq]
  · refine loadMeaning_of_exec (runForm_defined _ h) fun v _ _ => ?_
    simp only [← BitVec.getLsbD_or, sum_bits_eq, loadA_eq]
  · refine loadMeaning_of_exec (runForm_defined _ h) fun v _ _ => ?_
    simp only [← BitVec.getLsbD_xor, sum_bits_eq, loadA_eq]

/-! ### Compare (O42) -/

/-- `compareFlags` with N as a number of the difference. -/
theorem compareFlags_eq (f : Flags) (r m : Byte) :
    compareFlags f r m =
      { f with
        c := decide (m.toNat ≤ r.toNat), z := decide (r = m),
        n := decide (0x80 ≤ (r.toNat + 0x100 - m.toNat) % 0x100) } := by
  have hm := m.isLt
  have hsub : (r - m).toNat = (r.toNat + 0x100 - m.toNat) % 0x100 := by rw [BitVec.toNat_sub]; congr 1; omega
  rw [compareFlags, getLsbD_seven, hsub, beq_eq_decide]

/-- Settles O42: all three are `compareFlags` of their register. -/
theorem compareInstructions : Obligations.CompareInstructions := by
  iterate 15 refine ⟨fun _ _ => rfl, ?_⟩
  refine fun s => ⟨fun m h => ?_, fun m => ?_, fun m => ?_⟩
  · exact loadMeaning_of_exec (runForm_defined _ h) fun v _ _ => by rw [compareFlags_eq]
  · exact loadMeaning_of_exec (runForm_always s _) fun v _ _ => by rw [compareFlags_eq]
  · exact loadMeaning_of_exec (runForm_always s _) fun v _ _ => by rw [compareFlags_eq]

/-! ### Bit test (O43) -/

theorem bitTest_immediate (f : Flags) (a m : Byte) : bitTest f true a m = { f with z := decide (a &&& m = 0) } := by
  rw [bitTest, beq_eq_decide, if_pos rfl]

theorem bitTest_memory (f : Flags) (a m : Byte) :
    bitTest f false a m =
      { f with z := decide (a &&& m = 0), n := decide (0x80 ≤ m.toNat), v := m.getLsbD 6 } := by
  rw [bitTest, beq_eq_decide, getLsbD_seven]; rfl

/-- Settles O43: the immediate form and the others are the two cases of `bitTest`. -/
theorem bitInstruction : Obligations.BitInstruction := by
  iterate 5 refine ⟨fun _ _ => rfl, ?_⟩
  refine fun s m h => loadMeaning_of_exec (runForm_defined _ h) fun v _ _ => ?_
  cases m with
  | imm b1 => simp only [bitImmediate, bitTest_immediate]
  | zpg _ | abs _ | zpx _ | abx _ => simp only [bitImmediate, bitTest_memory]

/-! ### Register increment (O44) -/

theorem add_one_eq_ofNat (r : Byte) : r + 1 = BitVec.ofNat 8 (r.toNat + 1) := by
  rw [BitVec.ofNat_add, BitVec.ofNat_toNat, BitVec.setWidth_eq]; rfl

theorem sub_one_eq_ofNat (r : Byte) : r - 1 = BitVec.ofNat 8 (r.toNat + 0xFF) := by
  rw [BitVec.ofNat_add, BitVec.ofNat_toNat, BitVec.setWidth_eq, BitVec.sub_eq_add_neg]; rfl

/-- Settles O44: `loadX` or `loadY` takes the byte one up or down. -/
theorem registerIncrementInstructions : Obligations.RegisterIncrementInstructions := by
  iterate 4 refine ⟨fun _ _ => rfl, ?_⟩
  intro s
  simp only [← add_one_eq_ofNat, ← sub_one_eq_ofNat, ← loadX_eq, ← loadY_eq]
  exact ⟨rfl, rfl, rfl, rfl⟩

end Sys2Proof.Machine
end

section
/-! The statements of 42_shift_rmw_bit.md: shifts and rotates (R300 to R304), memory increment and decrement (R305, R306) and bit
manipulation (R307 to R310). -/

namespace Sys2Proof.Machine

/-! ### A read-modify-write as an instruction's meaning -/

section ReadModifyWrite
variable {i : Instr} {s : State} {t : Target} {f g : Flags → Byte → AluOut}

/-- An instruction whose meaning is a read-modify-write of A. -/
theorem exec_of_rmw_acc (hfg : ∀ fl v, f fl v = g fl v) (hi : exec i s = finish (rmw s .acc f)) :
    exec i s = .next { s with a := (g s.flags s.a).val, flags := (g s.flags s.a).flags } := by
  rw [hi, ← hfg]; rfl

/-- An instruction whose meaning is a read-modify-write of memory has the shape `RmwMeaning`: the reads keep the platform, so the write
completes where it would have before. -/
theorem rmwMeaning_of_exec {m : MemOperand} (hs : s.mem.wf = true) (ht : t = .mem m) (hfg : ∀ fl v, f fl v = g fl v)
    (hi : exec i s = finish (rmw s t f)) : RmwMeaning i s m g := by
  obtain rfl : f = g := funext₂ hfg
  rw [ht] at hi
  refine ⟨fun x hx => ?_, fun e he => ⟨fun x hx => ?_, fun r hr => ?_⟩⟩
  · rw [hi, rmw, hx]; rfl
  · rw [hi, rmw_error_of_ea he f hx]; rfl
  · have hrmw := rmw_of_ea he f hr
    have hreads : ReadRel s r.st := (ea_rel he).trans (read8_rel hr)
    refine ⟨fun x hx => by rw [hi, hrmw, hx]; rfl, fun hw => ?_⟩
    have hw' : r.st.writable e.val = true := (hreads.platform.writable e.val).trans hw
    obtain ⟨u, hu⟩ := (write8_completes_iff { r.st with flags := (f s.flags r.val).flags } e.val (f s.flags r.val).val).2 hw'
    exact ⟨u, by rw [hi, hrmw, hu]; rfl, hu, write8_after hreads _ hu hs⟩

end ReadModifyWrite

/-! ### Shifts and rotates on numbers -/

theorem getLsbD_zero_eq_decide (v : Byte) : v.getLsbD 0 = decide (v.toNat % 2 = 1) := Nat.testBit_zero _

theorem shiftLeft_one_eq_ofNat (v : Byte) : v <<< 1 = BitVec.ofNat 8 (v.toNat * 2) :=
  congrArg (BitVec.ofNat 8) (Nat.shiftLeft_eq v.toNat 1)

theorem ushiftRight_one_eq_ofNat (v : Byte) : v >>> 1 = BitVec.ofNat 8 (v.toNat / 2) := by
  apply BitVec.eq_of_toNat_eq
  rw [BitVec.toNat_ushiftRight, Nat.shiftRight_eq_div_pow, BitVec.toNat_ofNat]
  omega

/-- The old C enters the vacated bit 0. -/
theorem shiftLeft_one_or_carry_eq_ofNat (v : Byte) (c : Bool) :
    v <<< 1 ||| (BitVec.ofBool c).setWidth 8 = BitVec.ofNat 8 (v.toNat * 2 + c.toNat) := by
  revert v c; decide +kernel

/-- The old C enters the vacated bit 7. -/
theorem ushiftRight_one_or_carry_eq_ofNat (v : Byte) (c : Bool) :
    v >>> 1 ||| (BitVec.ofBool c).setWidth 8 <<< 7 = BitVec.ofNat 8 (v.toNat / 2 + 0x80 * c.toNat) := by
  revert v c; decide +kernel

theorem asl_eq (f : Flags) (v : Byte) :
    asl f v =
      { val := BitVec.ofNat 8 (v.toNat * 2)
        flags := nzOf { f with c := decide (0x80 ≤ v.toNat) } (BitVec.ofNat 8 (v.toNat * 2)) } := by
  rw [asl, shiftLeft_one_eq_ofNat, getLsbD_seven, Flags.setNZ_eq]

theorem lsr_eq (f : Flags) (v : Byte) :
    lsr f v =
      { val := BitVec.ofNat 8 (v.toNat / 2)
        flags := nzOf { f with c := decide (v.toNat % 2 = 1) } (BitVec.ofNat 8 (v.toNat / 2)) } := by
  rw [lsr, ushiftRight_one_eq_ofNat, getLsbD_zero_eq_decide, Flags.setNZ_eq]

theorem rol_eq (f : Flags) (v : Byte) :
    rol f v =
      { val := BitVec.ofNat 8 (v.toNat * 2 + f.c.toNat)
        flags := nzOf { f with c := decide (0x80 ≤ v.toNat) } (BitVec.ofNat 8 (v.toNat * 2 + f.c.toNat)) } := by
  rw [rol, shiftLeft_one_or_carry_eq_ofNat, getLsbD_seven, Flags.setNZ_eq]

theorem rorCorrect_eq (f : Flags) (v : Byte) :
    rorCorrect f v =
      { val := BitVec.ofNat 8 (v.toNat / 2 + 0x80 * f.c.toNat)
        flags :=
          nzOf { f with c := decide (v.toNat % 2 = 1) } (BitVec.ofNat 8 (v.toNat / 2 + 0x80 * f.c.toNat)) } := by
  rw [rorCorrect, ushiftRight_one_or_carry_eq_ofNat, getLsbD_zero_eq_decide, Flags.setNZ_eq]

theorem ror_eq_ite (b : Behaviour) (f : Flags) (v : Byte) :
    ror b f v = if b = .nmosWithRorBug then rorBug f v else rorCorrect f v := by
  cases b <;> rfl

/-! ### ASL, LSR and ROL (O45) -/

/-- Settles O45: each is a read-modify-write of its target with `asl`, `lsr` or `rol`. -/
theorem shiftInstructions : Obligations.ShiftInstructions := by
  iterate 15 refine ⟨fun _ _ => rfl, ?_⟩
  refine fun s hs => ⟨?_, ?_, ?_, fun m o ht => ⟨?_, ?_, ?_⟩⟩
  · exact exec_of_rmw_acc asl_eq rfl
  · exact exec_of_rmw_acc lsr_eq rfl
  · exact exec_of_rmw_acc rol_eq rfl
  · exact rmwMeaning_of_exec hs ht asl_eq (runForm_always s _)
  · exact rmwMeaning_of_exec hs ht lsr_eq (runForm_always s _)
  · exact rmwMeaning_of_exec hs ht rol_eq (runForm_always s _)

/-! ### ROR (O46) -/

/-- Settles O46: a read-modify-write with the variant of `ror` that the behaviour has. -/
theorem rotateRightInstruction : Obligations.RotateRightInstruction := by
  iterate 5 refine ⟨fun _ _ => rfl, ?_⟩
  intro s hs
  simp only [← rorCorrect_eq]
  exact ⟨exec_of_rmw_acc (ror_eq_ite s.behaviour) rfl,
    fun m o ht => rmwMeaning_of_exec hs ht (ror_eq_ite s.behaviour) (runForm_always s _)⟩

/-! ### INC and DEC (O47) -/

theorem inc_eq (f : Flags) (v : Byte) :
    inc f v = { val := BitVec.ofNat 8 (v.toNat + 1), flags := nzOf f (BitVec.ofNat 8 (v.toNat + 1)) } := by
  rw [inc, add_one_eq_ofNat, Flags.setNZ_eq]

theorem dec_eq (f : Flags) (v : Byte) :
    dec f v = { val := BitVec.ofNat 8 (v.toNat + 0xFF), flags := nzOf f (BitVec.ofNat 8 (v.toNat + 0xFF)) } := by
  rw [dec, sub_one_eq_ofNat, Flags.setNZ_eq]

/-- Only INC A and DEC A are forms of CMOS alone (30_encoding.md R142). -/
theorem incCmosOnly_of_target {m : ShiftMode} {o : MemOperand} (h : m.target = .mem o) : m.incCmosOnly = false := by
  cases m with
  | acc => cases h
  | zpg _ | zpx _ | abs _ | abx _ => rfl

/-- Settles O47: the accumulator form runs under CMOS, the memory forms under every behaviour. -/
theorem incrementDecrementInstructions : Obligations.IncrementDecrementInstructions := by
  iterate 10 refine ⟨fun _ _ => rfl, ?_⟩
  refine fun s hs => ⟨fun h => ⟨?_, ?_⟩, fun m o ht => ?_⟩
  · exact exec_of_rmw_acc inc_eq (runForm_defined _ h)
  · exact exec_of_rmw_acc dec_eq (runForm_defined _ h)
  · have hdef : (!m.incCmosOnly || s.behaviour.isCmos) = true := by rw [incCmosOnly_of_target ht]; rfl
    exact ⟨rmwMeaning_of_exec hs ht inc_eq (runForm_defined _ hdef), rmwMeaning_of_exec hs ht dec_eq (runForm_defined _ hdef)⟩

/-! ### Bytes by their bits -/

/-- A byte is the sum by weight of what its bits are known to be. -/
theorem eq_sum_of_bits {w : Byte} {bit : Nat → Bool} (h : ∀ i < 8, w.getLsbD i = bit i) :
    w = BitVec.ofNat 8 (((List.range 8).map fun i => (bit i).toNat * 2 ^ i).sum) := by
  have hmap : (List.range 8).map (fun i => (bit i).toNat * 2 ^ i) =
      (List.range 8).map fun i => (w.getLsbD i).toNat * 2 ^ i :=
    List.map_congr_left fun i hi => by rw [h i (List.mem_range.1 hi)]
  rw [hmap, sum_bits_eq]

theorem getLsbD_one_shiftLeft (n : Nat) {i : Nat} (h : i < 8) : (1#8 <<< n).getLsbD i = decide (i = n) := by
  rw [← BitVec.twoPow_eq, BitVec.getLsbD_twoPow, Bool.eq_iff_iff, Bool.and_eq_true, decide_eq_true_iff, decide_eq_true_iff,
    decide_eq_true_iff]
  omega

/-- Two bytes have no bit in common (42_shift_rmw_bit.md R307). -/
theorem and_beq_zero_eq_all (a v : Byte) :
    (a &&& v == 0) = (List.range 8).all fun i => !(v.getLsbD i && a.getLsbD i) := by
  rw [Bool.eq_iff_iff, beq_iff_eq, BitVec.eq_of_getLsbD_eq_iff, List.all_eq_true]
  simp only [BitVec.ofNat_eq_ofNat, BitVec.getLsbD_and, BitVec.getLsbD_zero, List.mem_range, Bool.not_eq_true', Bool.and_comm]

/-! ### TSB and TRB (O48) -/

theorem tsb_eq (a : Byte) (f : Flags) (v : Byte) :
    tsb a f v =
      { val := BitVec.ofNat 8 (((List.range 8).map fun i => (v.getLsbD i || a.getLsbD i).toNat * 2 ^ i).sum)
        flags := { f with z := (List.range 8).all fun i => !(v.getLsbD i && a.getLsbD i) } } := by
  have hbits : ∀ i < 8, (v ||| a).getLsbD i = (v.getLsbD i || a.getLsbD i) := fun _ _ => BitVec.getLsbD_or
  rw [tsb, and_beq_zero_eq_all, ← eq_sum_of_bits hbits]

theorem trb_eq (a : Byte) (f : Flags) (v : Byte) :
    trb a f v =
      { val := BitVec.ofNat 8 (((List.range 8).map fun i => (v.getLsbD i && !a.getLsbD i).toNat * 2 ^ i).sum)
        flags := { f with z := (List.range 8).all fun i => !(v.getLsbD i && a.getLsbD i) } } := by
  have hbits : ∀ i < 8, (v &&& ~~~a).getLsbD i = (v.getLsbD i && !a.getLsbD i) := fun i hi => by
    rw [BitVec.getLsbD_and, BitVec.getLsbD_not, decide_eq_true hi, Bool.true_and]
  rw [trb, and_beq_zero_eq_all, ← eq_sum_of_bits hbits]

/-- Settles O48: each is a read-modify-write with `tsb` or `trb` of A. -/
theorem testAndSetResetBits : Obligations.TestAndSetResetBits := by
  iterate 4 refine ⟨fun _ _ => rfl, ?_⟩
  exact fun s hs h m => ⟨rmwMeaning_of_exec hs rfl (tsb_eq s.a) (runForm_defined _ h),
    rmwMeaning_of_exec hs rfl (trb_eq s.a) (runForm_defined _ h)⟩

/-! ### RMB and SMB (O49) -/

theorem rmb_eq (n : Nat) (f : Flags) (v : Byte) :
    rmb n f v =
      { val := BitVec.ofNat 8 (((List.range 8).map fun i => (if i = n then false else v.getLsbD i).toNat * 2 ^ i).sum)
        flags := f } := by
  have hbits : ∀ i < 8, (v &&& ~~~(1#8 <<< n)).getLsbD i = if i = n then false else v.getLsbD i := fun i hi => by
    rw [BitVec.getLsbD_and, BitVec.getLsbD_not, getLsbD_one_shiftLeft n hi, decide_eq_true hi]
    by_cases hn : i = n <;> simp [hn]
  rw [rmb, ← eq_sum_of_bits hbits]

theorem smb_eq (n : Nat) (f : Flags) (v : Byte) :
    smb n f v =
      { val := BitVec.ofNat 8 (((List.range 8).map fun i => (if i = n then true else v.getLsbD i).toNat * 2 ^ i).sum)
        flags := f } := by
  have hbits : ∀ i < 8, (v ||| 1#8 <<< n).getLsbD i = if i = n then true else v.getLsbD i := fun i hi => by
    rw [BitVec.getLsbD_or, getLsbD_one_shiftLeft n hi]
    by_cases hn : i = n <;> simp [hn]
  rw [smb, ← eq_sum_of_bits hbits]

/-- Settles O49: all sixteen are a read-modify-write of the zero-page byte with `rmb` or `smb` of their bit. -/
theorem resetAndSetMemoryBits : Obligations.ResetAndSetMemoryBits := by
  iterate 16 refine ⟨fun _ _ => rfl, ?_⟩
  intro s zp hs h
  have hr {i n} (hi : exec i s = rmbZeroPage n zp s) := rmwMeaning_of_exec hs rfl (rmb_eq n) (hi.trans (runForm_defined _ h))
  have hm {i n} (hi : exec i s = smbZeroPage n zp s) := rmwMeaning_of_exec hs rfl (smb_eq n) (hi.trans (runForm_defined _ h))
  exact ⟨hr rfl, hm rfl, hr rfl, hm rfl, hr rfl, hm rfl, hr rfl, hm rfl, hr rfl, hm rfl, hr rfl, hm rfl, hr rfl, hm rfl,
    hr rfl, hm rfl⟩

end Sys2Proof.Machine
end

section
/-! The statements of 43_control_flow.md: branches (R350 to R359), jumps (R362 to R364), subroutines (R365, R366), BRK (R367)
and RTI (R368). -/

namespace Sys2Proof.Machine

/-! ### Branches (O50) -/

theorem branch_not_eq (s : State) (c : Bool) (off : Byte) :
    branch s (!c) off = if c = false then { s with pc := BitVec.ofNat 16 (s.pc.toNat + sext16 off) } else s := by
  simp only [branch_eq, Bool.not_eq_true']

/-- Settles O50: each is a branch on its flag or on the flag's complement, and BRA one that is always taken. -/
theorem branchInstructions : Obligations.BranchInstructions := by
  iterate 9 refine ⟨fun _ _ => rfl, ?_⟩
  intro s off taken
  have hset {i c} (hi : exec i s = .next (branch s c off)) : exec i s = .next (if c = true then taken else s) := by
    rw [hi, branch_eq]
  have hclear {i c} (hi : exec i s = .next (branch s (!c) off)) : exec i s = .next (if c = false then taken else s) := by
    rw [hi, branch_not_eq]
  exact ⟨hclear rfl, hset rfl, hset rfl, hclear rfl, hset rfl, hclear rfl, hclear rfl, hset rfl,
    fun h => hset (c := true) (runForm_defined _ h)⟩

/-! ### An outcome access by access -/

/-- An outcome that starts with an access: the access's fault is the outcome's, and else the outcome is that of the rest, of which `P` is
shown. Applied once per access, it gives a meaning in every outcome. -/
theorem access_meaning {α : Type} {o : Host.Outcome State Fault Refusal} {e : Except Fault α} {k : α → Except Fault State}
    {P : α → Prop} (ho : o = finish (e >>= k)) (hk : ∀ a, e = .ok a → o = finish (k a) → P a) :
    (∀ f, e = .error f → o = .fault f) ∧ ∀ a, e = .ok a → P a := by
  subst ho
  refine ⟨fun f he => ?_, fun a he => hk a he ?_⟩ <;> rw [he] <;> rfl

/-! ### Jumps (O52) -/

/-- A jump through a pointer whose low byte lies at `p` and whose high byte lies at `q`, in every outcome (43_control_flow.md R363, R364). -/
def JumpsVia (s : State) (i : Instr) (p q : Word) : Prop :=
  (∀ f, read8 s p = .error f → exec i s = .fault f) ∧
  ∀ lo, read8 s p = .ok lo →
    (∀ f, read8 lo.st q = .error f → exec i s = .fault f) ∧
    ∀ hi, read8 lo.st q = .ok hi →
      exec i s = .next
        { s with pc := BitVec.ofNat 16 (hi.val.toNat * 0x100 + lo.val.toNat), devices := hi.st.devices, draws := hi.st.draws }

theorem jumpsVia_of_readPair {s : State} {m : JmpMode} {p q : Word} (hm : (!m.cmosOnly || s.behaviour.isCmos) = true)
    (ht : jmpTarget s m = readPair s p q 0) : JumpsVia s (.jmp m) p q := by
  have ho : exec (.jmp m) s = finish (do let t ← jmpTarget s m; return { t.st with pc := t.val }) := runForm_defined _ hm
  simp only [ht, readPair, bind_assoc, pure_bind, Nat.add_zero] at ho
  refine access_meaning ho fun lo hl ho => access_meaning ho fun r hr ho => ?_
  have hframe := ((read8_rel hl).trans (read8_rel hr)).frame
  rw [ho, hframe]
  rfl

theorem jmpBug_iff (b : Behaviour) :
    jmpBug b = true ↔ b ∈ [Behaviour.nmos6502, .nmosWithRorBug, .nmosWithIndirectJmpBug] := by
  cases b <;> decide

theorem lowByte_beq_iff (w : Word) (v : Byte) : (lowByte w == v) = true ↔ w.toNat % 0x100 = v.toNat := by
  rw [beq_iff_eq, BitVec.toNat_eq, lowByte_toNat]

theorem word_add_one_eq_ofNat (w : Word) : w + 1 = BitVec.ofNat 16 (w.toNat + 1) := by bv_omega

/-- Where the high byte of the target lies, written out (43_control_flow.md R363). -/
theorem jmpHighAddr_eq (b : Behaviour) (p : Word) :
    jmpHighAddr b p =
      if b ∈ [Behaviour.nmos6502, .nmosWithRorBug, .nmosWithIndirectJmpBug] ∧ p.toNat % 0x100 = 0xFF then
        BitVec.ofNat 16 (p.toNat / 0x100 * 0x100)
      else BitVec.ofNat 16 (p.toNat + 1) := by
  have hpage : joinBytes 0x00 (highByte p) = BitVec.ofNat 16 (p.toNat / 0x100 * 0x100) := by
    simp [joinBytes_eq_ofNat, highByte_toNat]
  simp only [jmpHighAddr, Bool.and_eq_true, jmpBug_iff, lowByte_beq_iff, hpage, word_add_one_eq_ofNat]
  rfl

theorem jmpTarget_ind (s : State) (p : Word) : jmpTarget s (.ind p) = readPair s p (jmpHighAddr s.behaviour p) 0 := by
  simp only [jmpTarget, readPair_eq, BitVec.add_zero]

theorem jmpTarget_aix (s : State) (w : Word) :
    jmpTarget s (.aix w) =
      readPair s (BitVec.ofNat 16 (w.toNat + s.x.toNat)) (BitVec.ofNat 16 (w.toNat + s.x.toNat + 1)) 0 := by
  have hp : w + s.x.setWidth 16 = BitVec.ofNat 16 (w.toNat + s.x.toNat) := by bv_omega
  have hq : BitVec.ofNat 16 ((w + s.x.setWidth 16).toNat + 1) = BitVec.ofNat 16 (w.toNat + s.x.toNat + 1) := by bv_omega
  rw [jmpTarget, read16_eq_readPair, hq, hp]

/-- Settles O52: both indirect forms jump through a pair of reads. -/
theorem jumpInstruction : Obligations.JumpInstruction := by
  refine ⟨fun _ _ => rfl, fun _ _ => rfl, fun _ _ => rfl, fun s w => ⟨rfl, ?_, fun h => ?_⟩⟩
  · rw [← jmpHighAddr_eq]
    exact jumpsVia_of_readPair rfl (jmpTarget_ind s w)
  · exact jumpsVia_of_readPair h (jmpTarget_aix s w)

/-! ### Subroutines (O53) -/

theorem exec_jsr (s : State) (w : Word) :
    exec (.jsr w) s = finish (do
      let s1 ← push s (highByte (s.pc - 1))
      let s2 ← push s1 (lowByte (s.pc - 1))
      return { s2 with pc := w }) := by
  rw [← bind_assoc]; rfl

theorem exec_rts (s : State) :
    exec .rts s = finish (do
      let lo ← pull s
      let hi ← pull lo.st
      return { hi.st with pc := BitVec.ofNat 16 (hi.val.toNat * 0x100 + lo.val.toNat + 1) }) := by
  show finish (pull16 s >>= _) = _
  simp only [pull16, bind_assoc, pure_bind, ofNat_pair, BitVec.ofNat_eq_ofNat]

/-- The state after a JSR with the stack in RAM. -/
def calledState (s : State) (w : Word) : State :=
  { s with
    pc := w, sp := s.sp - 2,
    mem := (s.mem.write (stackAddr s.sp).toNat (highByte (s.pc - 1))).write (stackAddr (s.sp - 1)).toNat
      (lowByte (s.pc - 1)) }

theorem exec_jsr_ram {s : State} (w : Word) (h : s.isRam (stackAddr s.sp) = true)
    (h' : s.isRam (stackAddr (s.sp - 1)) = true) : exec (.jsr w) s = .next (calledState s w) := by
  show finish (push16 s (s.pc - 1) >>= _) = _
  rw [push16_ram _ h h']; rfl

theorem exec_rts_memory {s : State} (h : s.isMemory (stackAddr (s.sp + 1)) = true)
    (h' : s.isMemory (stackAddr (s.sp + 2)) = true) :
    exec .rts s = .next
      { s with
        sp := s.sp + 2,
        pc := joinBytes (s.memByte (stackAddr (s.sp + 1))) (s.memByte (stackAddr (s.sp + 2))) + 1 } := by
  show finish (pull16 s >>= _) = _
  rw [pull16_memory h h']; rfl

/-- Settles O53: JSR is two pushes and RTS two pulls, each access with its fault. -/
theorem subroutineInstructions : Obligations.SubroutineInstructions := by
  refine ⟨fun _ _ => rfl, fun _ _ => rfl, fun s w => ?_⟩
  obtain ⟨hjsrFault, hjsr⟩ := access_meaning (exec_jsr s w) fun s1 _ ho => access_meaning ho fun s2 _ ho => ho
  obtain ⟨hrtsFault, hrts⟩ := access_meaning (exec_rts s) fun lo _ ho => access_meaning ho fun hi _ ho => ho
  exact ⟨hjsrFault, hjsr, exec_jsr_ram w, hrtsFault, hrts, exec_rts_memory⟩

/-! ### BRK (O54) -/

theorem push_frame {s t : State} {v : Byte} (h : push s v = .ok t) :
    t = { s with sp := s.sp - 1, devices := t.devices, mem := t.mem, irqPending := t.irqPending } := by
  obtain ⟨u, hu, h⟩ := bind_eq_ok.1 h
  cases pure_eq_ok.1 h
  rw [write8_frame hu]

theorem and_not_eq_ite (d c : Bool) : (d && !c) = if c then false else d := by cases c <;> simp

/-- The accesses of an entry, in order. -/
theorem enterVector_eq (s : State) (brk : Bool) (ret vec : Word) :
    enterVector s brk ret vec = (do
      let s1 ← push { s with flags := { s.flags with b := brk } } (highByte ret)
      let s2 ← push s1 (lowByte ret)
      let s3 ← push s2 s2.flags.pack
      let v ← read16 { s3 with flags := { s3.flags with i := true, d := s3.flags.d && !s3.behaviour.isCmos } } vec
      return { v.st with pc := v.val }) := by
  simp only [enterVector, push16, bind_assoc]

/-- The entry BRK and the interrupts share has the shape `EntryMeaning`: the pushes leave the flags and the behaviour, so the status byte
pushed and the flags after it are those of before. -/
theorem enterVector_meaning (s : State) (brk : Bool) (ret vec : Word) :
    EntryMeaning (finish (enterVector s brk ret vec)) s brk ret vec := by
  refine access_meaning (congrArg finish (enterVector_eq s brk ret vec)) fun s1 h1 ho => access_meaning ho fun s2 h2 ho => ?_
  have hflags : s2.flags = { s.flags with b := brk } := by rw [push_frame h2, push_frame h1]
  have hbeh : s2.behaviour = s.behaviour := by rw [push_frame h2, push_frame h1]
  rw [hflags] at ho
  refine access_meaning ho fun s3 h3 ho => ?_
  have hafter : { s3.flags with i := true, d := s3.flags.d && !s3.behaviour.isCmos } =
      { s.flags with b := brk, i := true, d := if s.behaviour.isCmos then false else s.flags.d } := by
    rw [push_frame h3, and_not_eq_ite, hflags, hbeh]
  rw [hafter] at ho
  exact access_meaning ho fun v _ ho => ho

theorem stackAddr_toNat_lt (sp : Byte) : (stackAddr sp).toNat < 0x0200 := by
  rw [stackAddr_eq]
  bv_omega

/-- An entry writes page 1 only. -/
theorem pushedEntry_read {s : State} {a : Word} (ret : Word) (p : Byte) (h : 0x0200 ≤ a.toNat) :
    (pushedEntry s ret p).read a.toNat = s.memByte a := by
  have hne (sp : Byte) : a.toNat ≠ (stackAddr sp).toNat := by
    have := stackAddr_toNat_lt sp
    omega
  rw [pushedEntry, Memory.read_write_ne _ (hne _), Memory.read_write_ne _ (hne _), Memory.read_write_ne _ (hne _),
    State.memByte]

/-- The entry with the stack in RAM and the vector in memory past page 1, as a whole next state. -/
theorem enterVector_memory {s : State} {vec : Word} (brk : Bool) (ret : Word) (h : EntryInMemory s vec)
    (hv : 0x0200 ≤ vec.toNat) (hv' : 0x0200 ≤ (vec + 1).toNat) :
    enterVector s brk ret vec = .ok (enteredState s brk ret vec) := by
  obtain ⟨hhigh, hlow, hstatus, hvec, hvec'⟩ := h
  have hsp : s.sp - 2 - 1 = s.sp - 3 := by rw [BitVec.sub_sub]; rfl
  refine bind_eq_ok.2 ⟨_, push16_ram ret hhigh hlow, bind_eq_ok.2 ⟨_, push_ram _ hstatus,
    bind_eq_ok.2 ⟨_, read16_memory hvec hvec', pure_eq_ok.2 ?_⟩⟩⟩
  have hbyte {a : Word} := pushedEntry_read (s := s) (a := a) ret { s.flags with b := brk }.pack
  rw [enteredState, ← hbyte hv, ← hbyte hv', ← hsp, ← and_not_eq_ite]
  rfl

/-- Settles O54: with I clear BRK is the entry through the IRQ/BRK vector. -/
theorem brkInstruction : Obligations.BrkInstruction := by
  refine ⟨fun _ _ => rfl, fun _ => rfl, fun s => ?_⟩
  have hbrk (hi : s.flags.i = false) : exec .brk s = finish (enterVector s true (s.instAddr + 2) irqVector) :=
    congrArg finish (if_neg (by simp [hi]))
  refine ⟨fun hi => congrArg finish (if_pos hi), fun hi => ?_, fun hi hm => ?_⟩
  · rw [hbrk hi]
    exact enterVector_meaning s true _ _
  · rw [hbrk hi]
    exact congrArg finish (enterVector_memory true _ hm (by decide) (by decide))

/-! ### RTI (O55) -/

theorem exec_rti (s : State) :
    exec .rti s = finish (do
      let p ← pull s
      let lo ← pull { p.st with flags := unpackP p.val }
      let hi ← pull lo.st
      return { hi.st with pc := BitVec.ofNat 16 (hi.val.toNat * 0x100 + lo.val.toNat) }) := by
  show finish (returnFromInterrupt s) = _
  simp only [returnFromInterrupt, pull16, bind_assoc, pure_bind, joinBytes_eq_ofNat]

theorem returnFromInterrupt_memory {s : State} (h : s.isMemory (stackAddr (s.sp + 1)) = true)
    (h' : s.isMemory (stackAddr (s.sp + 2)) = true) (h'' : s.isMemory (stackAddr (s.sp + 3)) = true) :
    returnFromInterrupt s = .ok
      { s with
        sp := s.sp + 3, flags := unpackP (s.memByte (stackAddr (s.sp + 1))),
        pc := joinBytes (s.memByte (stackAddr (s.sp + 2))) (s.memByte (stackAddr (s.sp + 3))) } := by
  have h2 : s.sp + 1 + 1 = s.sp + 2 := by rw [BitVec.add_assoc]; rfl
  have h3 : s.sp + 1 + 2 = s.sp + 3 := by rw [BitVec.add_assoc]; rfl
  rw [← h2] at h' ⊢
  rw [← h3] at h'' ⊢
  exact bind_eq_ok.2 ⟨_, pull_memory h, bind_eq_ok.2
    ⟨_, pull16_memory (s := { s with sp := s.sp + 1, flags := unpackP (s.memByte (stackAddr (s.sp + 1))) }) h' h'', rfl⟩⟩

/-- Settles O55: RTI is three pulls, the flags set from the first before the other two. -/
theorem rtiInstruction : Obligations.RtiInstruction := by
  refine ⟨fun _ _ => rfl, fun s => ?_⟩
  obtain ⟨hfault, hnext⟩ := access_meaning (exec_rti s) fun p _ ho => access_meaning ho fun lo _ ho =>
    access_meaning ho fun hi _ ho => ho
  exact ⟨hfault, hnext, fun h h' h'' => congrArg finish (returnFromInterrupt_memory h h' h'')⟩

/-! ### RTS after JSR (O56) -/

/-- A byte of memory after a JSR: the return address on the stack, low byte below high byte, and every other byte as before. -/
theorem calledState_memByte {s : State} (w a : Word) (hm : s.mem.wf = true) :
    (calledState s w).memByte a =
      if a = stackAddr (s.sp - 1) then lowByte (s.pc - 1)
      else if a = stackAddr s.sp then highByte (s.pc - 1) else s.memByte a :=
  calc (calledState s w).memByte a
    _ = if a = stackAddr (s.sp - 1) then lowByte (s.pc - 1) else (afterPush s (highByte (s.pc - 1))).memByte a :=
      memByte_write (s := afterPush s _) (afterPush_mem_wf _ hm) _ a _
    _ = _ := congrArg (ite _ _) (memByte_write hm _ a _)

/-- RTS after JSR, where the state after the JSR holds the return address: SP and PC are those before the JSR. -/
theorem exec_rts_calledState {s : State} (w : Word) (hm : s.mem.wf = true) (h : s.isRam (stackAddr s.sp) = true)
    (h' : s.isRam (stackAddr (s.sp - 1)) = true) :
    exec .rts (calledState s w) = .next { s with mem := (calledState s w).mem } := by
  have hlow : (calledState s w).sp + 1 = s.sp - 1 := show s.sp - 2 + 1 = s.sp - 1 by bv_omega
  have hhigh : (calledState s w).sp + 2 = s.sp := BitVec.sub_add_cancel s.sp 2
  have hne : stackAddr s.sp ≠ stackAddr (s.sp - 1) := fun e => by
    have := stackAddr_inj.1 e
    bv_omega
  have hret : joinBytes (lowByte (s.pc - 1)) (highByte (s.pc - 1)) + 1 = s.pc := by
    rw [joinBytes_low_high, BitVec.sub_add_cancel]
  have hrts := exec_rts_memory (s := calledState s w) (by rw [hlow]; exact isMemory_of_isRam h')
    (by rw [hhigh]; exact isMemory_of_isRam h)
  rw [hlow, hhigh, calledState_memByte w _ hm, calledState_memByte w _ hm, if_pos rfl, if_neg hne, if_pos rfl, hret] at hrts
  exact hrts

/-- Settles O56: RTS pulls the two bytes JSR pushed. -/
theorem callThenReturnComesBack : Obligations.CallThenReturnComesBack := by
  intro s w hm h h'
  refine ⟨_, _, exec_jsr_ram w h h', rfl, exec_rts_calledState w hm h h', rfl, fun a ha ha' => ?_⟩
  exact (calledState_memByte w a hm).trans (by rw [if_neg ha', if_neg ha])

end Sys2Proof.Machine
end

section
/-! The statement of 44_flags_misc.md on the flag instructions (R400 to R406) and NOP (R407). -/

namespace Sys2Proof.Machine

/-! ### Flag instructions and NOP (O58) -/

/-- An instruction defined under every behaviour whose computation cannot fault answers the computed state. -/
theorem exec_next_of_ok {i : Instr} {s t : State} (hi : exec i s = runForm false s (.ok t)) : exec i s = .next t :=
  hi.trans (runForm_always s (.ok t))

/-- Settles O58: none needs CMOS or accesses the bus, so each answers the state it computes. -/
theorem flagInstructionsAndNop : Obligations.FlagInstructionsAndNop := by
  iterate 8 refine ⟨fun _ _ => rfl, ?_⟩
  intro s
  exact ⟨exec_next_of_ok rfl, exec_next_of_ok rfl, exec_next_of_ok rfl, exec_next_of_ok rfl, exec_next_of_ok rfl,
    exec_next_of_ok rfl, exec_next_of_ok rfl, exec_next_of_ok rfl⟩

end Sys2Proof.Machine
end

section
/-! The statements of 60_exceptions.md on the host: its actions keep the invariant (R560), how its step ends (R501, R563) and its writes of
registers (R561). -/

namespace Sys2Proof.Machine

/-! ### The host's actions keep the invariant (O14) -/

theorem resetCpu_wf {s t : State} (hs : s.wf = true) (h : resetCpu s = .ok t) : t.wf = true := by
  obtain ⟨v, hv, h⟩ := bind_eq_ok.1 h
  cases pure_eq_ok.1 h
  exact keepsWf_accessRel.read16 hv hs

theorem hostReset_wf {s : State} (hs : s.wf = true) : (hostReset s).st.wf = true :=
  orFaulted_wf hs fun _ => resetCpu_wf hs

theorem constructAndAdd_wf {s : State} (name : String) (base size : Int) (spec : DeviceSpec) (hs : s.wf = true) :
    (constructAndAdd s name base size spec).st.wf = true := by
  unfold constructAndAdd
  split
  · next n hn =>
    obtain ⟨hdevice, hcontents⟩ := construct_ok hn
    exact addDevice_wf hs hdevice hcontents
  · exact hs

theorem hostStep_wf {s : State} (hs : s.wf = true) : (hostStep s).st.wf = true := by
  unfold hostStep
  split
  · next t ht => exact stepKeepsInvariant s t hs ht
  · exact orFaulted_wf hs (by simp)
  · exact hs

theorem hostSteps_wf (n : Nat) {s : State} (hs : s.wf = true) : (hostSteps n s).st.wf = true := by
  induction n generalizing s with
  | zero => exact hs
  | succ n ih =>
    simp only [hostSteps]
    split
    · exact ih (hostStep_wf hs)
    · exact hostStep_wf hs

theorem writeFitting_wf {s t : State} (bits : Nat) (v : Int) (hs : s.wf = true) (ht : t.wf = true) :
    (writeFitting s bits v t).st.wf = true := by
  unfold writeFitting
  split
  · exact ht
  · exact hs

/-- The invariant does not look at the CPU's registers. -/
theorem writeReg_wf {s : State} (r : CpuReg) (v : Int) (hs : s.wf = true) : (writeReg s r v).st.wf = true := by
  cases r with
  | a | x | y | sp | pc | p => exact writeFitting_wf _ v hs hs
  | ir | instAddr | opTrap | irqPending | nmiPending => exact hs

theorem hostRxWrite_wf {s : State} (a : Word) (v : Byte) (hs : s.wf = true) : (hostRxWrite s a v).st.wf = true := by
  unfold hostRxWrite
  split
  · exact hs
  · next k hk => exact afterEvent_wf hs hk rfl rfl rfl (rxWrite_wf v (aciaAt_wf hs hk))

theorem hostTxRead_wf {s : State} (a : Word) (hs : s.wf = true) : (hostTxRead s a).st.wf = true := by
  unfold hostTxRead
  split
  · exact hs
  · next k hk =>
    split
    · exact hs
    · next v o ho =>
      obtain ⟨hlayout, hrx, htx⟩ := txRead_params ho
      exact afterEvent_wf hs hk hlayout hrx htx (txRead_wf (aciaAt_wf hs hk) ho)

theorem hostHasRx_st (s : State) (a : Word) : (hostHasRx s a).st = s := by
  unfold hostHasRx
  split <;> rfl

theorem hostHasTx_st (s : State) (a : Word) : (hostHasTx s a).st = s := by
  unfold hostHasTx
  split <;> rfl

/-- Settles O14: the actions that change neither memory nor a device keep the invariant as it stands, each other one by its lemma. -/
theorem hostActionsKeepInvariant : Obligations.HostActionsKeepInvariant := by
  intro s a hs
  cases a with
  | isComplete | readReg | readFlag | writeFlag | setBehaviour | assertIrq | clearIrq | assertNmi => exact hs
  | addDevice name base size spec => exact constructAndAdd_wf name base size spec hs
  | reset => exact hostReset_wf hs
  | systemReset => exact hostReset_wf (resetAcias_wf hs)
  | step => exact hostStep_wf hs
  | steps n => exact hostSteps_wf n hs
  | writeReg r v => exact writeReg_wf r v hs
  | read a | stackPeek => exact hostRead_wf hs
  | write a v => exact loadFrom_wf [v] a hs
  | loadProgram bytes => exact loadFrom_wf bytes s.pc hs
  | rxWrite a v => exact hostRxWrite_wf a v hs
  | txRead a => exact hostTxRead_wf a hs
  | hasRx a => exact (hostHasRx_st s a).symm ▸ hs
  | hasTx a => exact (hostHasTx_st s a).symm ▸ hs

/-! ### A step ends in a next state or in a bus fault (O30) -/

/-- A computation that fails does so with a fault of a bus access (60_exceptions.md R500). -/
def FaultsOnBus {α : Type} (e : Except Fault α) : Prop := ∀ f, e = .error f → ∃ kind addr, f = .bus kind addr

namespace FaultsOnBus

theorem ok {α : Type} (a : α) : FaultsOnBus (.ok a) := fun _ h => by cases h

theorem error {α : Type} (kind : FaultKind) (addr : Word) : FaultsOnBus (.error (.bus kind addr) : Except Fault α) :=
  fun _ h => by cases h; exact ⟨kind, addr, rfl⟩

theorem bind {α β : Type} {e : Except Fault α} {f : α → Except Fault β} (he : FaultsOnBus e)
    (hf : ∀ a, FaultsOnBus (f a)) : FaultsOnBus (e >>= f) := fun x h =>
  (bind_eq_error.1 h).elim (he x) fun ⟨a, _, h⟩ => hf a x h

/-- A computation whose value is then put into a state. -/
theorem thenPure {α β : Type} {e : Except Fault α} (he : FaultsOnBus e) (f : α → β) :
    FaultsOnBus (do let a ← e; return f a) := he.bind fun a => ok (f a)

theorem read8 (s : State) (a : Word) : FaultsOnBus (Machine.read8 s a) := by
  unfold Machine.read8
  split
  · exact error _ _
  · split
    · exact ok _
    · split
      · exact error _ _
      · exact ok _

theorem write8 (s : State) (a : Word) (v : Byte) : FaultsOnBus (Machine.write8 s a v) := by
  unfold Machine.write8
  split
  · exact error _ _
  · split
    · exact error _ _
    · exact ok _
    · split
      · exact error _ _
      · exact ok _

theorem read16 (s : State) (a : Word) : FaultsOnBus (Machine.read16 s a) :=
  (read8 s a).bind fun lo => (read8 lo.st _).thenPure _

theorem read16zp (s : State) (z : Byte) : FaultsOnBus (Machine.read16zp s z) :=
  (read8 s _).bind fun lo => (read8 lo.st _).thenPure _

theorem ea (s : State) (m : MemOperand) : FaultsOnBus (Machine.ea s m) := by
  cases m with
  | zpi b1 | xin b1 => exact read16zp s _
  | iny b1 => exact (read16zp s b1).thenPure _
  | _ => exact ok _

theorem load (s : State) (m : Source) : FaultsOnBus (Machine.load s m) := by
  cases m with
  | imm b1 => exact ok _
  | mem m => exact (ea s m).bind fun e => read8 e.st e.val

theorem store (s : State) (m : MemOperand) (v : Byte) : FaultsOnBus (Machine.store s m v) :=
  (ea s m).bind fun e => write8 e.st e.val v

theorem rmw (s : State) (t : Target) (f : Flags → Byte → AluOut) : FaultsOnBus (Machine.rmw s t f) := by
  cases t with
  | acc => exact ok _
  | mem m => exact (ea s m).bind fun e => (read8 e.st e.val).bind fun r => write8 _ _ _

theorem push (s : State) (v : Byte) : FaultsOnBus (Machine.push s v) := (write8 s _ v).thenPure _

theorem pull (s : State) : FaultsOnBus (Machine.pull s) := read8 _ _

theorem push16 (s : State) (w : Word) : FaultsOnBus (Machine.push16 s w) := (push s _).bind fun t => push t _

theorem pull16 (s : State) : FaultsOnBus (Machine.pull16 s) := (pull s).bind fun lo => (pull lo.st).thenPure _

theorem jmpTarget (s : State) (m : JmpMode) : FaultsOnBus (Machine.jmpTarget s m) := by
  cases m with
  | abs w => exact ok _
  | ind p => exact (read8 s p).bind fun lo => (read8 lo.st _).thenPure _
  | aix w => exact read16 s _

theorem enterVector (s : State) (brk : Bool) (ret vec : Word) : FaultsOnBus (Machine.enterVector s brk ret vec) :=
  (push16 _ ret).bind fun s1 => (push s1 _).bind fun _ => (read16 _ vec).thenPure _

theorem enterInterrupt (s : State) (k : Interrupt) : FaultsOnBus (Machine.enterInterrupt s k) := by
  cases k with
  | nmi | irq => exact enterVector _ _ _ _

theorem returnFromInterrupt (s : State) : FaultsOnBus (Machine.returnFromInterrupt s) :=
  (pull s).bind fun _ => (pull16 _).thenPure _

theorem fetchByte (s : State) : FaultsOnBus (Machine.fetchByte s) := (read8 s s.pc).thenPure _

theorem fetchOperands (s : State) (len : InstrLen) : FaultsOnBus (Machine.fetchOperands s len) := by
  cases len with
  | one => exact ok _
  | two => exact (fetchByte s).thenPure _
  | three => exact (fetchByte s).bind fun b1 => (fetchByte b1.st).thenPure _

theorem fetch (s : State) : FaultsOnBus (Machine.fetch s) :=
  ((fetchByte _).thenPure _).bind fun op => (fetchOperands op.st _).thenPure _

end FaultsOnBus

/-- An outcome is a next state or the fault of a bus access. -/
def EndsInStateOrBusFault (o : Host.Outcome State Fault Refusal) : Prop :=
  (∃ t, o = .next t) ∨ ∃ kind addr, o = .fault (.bus kind addr)

theorem finish_ends {e : Except Fault State} (he : FaultsOnBus e) : EndsInStateOrBusFault (finish e) := by
  cases e with
  | ok t => exact .inl ⟨t, rfl⟩
  | error f =>
    obtain ⟨kind, addr, rfl⟩ := he f rfl
    exact .inr ⟨kind, addr, rfl⟩

theorem runForm_ends (c : Bool) (s : State) {e : Except Fault State} (he : FaultsOnBus e) :
    EndsInStateOrBusFault (runForm c s e) := by
  unfold runForm
  split
  · exact .inl ⟨illegal s, rfl⟩
  · exact finish_ends he

/-- Every instruction is an instruction form over bus accesses (60_exceptions.md R501): nothing is refused. -/
theorem exec_ends (i : Instr) (s : State) : EndsInStateOrBusFault (exec i s) := by
  cases i with
  | lda m | adc m | sbc m | and m | ora m | eor m | cmp m | bit m =>
    exact runForm_ends m.cmosOnly s ((FaultsOnBus.load s _).thenPure _)
  | ldx m | ldy m | cpx m | cpy m => exact runForm_ends false s ((FaultsOnBus.load s _).thenPure _)
  | sta m => exact runForm_ends m.cmosOnly s (.store s _ _)
  | stz m => exact runForm_ends true s (.store s _ _)
  | stx m | sty m => exact runForm_ends false s (.store s _ _)
  | asl m | lsr m | rol m | ror m => exact runForm_ends false s (.rmw s _ _)
  | inc m | dec m => exact runForm_ends m.incCmosOnly s (.rmw s _ _)
  | tsb m | trb m | rmb0 zp | rmb1 zp | rmb2 zp | rmb3 zp | rmb4 zp | rmb5 zp | rmb6 zp | rmb7 zp | smb0 zp | smb1 zp
  | smb2 zp | smb3 zp | smb4 zp | smb5 zp | smb6 zp | smb7 zp => exact runForm_ends true s (.rmw s _ _)
  | pha | php => exact runForm_ends false s (.push s _)
  | phx | phy => exact runForm_ends true s (.push s _)
  | pla | plp => exact runForm_ends false s ((FaultsOnBus.pull s).thenPure _)
  | plx | ply => exact runForm_ends true s ((FaultsOnBus.pull s).thenPure _)
  | bra off => exact runForm_ends true s (.ok _)
  | bbr0 zp off | bbr1 zp off | bbr2 zp off | bbr3 zp off | bbr4 zp off | bbr5 zp off | bbr6 zp off | bbr7 zp off
  | bbs0 zp off | bbs1 zp off | bbs2 zp off | bbs3 zp off | bbs4 zp off | bbs5 zp off | bbs6 zp off | bbs7 zp off =>
    exact runForm_ends true s ((FaultsOnBus.read8 s (zp.setWidth 16)).thenPure _)
  | jmp m => exact runForm_ends m.cmosOnly s ((FaultsOnBus.jmpTarget s m).thenPure _)
  | jsr target => exact runForm_ends false s ((FaultsOnBus.push16 s _).thenPure _)
  | rts => exact runForm_ends false s ((FaultsOnBus.pull16 s).thenPure _)
  | brk =>
    refine runForm_ends false s ?_
    split
    · exact .ok s
    · exact .enterVector s _ _ _
  | rti => exact runForm_ends false s (.returnFromInterrupt s)
  | undefined op => exact .inl ⟨illegal s, rfl⟩
  | _ => exact runForm_ends false s (.ok _)

theorem step_ends {s : State} (h : s.phase = .running) : EndsInStateOrBusFault (step s) := by
  cases hk : stepKind s with
  | nmi => rw [step_nmi h hk]; exact finish_ends (.enterInterrupt _ _)
  | irq => rw [step_irq h hk]; exact finish_ends (.enterInterrupt _ _)
  | instr =>
    cases hf : fetch { s with opTrap := false } with
    | ok f => rw [step_of_fetch h hk hf]; exact exec_ends f.val f.st
    | error x =>
      obtain ⟨kind, addr, rfl⟩ := FaultsOnBus.fetch _ x hf
      exact .inr ⟨kind, addr, step_of_fetch_error h hk hf⟩

/-! ### The host's step (O30) -/

theorem hostStep_next {s t : State} (h : step s = .next t) : hostStep s = { reply := .stepped (stepKind s), st := t } := by
  simp only [hostStep, h]

theorem hostStep_fault {s : State} {kind : FaultKind} {addr : Word} (h : step s = .fault (.bus kind addr)) :
    hostStep s = { reply := .fault kind addr, st := afterFault s kind addr } := by
  simp only [hostStep, h, orFaulted]

/-- A machine before its first reset, or FAULTED, has no move (93 U7, U8). -/
theorem hostStep_noMove {s : State} (h : s.phase ≠ .running) : hostStep s = { reply := .noMove, st := s } := by
  cases hp : s.phase with
  | running => exact absurd hp h
  | notReset | faulted kind addr => simp only [hostStep, step, hp, orFaulted]

/-- Settles O30: the state after a fault is FAULTED, and so has no move. -/
theorem faultedMachineHasNoMove : Obligations.FaultedMachineHasNoMove := by
  refine fun s => ⟨fun t => hostStep_next, fun kind addr h => ?_, hostStep_noMove, step_ends⟩
  have hst : act s .step = { reply := .fault kind addr, st := afterFault s kind addr } := hostStep_fault h
  rw [hst]
  exact ⟨rfl, rfl, afterFault_platform s kind addr, hostStep_noMove (s := afterFault s kind addr) (by simp [afterFault])⟩

/-! ### The host's writes of registers (O32) -/

theorem writeFitting_ok {bits : Nat} {v : Int} (s t : State) (h : 0 ≤ v) (h' : v < 2 ^ bits) :
    writeFitting s bits v t = { reply := .ok, st := t } := if_pos ⟨h, h'⟩

theorem writeFitting_range {bits : Nat} {v : Int} (s t : State) (h : v < 0 ∨ 2 ^ bits ≤ v) :
    writeFitting s bits v t = { reply := .registerRange, st := s } := if_neg (by omega)

/-- Settles O32: a register's write is `writeFitting` of its width. -/
theorem hostRegisterWrites : Obligations.HostRegisterWrites := by
  refine fun s v => ⟨fun h h' => ?_, fun h h' => ?_, fun h r hr => ?_, fun h => ?_, fun r hr => ?_, fun b => ?_⟩
  · have hfits (t : State) : writeFitting s 8 v t = ⟨.ok, t⟩ := writeFitting_ok s t h (by omega)
    exact ⟨hfits _, hfits _, hfits _, hfits _, hfits _⟩
  · exact writeFitting_ok s _ h (by omega)
  · have hrange (t : State) : writeFitting s 8 v t = ⟨.registerRange, s⟩ := writeFitting_range s t (by omega)
    fin_cases hr <;> exact hrange _
  · exact writeFitting_range s _ (by omega)
  · fin_cases hr <;> rfl
  · exact ⟨rfl, rfl, rfl, rfl, rfl, rfl, rfl⟩

end Sys2Proof.Machine
end

section
/-! The statements of 60_exceptions.md on faults of a fetch (R501, R505) and on interrupts: their entry (R514 to R517) and the return from
it (43_control_flow.md R368). -/

namespace Sys2Proof.Machine

/-! ### A fetch that faults (O7) -/

theorem fetchByte_unmapped {s : State} (h : owner s.devices s.pc = none) :
    fetchByte s = .error (.bus .unmapped s.pc) :=
  bind_eq_error.2 (.inl (read8_unmapped h))

theorem fetch_unmapped_opcode {s : State} (h : owner s.devices s.pc = none) : fetch s = .error (.bus .unmapped s.pc) :=
  bind_eq_error.2 (.inl (bind_eq_error.2 (.inl (fetchByte_unmapped (s := { s with instAddr := s.pc }) h))))

/-- Where the opcode is in memory, a fault of the operand fetch is the fetch's. -/
theorem fetch_error_of_operands {s : State} {x : Fault} (h : s.isMemory s.pc = true)
    (hx : fetchOperands { s with instAddr := s.pc, ir := s.memByte s.pc, pc := s.pc + 1 }
      (opLength s.undefLens (s.memByte s.pc)) = .error x) : fetch s = .error x :=
  bind_eq_error.2 (.inr ⟨_, fetchOpcode_memory h, bind_eq_error.2 (.inl hx)⟩)

theorem fetchOperands_unmapped_first {s : State} {len : InstrLen} (hl : len ≠ .one) (h : owner s.devices s.pc = none) :
    fetchOperands s len = .error (.bus .unmapped s.pc) := by
  cases len with
  | one => exact absurd rfl hl
  | two | three => exact bind_eq_error.2 (.inl (fetchByte_unmapped h))

theorem fetchOperands_unmapped_second {s : State} (hm : s.isMemory s.pc = true) (h : owner s.devices (s.pc + 1) = none) :
    fetchOperands s .three = .error (.bus .unmapped (s.pc + 1)) :=
  bind_eq_error.2 (.inr ⟨_, fetchByte_memory hm,
    bind_eq_error.2 (.inl (fetchByte_unmapped (s := { s with pc := s.pc + 1 }) h))⟩)

/-- Settles O7: the fetch's fault is the step's. -/
theorem fetchFaultEndsStep : Obligations.FetchFaultEndsStep := by
  refine fun s hr hk => ⟨fun h => ?_, fun hm h hl => ?_, fun hm hm' h hl => ?_⟩
  · exact step_of_fetch_error hr hk (fetch_unmapped_opcode h)
  · exact step_of_fetch_error hr hk (fetch_error_of_operands hm (fetchOperands_unmapped_first hl h))
  · have hpc : s.pc + 1 + 1 = s.pc + 2 := BitVec.add_assoc ..
    rw [← hpc] at h ⊢
    refine step_of_fetch_error hr hk (fetch_error_of_operands hm ?_)
    show fetchOperands _ (opLength s.undefLens (s.memByte s.pc)) = _
    rw [hl]
    exact fetchOperands_unmapped_second hm' h

/-! ### Interrupt entry (O8) -/

theorem enterInterrupt_nmi_memory {s : State} (h : EntryInMemory s 0xFFFA) :
    enterInterrupt s .nmi = .ok { enteredState s false s.pc 0xFFFA with nmiPending := false } :=
  enterVector_memory (s := { s with nmiPending := false }) false s.pc h (by decide) (by decide)

theorem enterInterrupt_irq_memory {s : State} (h : EntryInMemory s 0xFFFE) :
    enterInterrupt s .irq = .ok { enteredState s false s.pc 0xFFFE with irqPending := false } :=
  enterVector_memory (s := { s with irqPending := false }) false s.pc h (by decide) (by decide)

/-- Settles O8: both are `enterVector` in the state with the latch cleared. -/
theorem interruptEntry : Obligations.InterruptEntry := fun _ =>
  ⟨enterVector_meaning _ false _ _, enterVector_meaning _ false _ _, enterInterrupt_nmi_memory, enterInterrupt_irq_memory⟩

/-! ### RTI after an entry (O57) -/

/-- A byte of memory after an entry's pushes: the status byte lowest, the return address above it, and every other byte as before. -/
theorem pushedEntry_read_eq {s : State} (ret : Word) (p : Byte) (a : Word) (hm : s.mem.wf = true) :
    (pushedEntry s ret p).read a.toNat =
      if a = stackAddr (s.sp - 2) then p
      else if a = stackAddr (s.sp - 1) then lowByte ret
      else if a = stackAddr s.sp then highByte ret else s.memByte a := by
  have hhigh := Memory.wf_write (v := highByte ret) (stackAddr s.sp).isLt hm
  have hlow := Memory.wf_write (v := lowByte ret) (stackAddr (s.sp - 1)).isLt hhigh
  rw [pushedEntry, Memory.read_write _ _ _ _ hlow, Memory.read_write _ _ _ _ hhigh, Memory.read_write _ _ _ _ hm]
  simp only [BitVec.toNat_inj, State.memByte]

/-- The three bytes RTI pulls after an entry. -/
theorem enteredState_stack {s : State} (brk : Bool) (ret vec : Word) (hm : s.mem.wf = true) :
    (enteredState s brk ret vec).memByte (stackAddr (s.sp - 2)) = { s.flags with b := brk }.pack ∧
    (enteredState s brk ret vec).memByte (stackAddr (s.sp - 1)) = lowByte ret ∧
    (enteredState s brk ret vec).memByte (stackAddr s.sp) = highByte ret := by
  have hread (a : Word) : (enteredState s brk ret vec).memByte a = _ := pushedEntry_read_eq ret _ a hm
  have hlow : s.sp - 1 ≠ s.sp - 2 := by bv_omega
  have hhigh : s.sp ≠ s.sp - 2 := by bv_omega
  have hhigh' : s.sp ≠ s.sp - 1 := by bv_omega
  simp only [hread, stackAddr_inj, if_true, if_neg hlow, if_neg hhigh, if_neg hhigh', and_self]

/-- RTI in the state an entry leaves: SP is that of before, PC the return address pushed, and the flags are those pushed. -/
theorem exec_rti_enteredState {s : State} {vec : Word} (brk : Bool) (ret : Word) (hm : s.mem.wf = true)
    (h : EntryInMemory s vec) :
    exec .rti (enteredState s brk ret vec) = .next
      { s with
        pc := ret, flags := { s.flags with b := brk }, mem := pushedEntry s ret { s.flags with b := brk }.pack } := by
  obtain ⟨hhigh, hlow, hstatus, -, -⟩ := h
  obtain ⟨hp, hl, hh⟩ := enteredState_stack brk ret vec hm
  have h1 : (enteredState s brk ret vec).sp + 1 = s.sp - 2 := show s.sp - 3 + 1 = s.sp - 2 by bv_omega
  have h2 : (enteredState s brk ret vec).sp + 2 = s.sp - 1 := show s.sp - 3 + 2 = s.sp - 1 by bv_omega
  have h3 : (enteredState s brk ret vec).sp + 3 = s.sp := BitVec.sub_add_cancel s.sp 3
  have hrti := returnFromInterrupt_memory (s := enteredState s brk ret vec) (by rw [h1]; exact isMemory_of_isRam hstatus)
    (by rw [h2]; exact isMemory_of_isRam hlow) (by rw [h3]; exact isMemory_of_isRam hhigh)
  rw [h1, h2, h3, hp, hl, hh, unpackP_pack, joinBytes_low_high] at hrti
  exact congrArg finish hrti

/-- The entry's pushes leave every byte but the three pushed. -/
theorem pushedEntry_read_ne {s : State} (ret : Word) (p : Byte) (hm : s.mem.wf = true) {a : Word} (h : a ≠ stackAddr s.sp)
    (h' : a ≠ stackAddr (s.sp - 1)) (h'' : a ≠ stackAddr (s.sp - 2)) :
    (pushedEntry s ret p).read a.toNat = s.memByte a := by
  rw [pushedEntry_read_eq ret p a hm, if_neg h'', if_neg h', if_neg h]

/-- Settles O57: each entry leaves `enteredState`, of the state with the latch cleared, and RTI pulls what the entry pushed. -/
theorem interruptThenRtiComesBack : Obligations.InterruptThenRtiComesBack := by
  refine fun s hm => ⟨fun h => ?_, fun h => ?_, fun h hi => ?_⟩
  · exact ⟨_, _, enterInterrupt_nmi_memory h, rfl,
      ⟨exec_rti_enteredState (s := { s with nmiPending := false }) false s.pc hm h, fun _ => pushedEntry_read_ne _ _ hm⟩, rfl⟩
  · exact ⟨_, _, enterInterrupt_irq_memory h, rfl,
      ⟨exec_rti_enteredState (s := { s with irqPending := false }) false s.pc hm h, fun _ => pushedEntry_read_ne _ _ hm⟩, rfl⟩
  · obtain ⟨-, -, hbrk⟩ := brkInstruction
    obtain ⟨-, -, hentry⟩ := hbrk s
    exact ⟨_, _, hentry hi h, rfl, ⟨exec_rti_enteredState true _ hm h, fun _ => pushedEntry_read_ne _ _ hm⟩, rfl⟩

end Sys2Proof.Machine
end

section
/-! The statements of 60_exceptions.md on the ACIA: its registers and status byte (R532 to R535), readiness (R547), the CPU's reads (R540,
R541) and writes (R536 to R539, R544), and its serial side (R546, R548, R550). -/

namespace Sys2Proof.Machine

/-! ### The status byte (O19) -/

/-- The bits of a byte made of its bits, from bit 0 up. -/
theorem getLsbD_byteOfBits (b7 b6 b5 b4 b3 b2 b1 b0 : Bool) (n : Nat) :
    (byteOfBits b7 b6 b5 b4 b3 b2 b1 b0).getLsbD n = [b0, b1, b2, b3, b4, b5, b6, b7].getD n false := by
  match n with
  | 0 | 1 | 2 | 3 | 4 | 5 | 6 | 7 => simp only [byteOfBits, BitVec.getLsbD_append]; simp
  | n + 8 => simp

theorem status_a6551 {k : Acia} (base : Nat) (h : k.layout = .a6551) :
    k.status base = byteOfBits k.irq false false (k.tdre base) (k.rdrf base) k.overrun false false := by
  simp only [Acia.status, h]

theorem status_a6850 {k : Acia} (base : Nat) (h : k.layout = .a6850) :
    k.status base = byteOfBits k.irq false k.overrun false false false (k.tdre base) (k.rdrf base) := by
  simp only [Acia.status, h]

/-- Settles O19: past `nregs` there is no register, and the status byte is made of its bits. -/
theorem aciaRegistersAndStatus : Obligations.AciaRegistersAndStatus := by
  refine ⟨rfl, rfl, rfl, rfl, fun n h => ⟨?_, ?_⟩, fun n h => ⟨?_, ?_⟩, fun base k => ⟨fun h => ?_, fun h => ?_⟩⟩
  · exact (aciaReadReg_eq_none_iff .a6551 n).2 h
  · exact (aciaWriteReg_eq_none_iff .a6551 n).2 h
  · exact (aciaReadReg_eq_none_iff .a6850 n).2 h
  · exact (aciaWriteReg_eq_none_iff .a6850 n).2 h
  · simp only [status_a6551 base h, getLsbD_byteOfBits]
    exact ⟨rfl, rfl, rfl, rfl, rfl, rfl, rfl, rfl⟩
  · simp only [status_a6850 base h, getLsbD_byteOfBits]
    exact ⟨rfl, rfl, rfl, rfl, rfl, rfl, rfl, rfl⟩

/-! ### Readiness (O20) -/

/-- A side that waits counts down, one status computation after the other. -/
theorem waitAt_add (gap : Nat → Nat) (n : Nat) {j : Nat} (h : j ≤ waitAt gap n) :
    waitAt gap (n + j) = waitAt gap n - j := by
  induction j with
  | zero => rfl
  | succ j ih =>
    have hj := ih (by omega)
    have hne : waitAt gap (n + j) ≠ 0 := by omega
    rw [← Nat.add_assoc, waitAt, if_neg hne, hj, Nat.sub_sub]

/-- The wait is finite, so from every status computation on a side is ready at some later one. -/
theorem exists_readyAt (gap : Nat → Nat) (n : Nat) : ∃ m, n ≤ m ∧ readyAt gap m = true := by
  have hzero : waitAt gap (n + waitAt gap n) = 0 := by rw [waitAt_add gap n (Nat.le_refl _), Nat.sub_self]
  exact ⟨_, Nat.le_add_right n _, beq_iff_eq.2 hzero⟩

theorem alwaysReady_of_selector {k : Acia} (hl : k.layout = .a6551) (hc : k.control.toNat % 16 = 0) :
    k.alwaysReady = true := by
  have hsel : k.control.setWidth 4 = 0 := BitVec.eq_of_toNat_eq (by rw [BitVec.toNat_setWidth]; exact hc)
  simp [Acia.alwaysReady, hl, hsel]

theorem rxReady_of_alwaysReady {k : Acia} (base : Nat) (h : k.alwaysReady = true) : k.rxReady base = true := by
  rw [Acia.rxReady, h, Bool.true_or]

theorem txReady_of_alwaysReady {k : Acia} (base : Nat) (h : k.alwaysReady = true) : k.txReady base = true := by
  rw [Acia.txReady, h, Bool.true_or]

theorem rxReady_of_readyAt {k : Acia} {base : Nat} (h : readyAt (Config.rxGap base) k.polls = true) :
    k.rxReady base = true := by
  rw [Acia.rxReady, h, Bool.or_true]

theorem txReady_of_readyAt {k : Acia} {base : Nat} (h : readyAt (Config.txGap base) k.polls = true) :
    k.txReady base = true := by
  rw [Acia.txReady, h, Bool.or_true]

/-- Settles O20: a gap is finite, whatever it is. -/
theorem aciaReadinessIsFair : Obligations.AciaReadinessIsFair := by
  refine ⟨fun base k hl hc => ?_, fun base k n => ⟨?_, ?_⟩, fun base draws k => ⟨rfl, rfl⟩⟩
  · have h := alwaysReady_of_selector hl hc
    exact ⟨rxReady_of_alwaysReady base h, txReady_of_alwaysReady base h⟩
  · obtain ⟨m, hm, hr⟩ := exists_readyAt (Config.rxGap base) n
    exact ⟨m, hm, rxReady_of_readyAt hr⟩
  · obtain ⟨m, hm, hr⟩ := exists_readyAt (Config.txGap base) n
    exact ⟨m, hm, txReady_of_readyAt hr⟩

/-! ### The CPU's reads (O21) -/

theorem setAcia_self {k : Acia} {a : Word} : ∀ {ds : List Device} {d : Device}, owner ds a = some d → d.kind = .acia k →
    setAcia ds a k = ds
  | [], _, _, _ => rfl
  | e :: ds, d, ho, hk => by
    rw [owner_cons] at ho
    rw [setAcia]
    split at ho
    · next hc =>
      cases ho
      rw [if_pos hc, ← hk]
    · next hc => rw [if_neg hc, setAcia_self ho hk]

theorem readData_empty {k : Acia} (draws : Nat) (h : k.rx = []) :
    k.readData draws = { val := Config.drawByte draws, acia := k, draws := draws + 1 } := by
  simp only [Acia.readData, h]

theorem readData_cons {k : Acia} {v : Byte} {rest : List Byte} (draws : Nat) (h : k.rx = v :: rest) :
    k.readData draws = { val := v, acia := { k with rx := rest, overrun := false }, draws := draws } := by
  simp only [Acia.readData, h]

section OwnedByAcia
variable {s : State} {a : Word} {d : Device} {k : Acia} (ho : owner s.devices a = some d) (hk : d.kind = .acia k)
include ho hk

/-- A read of an ACIA register, from what the register answers. -/
theorem read8_of_cpuRead {reg : AciaReg} {o : AciaRead} (hr : aciaReadReg k.layout (a.toNat - d.start) = some reg)
    (h : k.cpuRead d.start s.draws reg = o) :
    read8 s a = .ok { val := o.val, st := { s with devices := setAcia s.devices a o.acia, draws := o.draws } } := by
  subst h
  exact read8_acia ho hk hr

/-- A read that leaves the ACIA as it is leaves the devices as they are. -/
theorem read8_of_cpuRead_same {reg : AciaReg} {v : Byte} {draws : Nat}
    (hr : aciaReadReg k.layout (a.toNat - d.start) = some reg)
    (h : k.cpuRead d.start s.draws reg = { val := v, acia := k, draws := draws }) :
    read8 s a = .ok { val := v, st := { s with draws := draws } } := by
  have hread := read8_of_cpuRead ho hk hr h
  rw [setAcia_self ho hk] at hread
  exact hread

theorem aciaAt_of_owner : s.aciaAt a = some k := by
  obtain ⟨name, start, stop, kind⟩ := d
  subst hk
  simp only [State.aciaAt, ho]

/-- A write of an ACIA register, from the event it is. -/
theorem write8_of_event {reg : AciaReg} {v : Byte} {o : AciaEvent}
    (hr : aciaWriteReg k.layout (a.toNat - d.start) = some reg) (h : k.write v reg = o) :
    write8 s a v = .ok (s.afterEvent a o) := by
  have hr' : aciaWriteReg k.layout (d.offset a) = some reg := hr
  subst h
  simp only [write8, ho, hk, hr', State.afterEvent]

end OwnedByAcia

/-- Settles O21, one clause per register. -/
theorem aciaCpuReads : Obligations.AciaCpuReads := by
  refine fun s a d k ho hk => ⟨fun hr => ⟨fun hx => ?_, fun v rest hx => ?_⟩, fun hr => ?_, fun hr => ?_, fun hr => ?_⟩
  · exact read8_of_cpuRead_same ho hk hr (readData_empty s.draws hx)
  · exact read8_of_cpuRead ho hk hr (readData_cons s.draws hx)
  · exact read8_of_cpuRead ho hk hr rfl
  · exact read8_of_cpuRead_same ho hk hr rfl
  · exact read8_of_cpuRead_same ho hk hr rfl

/-! ### The CPU's writes (O22) -/

theorem enqueue_eq (cap : Nat) (q : List Byte) (v : Byte) :
    enqueue cap q v = (if q.length = cap then q.tail else q) ++ [v] := by
  rw [enqueue, List.drop_one]

theorem isEmpty_eq_decide_length (q : List Byte) : q.isEmpty = decide (q.length = 0) := by
  cases q <;> rfl

theorem not_isEmpty_eq_decide_length (q : List Byte) : (!q.isEmpty) = decide (0 < q.length) := by
  cases q <;> simp

/-- The condition of `raiseIfEnabled` (60_exceptions.md R549): an enabled interrupt whose condition holds. -/
def Acia.interruptDue (k : Acia) : Bool :=
  k.rxIrqEn && decide (0 < k.rx.length) || k.txIrqEn && decide (k.tx.length = 0)

theorem raiseIfEnabled_eq (k : Acia) :
    k.raiseIfEnabled = { acia := { k with irq := k.irq || k.interruptDue }, assertIrq := k.interruptDue } := by
  rw [Acia.raiseIfEnabled, isEmpty_eq_decide_length k.tx, not_isEmpty_eq_decide_length, ← Acia.interruptDue]
  cases k.interruptDue <;> simp

/-- A field of a byte's bits, as a number. -/
theorem extractLsb'_beq (v : Byte) (start : Nat) {len : Nat} (w : BitVec len) :
    (v.extractLsb' start len == w) = decide (v.toNat / 2 ^ start % 2 ^ len = w.toNat) := by
  rw [Bool.eq_iff_iff, beq_iff_eq, decide_eq_true_iff, BitVec.toNat_eq, BitVec.extractLsb'_toNat,
    Nat.shiftRight_eq_div_pow]

theorem not_getLsbD_one (v : Byte) : (!v.getLsbD 1) = decide (v.toNat / 2 % 2 = 0) := by
  rw [Bool.eq_iff_iff, decide_eq_true_iff, ← beq_false, getLsbD_beq_iff]
  rfl

theorem getLsbD_seven_eq (v : Byte) : v.getLsbD 7 = decide (v.toNat / 128 = 1) := by
  rw [getLsbD_seven, decide_eq_decide]
  omega

/-- A command write (60_exceptions.md R536). -/
theorem writeCommand_eq (v : Byte) (k : Acia) :
    k.writeCommand v = Acia.raiseIfEnabled
      { k with command := v, rxIrqEn := decide (v.toNat / 2 % 2 = 0), txIrqEn := decide (v.toNat / 4 % 4 = 1) } := by
  rw [Acia.writeCommand, not_getLsbD_one, extractLsb'_beq]; rfl

/-- An A6850 control write that is the master reset (60_exceptions.md R538, R544). -/
theorem writeControl6850_reset {v : Byte} (k : Acia) (h : v.toNat % 4 = 3) :
    k.writeControl6850 v = { acia := Acia.programmedReset { k with control := v }, assertIrq := false } := by
  have hbits : (v.extractLsb' 0 2 == 0b11#2) = true := by
    rw [extractLsb'_beq]
    simpa using h
  rw [Acia.writeControl6850, if_pos hbits]

/-- Any other A6850 control write (60_exceptions.md R538). -/
theorem writeControl6850_enables {v : Byte} (k : Acia) (h : v.toNat % 4 ≠ 3) :
    k.writeControl6850 v = Acia.raiseIfEnabled
      { k with control := v, rxIrqEn := decide (v.toNat / 128 = 1), txIrqEn := decide (v.toNat / 32 % 4 = 1) } := by
  have hbits : ¬(v.extractLsb' 0 2 == 0b11#2) = true := by
    rw [extractLsb'_beq]
    simpa using h
  rw [Acia.writeControl6850, if_neg hbits, getLsbD_seven_eq, extractLsb'_beq]; rfl

/-- A data write (60_exceptions.md R539). -/
theorem writeData_eq (v : Byte) (k : Acia) :
    k.writeData v = { k with tx := (if k.tx.length = k.txCap then k.tx.tail else k.tx) ++ [v] } := by
  rw [Acia.writeData, enqueue_eq]

/-- Settles O22, one clause per register. -/
theorem aciaCpuWrites : Obligations.AciaCpuWrites := by
  intro s a v d k ho hk put cleared due raise
  refine ⟨fun hr => ?_, fun hr => ?_, fun hr => ?_, fun hr => ?_, fun hr => ⟨fun h => ?_, fun h => ?_⟩⟩
  · exact write8_of_event ho hk hr (congrArg (AciaEvent.mk · false) (writeData_eq v k))
  · exact write8_of_event ho hk hr rfl
  · exact write8_of_event ho hk hr ((writeCommand_eq v k).trans (raiseIfEnabled_eq _))
  · exact write8_of_event ho hk hr rfl
  · exact write8_of_event ho hk hr (writeControl6850_reset k h)
  · exact write8_of_event ho hk hr ((writeControl6850_enables k h).trans (raiseIfEnabled_eq _))

/-! ### The serial side (O23) -/

theorem rxWrite_eq (v : Byte) (k : Acia) :
    k.rxWrite v =
      { acia :=
          { k with
            rx := (if k.rx.length = k.rxCap then k.rx.tail else k.rx) ++ [v]
            overrun := k.overrun || decide (0 < k.rx.length)
            irq := k.irq || k.rxIrqEn }
        assertIrq := k.rxIrqEn } := by
  rw [Acia.rxWrite, enqueue_eq, not_isEmpty_eq_decide_length]

theorem txRead_nil {k : Acia} (h : k.tx = []) : k.txRead = none := by
  simp only [Acia.txRead, h]

theorem txRead_cons {k : Acia} {b : Byte} {rest : List Byte} (h : k.tx = b :: rest) :
    k.txRead = some (b,
      { acia := { k with tx := rest, irq := k.irq || (decide (rest.length = 0) && k.txIrqEn) }
        assertIrq := decide (rest.length = 0) && k.txIrqEn }) := by
  simp only [Acia.txRead, h, isEmpty_eq_decide_length]

theorem toNat_not_isEmpty (q : List Byte) : (!q.isEmpty).toNat = if q.length > 0 then 1 else 0 := by
  cases q <;> rfl

/-- Settles O23: the ACIA at the address is the owner's. -/
theorem aciaSerialSide : Obligations.AciaSerialSide := by
  intro s a v d k ho hk
  have hacia := aciaAt_of_owner ho hk
  refine ⟨?_, fun hx => ?_, fun b rest hx => ?_, ?_, ?_⟩
  · simp only [act, hostRxWrite, hacia, rxWrite_eq]; rfl
  · simp only [act, hostTxRead, hacia, txRead_nil hx]
  · simp only [act, hostTxRead, hacia, txRead_cons hx]; rfl
  · simp only [act, hostHasRx, hacia, toNat_not_isEmpty]
  · simp only [act, hostHasTx, hacia, toNat_not_isEmpty]

end Sys2Proof.Machine
end

section
/-! The statements of 70_reset_and_hazards.md on reset (R600, R601). -/

namespace Sys2Proof.Machine

/-! ### The action `reset()` (O29) -/

/-- A reset whose vector is read, as a whole next state; A, X, Y, IR, instAddr, Z, N and the draw counter are left free. -/
theorem hostReset_of_vector {s : State} {v : Got Word} (h : read16 s resetVector = .ok v) :
    ∃ t, hostReset s = { reply := .ok, st := t } ∧
      t = { v.st with
        pc := v.val, sp := 0xFF, phase := .running, opTrap := false, irqPending := false, nmiPending := false
        flags := { c := false, z := t.flags.z, i := false, d := false, b := false, v := false, n := t.flags.n }
        a := t.a, x := t.x, y := t.y, ir := t.ir, instAddr := t.instAddr, draws := t.draws } :=
  ⟨_, congrArg (orFaulted s .ok) (bind_eq_ok.2 ⟨v, h, rfl⟩), rfl⟩

/-- A fault of the vector's read is the reset's, and the machine is FAULTED. -/
theorem hostReset_of_vector_fault {s : State} {kind : FaultKind} {addr : Word}
    (h : read16 s resetVector = .error (.bus kind addr)) :
    hostReset s = { reply := .fault kind addr, st := afterFault s kind addr } :=
  congrArg (orFaulted s .ok) (bind_eq_error.2 (.inl h))

theorem read16_of_reads {s : State} {a : Word} {lo hi : Got Byte} (hlo : read8 s a = .ok lo)
    (hhi : read8 lo.st (a + 1) = .ok hi) : read16 s a = .ok { val := joinBytes lo.val hi.val, st := hi.st } :=
  bind_eq_ok.2 ⟨lo, hlo, bind_eq_ok.2 ⟨hi, hhi, rfl⟩⟩

theorem read16_unmapped_low {s : State} {a : Word} (h : owner s.devices a = none) :
    read16 s a = .error (.bus .unmapped a) :=
  bind_eq_error.2 (.inl (read8_unmapped h))

/-- A low byte in memory leaves the devices as they are, so the high byte's owner is that of before. -/
theorem read16_unmapped_high {s : State} {a : Word} (hm : s.isMemory a = true) (h : owner s.devices (a + 1) = none) :
    read16 s a = .error (.bus .unmapped (a + 1)) :=
  bind_eq_error.2 (.inr ⟨_, read8_memory hm, bind_eq_error.2 (.inl (read8_unmapped h))⟩)

/-- A read of memory changes nothing. -/
theorem read8_st_of_memory {s : State} {a : Word} {r : Got Byte} (h : read8 s a = .ok r) (hm : s.isMemory a = true) :
    r.st = s := by
  rw [read8_memory hm] at h
  cases h
  rfl

/-- Settles O29: the two reads keep memory and the platform, and a fault of either is the reset's. -/
theorem resetSequence : Obligations.ResetSequence := by
  refine fun s => ⟨fun lo hi hlo hhi => ?_, fun h => ?_, fun hm h => ?_⟩
  · obtain ⟨t, hreset, ht⟩ := hostReset_of_vector (read16_of_reads hlo hhi)
    have hact : act s .reset = { reply := .ok, st := t } := hreset
    have hreads : ReadRel s hi.st := (read8_rel hlo).trans (read8_rel hhi)
    have hmem : hi.st.mem = s.mem := by rw [hreads.frame]
    have hdevices (hm : s.isMemory 0xFFFC = true) (hm' : s.isMemory 0xFFFD = true) : hi.st.devices = s.devices := by
      have hst := read8_st_of_memory hlo hm
      rw [read8_st_of_memory hhi (hst ▸ hm'), hst]
    rw [hact, ht]
    exact ⟨rfl, rfl, rfl, rfl, rfl, rfl, rfl, rfl, rfl, rfl, rfl, rfl, hmem, hreads.platform, rfl, hdevices⟩
  · have hact : act s .reset = _ := hostReset_of_vector_fault (read16_unmapped_low h)
    rw [hact]
    exact ⟨rfl, rfl⟩
  · have hact : act s .reset = _ := hostReset_of_vector_fault (read16_unmapped_high hm h)
    rw [hact]
    exact ⟨rfl, rfl⟩

/-! ### The state `State.reset` (O11) -/

/-- Memory of `State.reset` is empty, so every byte reads as the fill (20_memory.md R86, log 9). -/
theorem State.reset_memByte (a : Word) : State.reset.memByte a = 0x00 := rfl

/-- Settles O11: the invariant is decided on the one default device, and both bytes of the vector are the fill. -/
theorem resetMeetsInvariant : Obligations.ResetMeetsInvariant := by
  refine ⟨by decide, rfl, rfl, rfl, rfl, rfl, rfl, rfl, rfl, rfl, ?_⟩
  rw [State.reset_memByte, State.reset_memByte]
  rfl

end Sys2Proof.Machine
end
